-- ==== Sys2Proof/Word.lean ====
section
/-!
DEFINITION. The words of the machine: 32-bit register values (R14), bytes and byte strings (R16).
-/

namespace Sys2Proof

/-- A control register or a command word (R14: "Control registers are 32 bits wide"). -/
abbrev Word := BitVec 32

/-- One byte of a buffer, an operand or a result (R16). -/
abbrev Byte := BitVec 8

/-- A byte string (R16). -/
abbrev Bytes := List Byte

end Sys2Proof
end

