-- ==== Sys2Proof/Syntax.lean ====
section
/-!
DEFINITION. The commands of the block: one constructor per row of the opcode map R100.
-/

namespace Sys2Proof

/-- The two chains a codec works for (R23 "chain"). -/
inductive Chain where
  | btc
  | ltc
  deriving DecidableEq, Repr

/-- The four values of the field CH, bits 9:8 (R91, R93). -/
inductive ChSel where
  /-- CH = 0, Bitcoin -/
  | btc
  /-- CH = 1, Litecoin -/
  | ltc
  /-- CH = 2, reserved in every command -/
  | reserved
  /-- CH = 3, AUTO -/
  | auto
  deriving DecidableEq, Repr

/-- A command with the fields it uses (the "used fields" of R100): `ch` is CH, `c` the compression flag C, `n` the
CRLF flag N, `s` the sub-select S. -/
inductive Instr where
  | nop
  | b58Encode
  | b58Decode
  | b58Checksum
  | b58checkEncode
  | b58checkDecode
  | bech32Encode (ch : ChSel)
  | bech32Decode (ch : ChSel)
  | compress
  | decompress
  | scalarMult (c s : Bool)
  | pointAdd (c : Bool)
  | modSqrt
  | modInv (s : Bool)
  | wifEncode (c : Bool)
  | wifDecode
  | recover
  | verifyMessage (ch : ChSel) (n : Bool)
  | sha256
  | sha256d
  | ripemd160
  | hash160
  | keccak256
  | msgDigest (ch : ChSel) (n : Bool)
  | p2pkhAddr (ch : ChSel) (c : Bool)
  | p2wpkhAddr (ch : ChSel)
  | ethAddr
  | addressSet
  deriving DecidableEq, Repr

/-- Why a word is no command (the four tests of R102, in its order). Each completes with IllegalCommand (R317). -/
inductive DecodeError where
  /-- RSV, bits 31:13, is not 0 (R97) -/
  | reservedBits
  /-- OP has no row in R100 (R101) -/
  | reservedOpcode
  /-- a field the command does not use is not 0 (R98) -/
  | unusedField
  /-- the command uses CH and this CH is not legal for it (R99) -/
  | illegalChain
  deriving DecidableEq, Repr

end Sys2Proof
end

