-- ==== Sys2Proof/WellFormed.lean ====
section
/-!
DEFINITION. Which terms of `Instr` are commands: the CH values of R99.
-/

namespace Sys2Proof

/-- The chain a CH value selects outright: CH = 0 and CH = 1 (R93). -/
def ChSel.chain? : ChSel → Option Chain
  | .btc => some .btc
  | .ltc => some .ltc
  | .reserved => none
  | .auto => none

/-- R99: 0 and 1 are legal for every command that uses CH. -/
def ChSel.isChain (ch : ChSel) : Bool := ch.chain?.isSome

/-- R99: VERIFY_MESSAGE also takes 3 (AUTO). -/
def ChSel.isChainOrAuto (ch : ChSel) : Bool := ch.isChain || ch == .auto

/-- A term of `Instr` is well formed when its CH value is legal (R99); no other field has an illegal value. -/
def Instr.wf : Instr → Bool
  | .nop => true
  | .b58Encode => true
  | .b58Decode => true
  | .b58Checksum => true
  | .b58checkEncode => true
  | .b58checkDecode => true
  | .bech32Encode ch => ch.isChain
  | .bech32Decode ch => ch.isChain
  | .compress => true
  | .decompress => true
  | .scalarMult _ _ => true
  | .pointAdd _ => true
  | .modSqrt => true
  | .modInv _ => true
  | .wifEncode _ => true
  | .wifDecode => true
  | .recover => true
  | .verifyMessage ch _ => ch.isChainOrAuto
  | .sha256 => true
  | .sha256d => true
  | .ripemd160 => true
  | .hash160 => true
  | .keccak256 => true
  | .msgDigest ch _ => ch.isChain
  | .p2pkhAddr ch _ => ch.isChain
  | .p2wpkhAddr ch => ch.isChain
  | .ethAddr => true
  | .addressSet => true

end Sys2Proof
end

