-- ==== Sys2Proof/Decode.lean ====
section
/-!
DEFINITION. Decoding of a command word (R90 to R102), and after it the encoder.
-/

namespace Sys2Proof

/-- One row of the opcode map R100: `pattern` is its "match", `legalCh` is empty when the command does not use CH,
`build` makes the command from the fields CH, C, N and S. -/
structure OpRow where
  op : Byte
  pattern : Word
  mask : Word
  legalCh : List ChSel
  build : ChSel → Bool → Bool → Bool → Instr

/-- The opcode map of R100, the codec rows. -/
def opRowsCodec : List OpRow := [
  ⟨0x00, 0x00000000, 0xFFFFFFFF, [], fun _ _ _ _ => .nop⟩,
  ⟨0x10, 0x00000010, 0xFFFFFFFF, [], fun _ _ _ _ => .b58Encode⟩,
  ⟨0x11, 0x00000011, 0xFFFFFFFF, [], fun _ _ _ _ => .b58Decode⟩,
  ⟨0x12, 0x00000012, 0xFFFFFFFF, [], fun _ _ _ _ => .b58Checksum⟩,
  ⟨0x13, 0x00000013, 0xFFFFFFFF, [], fun _ _ _ _ => .b58checkEncode⟩,
  ⟨0x14, 0x00000014, 0xFFFFFFFF, [], fun _ _ _ _ => .b58checkDecode⟩,
  ⟨0x18, 0x00000018, 0xFFFFFCFF, [.btc, .ltc], fun ch _ _ _ => .bech32Encode ch⟩,
  ⟨0x19, 0x00000019, 0xFFFFFCFF, [.btc, .ltc], fun ch _ _ _ => .bech32Decode ch⟩]

/-- The opcode map of R100, the point, field, WIF and recovery rows. -/
def opRowsCurve : List OpRow := [
  ⟨0x20, 0x00000020, 0xFFFFFFFF, [], fun _ _ _ _ => .compress⟩,
  ⟨0x21, 0x00000021, 0xFFFFFFFF, [], fun _ _ _ _ => .decompress⟩,
  ⟨0x22, 0x00000022, 0xFFFFEBFF, [], fun _ c _ s => .scalarMult c s⟩,
  ⟨0x23, 0x00000023, 0xFFFFFBFF, [], fun _ c _ _ => .pointAdd c⟩,
  ⟨0x24, 0x00000024, 0xFFFFFFFF, [], fun _ _ _ _ => .modSqrt⟩,
  ⟨0x25, 0x00000025, 0xFFFFEFFF, [], fun _ _ _ s => .modInv s⟩,
  ⟨0x28, 0x00000028, 0xFFFFFBFF, [], fun _ c _ _ => .wifEncode c⟩,
  ⟨0x29, 0x00000029, 0xFFFFFFFF, [], fun _ _ _ _ => .wifDecode⟩,
  ⟨0x30, 0x00000030, 0xFFFFFFFF, [], fun _ _ _ _ => .recover⟩,
  ⟨0x31, 0x00000031, 0xFFFFF4FF, [.btc, .ltc, .auto], fun ch _ n _ => .verifyMessage ch n⟩]

/-- The opcode map of R100, the hash and address rows. -/
def opRowsHash : List OpRow := [
  ⟨0x40, 0x00000040, 0xFFFFFFFF, [], fun _ _ _ _ => .sha256⟩,
  ⟨0x41, 0x00000041, 0xFFFFFFFF, [], fun _ _ _ _ => .sha256d⟩,
  ⟨0x42, 0x00000042, 0xFFFFFFFF, [], fun _ _ _ _ => .ripemd160⟩,
  ⟨0x43, 0x00000043, 0xFFFFFFFF, [], fun _ _ _ _ => .hash160⟩,
  ⟨0x44, 0x00000044, 0xFFFFFFFF, [], fun _ _ _ _ => .keccak256⟩,
  ⟨0x45, 0x00000045, 0xFFFFF4FF, [.btc, .ltc], fun ch _ n _ => .msgDigest ch n⟩,
  ⟨0x48, 0x00000048, 0xFFFFF8FF, [.btc, .ltc], fun ch c _ _ => .p2pkhAddr ch c⟩,
  ⟨0x49, 0x00000049, 0xFFFFFCFF, [.btc, .ltc], fun ch _ _ _ => .p2wpkhAddr ch⟩,
  ⟨0x4A, 0x0000004A, 0xFFFFFFFF, [], fun _ _ _ _ => .ethAddr⟩,
  ⟨0x4B, 0x0000004B, 0xFFFFFFFF, [], fun _ _ _ _ => .addressSet⟩]

/-- The whole opcode map of R100; an OP with no row is reserved (R101). -/
def opRows : List OpRow := opRowsCodec ++ opRowsCurve ++ opRowsHash

/-- OP, bits 7:0 (R92). -/
def fieldOp (w : Word) : Byte := w.extractLsb' 0 8

/-- The chain selector a CH value stands for (R93). -/
def chSelOf (b : BitVec 2) : ChSel :=
  if b = 0 then .btc else if b = 1 then .ltc else if b = 2 then .reserved else .auto

/-- CH, bits 9:8 (R93). -/
def fieldCh (w : Word) : ChSel := chSelOf (w.extractLsb' 8 2)

/-- C, bit 10 (R94). -/
def fieldC (w : Word) : Bool := w.getLsbD 10

/-- N, bit 11 (R95). -/
def fieldN (w : Word) : Bool := w.getLsbD 11

/-- S, bit 12 (R96). -/
def fieldS (w : Word) : Bool := w.getLsbD 12

/-- RSV, bits 31:13 (R97). -/
def fieldRsv (w : Word) : BitVec 19 := w.extractLsb' 13 19

/-- R102, after its RSV test and the search for the row. -/
def decodeRow (r : OpRow) (w : Word) : Except DecodeError Instr :=
  if w &&& r.mask ≠ r.pattern then .error .unusedField
  else if ¬ r.legalCh.isEmpty ∧ fieldCh w ∉ r.legalCh then .error .illegalChain
  else .ok (r.build (fieldCh w) (fieldC w) (fieldN w) (fieldS w))

/-- R102: total on every 32-bit word, refusing by name. -/
def decode (w : Word) : Except DecodeError Instr :=
  if fieldRsv w ≠ 0 then .error .reservedBits
  else
    match opRows.find? (fun r => r.op == fieldOp w) with
    | none => .error .reservedOpcode
    | some r => decodeRow r w

/-- The decoder's answer for the instruction whose low `nbits` bits are `w`; a command word has 32 bits (R90), and the
bits above `nbits` are 0. -/
def decodeTableWord (nbits w : Nat) : Option Instr :=
  match decode (BitVec.ofNat 32 (w % 2 ^ nbits)) with
  | .ok i => some i
  | .error _ => none

/-- The value of CH (R93). -/
def ChSel.bits : ChSel → BitVec 2
  | .btc => 0
  | .ltc => 1
  | .reserved => 2
  | .auto => 3

/-- The word with the given OP and fields, RSV = 0 (the bit layout of R91). -/
def packWord (op : Byte) (ch : ChSel) (c n s : Bool) : Word :=
  (0 : BitVec 19) ++ BitVec.ofBool s ++ BitVec.ofBool n ++ BitVec.ofBool c ++ ch.bits ++ op

/-- The command word of a command: its OP (R100), its used fields, every other bit 0 (R97, R98). -/
def encode : Instr → Word
  | .nop => packWord 0x00 .btc false false false
  | .b58Encode => packWord 0x10 .btc false false false
  | .b58Decode => packWord 0x11 .btc false false false
  | .b58Checksum => packWord 0x12 .btc false false false
  | .b58checkEncode => packWord 0x13 .btc false false false
  | .b58checkDecode => packWord 0x14 .btc false false false
  | .bech32Encode ch => packWord 0x18 ch false false false
  | .bech32Decode ch => packWord 0x19 ch false false false
  | .compress => packWord 0x20 .btc false false false
  | .decompress => packWord 0x21 .btc false false false
  | .scalarMult c s => packWord 0x22 .btc c false s
  | .pointAdd c => packWord 0x23 .btc c false false
  | .modSqrt => packWord 0x24 .btc false false false
  | .modInv s => packWord 0x25 .btc false false s
  | .wifEncode c => packWord 0x28 .btc c false false
  | .wifDecode => packWord 0x29 .btc false false false
  | .recover => packWord 0x30 .btc false false false
  | .verifyMessage ch n => packWord 0x31 ch false n false
  | .sha256 => packWord 0x40 .btc false false false
  | .sha256d => packWord 0x41 .btc false false false
  | .ripemd160 => packWord 0x42 .btc false false false
  | .hash160 => packWord 0x43 .btc false false false
  | .keccak256 => packWord 0x44 .btc false false false
  | .msgDigest ch n => packWord 0x45 ch false n false
  | .p2pkhAddr ch c => packWord 0x48 ch c false false
  | .p2wpkhAddr ch => packWord 0x49 ch false false false
  | .ethAddr => packWord 0x4A .btc false false false
  | .addressSet => packWord 0x4B .btc false false false

end Sys2Proof
end

