-- ==== Sys2Proof/Machine/Bytes.lean ====
section
/-!
DEFINITION. Byte strings and the integers in them (R16, R17): big-endian and little-endian forms, slices, digits in a
base, ASCII text.
-/

namespace Sys2Proof.Machine

/-- `b[i..j)`: the bytes at indices i to j − 1, empty when j ≤ i (R16). -/
def slice (b : Bytes) (i j : Nat) : Bytes := (b.drop i).take (j - i)

/-- The number whose digits in `base` are `ds`, most significant first. -/
def ofDigits (base : Nat) (ds : List Nat) : Nat := ds.foldl (fun v d => v * base + d) 0

/-- The digits of `v` in `base`, most significant first, put before `acc`; none for 0. `fuel` bounds their number. -/
def toDigits (base : Nat) : (fuel : Nat) → (v : Nat) → (acc : List Nat) → List Nat
  | 0, _, acc => acc
  | fuel + 1, v, acc => if v = 0 then acc else toDigits base fuel (v / base) (v % base :: acc)

/-- `int_be(b)`, the unsigned integer whose big-endian bytes are `b`; 0 for the empty string (R17). -/
def intBE (b : Bytes) : Nat := ofDigits 256 (b.map BitVec.toNat)

/-- `le_k(v)`, the k-byte little-endian string of `v` (R256). -/
def leBytes : (k : Nat) → (v : Nat) → Bytes
  | 0, _ => []
  | k + 1, v => BitVec.ofNat 8 v :: leBytes k (v / 256)

/-- `be_N(v)`, the N-byte big-endian string of `v` (R17). -/
def beBytes (n v : Nat) : Bytes := (leBytes n v).reverse

/-- The shortest big-endian string that holds `v`, empty for 0 (the `be_k` of R142); `fuel` bounds its length. -/
def minBytes (fuel v : Nat) : Bytes := (toDigits 256 fuel v []).map (BitVec.ofNat 8)

/-- The ASCII code of a character (R16). -/
def ascii (c : Char) : Byte := BitVec.ofNat 8 c.toNat

/-- A text as the byte string of its ASCII codes, with no terminator (R16). -/
def text (s : String) : Bytes := s.toList.map ascii

/-- The byte at index `i`, or 0 past the end; every use below is within the string. -/
def byteAt (b : Bytes) (i : Nat) : Byte := b.getD i 0

/-- Consecutive pieces of `n` elements (`n` > 0), at most `fuel` of them. -/
def chunksOf {α : Type} (n : Nat) : (fuel : Nat) → List α → List (List α)
  | 0, _ => []
  | _ + 1, [] => []
  | fuel + 1, a :: l => (a :: l).take n :: chunksOf n fuel ((a :: l).drop n)

end Sys2Proof.Machine
end

