-- ==== Sys2Proof/Config.lean ====
section
/-!
DEFINITION. What one instance of the block fixes (R12, R70), and the free values: constants with no body, so that
nothing can be proved of them, for every value the spec calls unspecified.
-/

namespace Sys2Proof.Config

/-- The parameters of one instance. R12 bounds the two sizes (`Params.wf`); R70 leaves BLOCK_BASE to the platform. -/
structure Params where
  /-- IBUF_SIZE, the byte size of the input buffer. -/
  ibufSize : Nat
  /-- OBUF_SIZE, the byte size of the output buffer. -/
  obufSize : Nat
  /-- BLOCK_BASE, the platform address of window offset 0. -/
  blockBase : Nat
  deriving DecidableEq, Repr

/-- The bounds of R12: 256 ≤ IBUF_SIZE ≤ 4096 and 1024 ≤ OBUF_SIZE ≤ 4096. -/
abbrev Params.wf (p : Params) : Prop :=
  256 ≤ p.ibufSize ∧ p.ibufSize ≤ 4096 ∧ 1024 ≤ p.obufSize ∧ p.obufSize ≤ 4096

/-- The default sizes of R12. BLOCK_BASE has no default in the spec: 0 here is a DESIGN CHOICE (log entry 1). -/
def Params.default : Params := ⟨1024, 2048, 0⟩

/-- FREE VALUE. The IBUF byte at an index that nothing has written since the `epoch`-th power-on reset (R57, U5). -/
opaque ibufByte : (epoch index : Nat) → Byte

/-- FREE VALUE. The OBUF byte at an index that no emitted slot covers, since OBUF last became unspecified, its
`epoch`-th time (R58, U6, U7, U8). -/
opaque obufByte : (epoch index : Nat) → Byte

/-- FREE VALUE. What the `draw`-th read of OBUF, RESULT or OLENj made while BUSY = 1 returns (R81, U9). -/
opaque busyRead : (draw : Nat) → Word

/-- FREE VALUE. CUR_CMD after a reset (R59, R62, U10). -/
opaque latchCmd : (draw : Nat) → Word

/-- FREE VALUE. CUR_LEN0, CUR_LEN1 and CUR_LEN2 (`k` = 0, 1, 2) after a reset (R59, R62, U10). -/
opaque latchLen : (draw k : Nat) → BitVec 16

end Sys2Proof.Config
end

