-- ==== Sys2Proof/Machine/State.lean ====
section
/-!
DEFINITION. The state of the block and of the host beside it (R30, R61), the reasons a step can stop, and the state
right after power-on reset (R62, R331).
-/

namespace Sys2Proof.Machine

/-- STATUS.ERR: the sixteen status codes of R301, in the order of their numbers 0 to 15. -/
inductive ErrCode where
  /-- 0 (R302) -/
  | ok
  /-- 1 (R303) -/
  | malformedEncoding
  /-- 2 (R304) -/
  | unsupportedPrefix
  /-- 3 (R305) -/
  | invalidLength
  /-- 4 (R306) -/
  | invalidCompressionFlag
  /-- 5 (R307) -/
  | pointNotOnCurve
  /-- 6 (R308) -/
  | invalidSignatureLength
  /-- 7 (R309) -/
  | invalidRecoveryId
  /-- 8 (R310) -/
  | signatureMismatch
  /-- 9, reserved: no command raises it (R311) -/
  | addressMismatch
  /-- 10 (R312) -/
  | invalidWitnessProgram
  /-- 11 (R313) -/
  | checksumMismatch
  /-- 12 (R314) -/
  | operandOutOfRange
  /-- 13 (R315) -/
  | notQuadraticResidue
  /-- 14 (R316) -/
  | notInvertible
  /-- 15 (R317) -/
  | illegalCommand
  deriving DecidableEq, Repr

/-- STATUS.STAGE: the four stages of R318, in the order of their numbers 0 to 3. -/
inductive Stage where
  | interface
  | codec
  | recovery
  | encoding
  deriving DecidableEq, Repr

/-- The engine phase (R60). -/
inductive Phase where
  | idle
  | run
  deriving DecidableEq, Repr

/-- The fields of RESULT (R48 to R54); its reserved bits hold nothing and read 0. -/
structure ResultReg where
  /-- RESULT.VALID (R49) -/
  valid : Bool := false
  /-- RESULT.COMP (R50) -/
  comp : Bool := false
  /-- RESULT.RECID (R51) -/
  recid : BitVec 2 := 0
  /-- RESULT.INF (R52) -/
  inf : Bool := false
  /-- RESULT.CHAIN (R53) -/
  chain : BitVec 2 := 0
  /-- RESULT.PREFIX (R54) -/
  prefixByte : Byte := 0
  deriving DecidableEq, Repr

/-- RESULT = 0, the value at reset, after a START and after an error (R48). -/
def ResultReg.zero : ResultReg := ⟨false, false, 0, false, 0, 0⟩

/-- The hidden latch CUR (R59). -/
structure Latch where
  /-- CUR_CMD -/
  cmd : Word
  /-- CUR_LEN0 -/
  len0 : BitVec 16
  /-- CUR_LEN1 -/
  len1 : BitVec 16
  /-- CUR_LEN2 -/
  len2 : BitVec 16
  deriving DecidableEq, Repr

/-- A buffer's contents. `cells` lists the bytes that hold a known value, as (index, byte) pairs, the indices strictly
rising. An index that is not listed holds an unspecified byte; `epoch` counts how often the whole buffer became
unspecified, so that the free values of one epoch say nothing of the next (R57, R58). -/
structure Memory where
  epoch : Nat
  cells : List Host.Cell
  deriving DecidableEq, Repr

/-- One thing the host does (R345): a bus access of `width` bytes at a platform address, or the platform's reset
input (R330). A write of 1 or 2 bytes carries its value in the low bits of `value`. -/
inductive HostAction where
  | read (addr width : Nat)
  | write (addr width : Nat) (value : Word)
  | powerOnReset
  deriving DecidableEq, Repr

/-- Whose turn it is in a run of the two agents (R345). -/
inductive Turn where
  | host (a : HostAction)
  | engine
  deriving DecidableEq, Repr

/-- What a bus access answers the host (R75): the data of a read, the acceptance of a write, the block's error response,
or, for an access outside the window, nothing from the block: it does not reach it, and what the platform answers is not
part of the machine (log entry 9). -/
inductive BusResponse where
  | data (v : Word)
  | written
  | busError
  | notReached
  deriving DecidableEq, Repr

/-- Why the machine stops with a fault: it never does, so there is no reason. A command ends in a completion whatever its
operands (R117, R300), a bus error is an answer to the host (R75), and an access outside the window does not reach the
block, which goes on (R75). -/
inductive Fault where
  deriving DecidableEq, Repr

/-- Why the machine refuses an instruction. -/
inductive Refusal where
  /-- The instruction has no meaning in this model. Raised by an arm of `exec` only; no arm raises it now. Safe. -/
  | notModelled (mnemonic : String)
  deriving DecidableEq, Repr

/-- Everything the spec gives the machine (R61), and the model's own four fields at the end. -/
structure State where
  /-- The instance: IBUF_SIZE and OBUF_SIZE, which CAPS shows (R56), and BLOCK_BASE (R70). Never changes. -/
  params : Config.Params
  /-- CTRL.IE (R34) -/
  ie : Bool
  /-- CMD (R38) -/
  cmd : Word
  /-- STATUS.BUSY (R40); the engine phase is RUN exactly when it is 1 (R60) -/
  busy : Bool
  /-- STATUS.DONE (R41) -/
  done : Bool
  /-- STATUS.ERR (R42) -/
  err : ErrCode
  /-- STATUS.STAGE (R43) -/
  stage : Stage
  /-- STATUS.HAZ (R44) -/
  haz : Bool
  /-- LEN0 (R47) -/
  len0 : BitVec 16
  /-- LEN1 (R47) -/
  len1 : BitVec 16
  /-- LEN2 (R47) -/
  len2 : BitVec 16
  /-- RESULT (R48) -/
  result : ResultReg
  /-- OLEN0 to OLEN7 (R55) -/
  olen : Vector (BitVec 16) 8
  /-- the CUR latch (R59) -/
  cur : Latch
  /-- IBUF (R57), indexed from 0 -/
  ibuf : Memory
  /-- OBUF (R58), indexed from 0 -/
  obuf : Memory
  /-- MODEL'S OWN. How many free values have been drawn. -/
  draws : Nat
  /-- MODEL'S OWN. The turns to come (R83, R345): the host's actions in their one total order, and where among them
  the engine moves. -/
  inputs : List Turn
  /-- MODEL'S OWN. What the host's accesses answered, newest first. -/
  responses : List BusResponse
  deriving DecidableEq, Repr

/-- OLEN0 to OLEN7 all 0: their value at reset, after a START and after an error (R55). -/
def olenZero : Vector (BitVec 16) 8 := Vector.replicate 8 0

/-- Right after power-on reset (R62, R331), for the default instance: the values of R62; no turn to come (nothing runs
until a START, R333). CUR = 0 and BLOCK_BASE = 0 are DESIGN CHOICEs (log entries 1, 7); IBUF and OBUF list nothing,
so every byte of them is a free value (log entries 4, 5). -/
def State.reset : State where
  params := Config.Params.default
  ie := false
  cmd := 0
  busy := false
  done := false
  err := .ok
  stage := .interface
  haz := false
  len0 := 0
  len1 := 0
  len2 := 0
  result := ResultReg.zero
  olen := olenZero
  cur := ⟨0, 0, 0, 0⟩
  ibuf := ⟨0, []⟩
  obuf := ⟨0, []⟩
  draws := 0
  inputs := []
  responses := []

end Sys2Proof.Machine
end

