-- ==== Sys2Proof/Machine/Ops.lean ====
section
/-!
DEFINITION. The named operations over the buffers and the registers: reading and writing buffer bytes, START, the two
ways a command completes (in place of trap entry and return, R300, R324), the control bits, the two resets.
-/

namespace Sys2Proof.Machine

/-! ### A buffer -/

/-- The listed byte at index `i`; `none` where the byte is unspecified. -/
def lookupCell (i : Nat) : List Host.Cell → Option Byte
  | [] => none
  | (j, c) :: l => if j = i then some c else lookupCell i l

/-- List the byte `b` at index `i`, keeping the indices strictly rising. -/
def insertCell (i : Nat) (b : Byte) : List Host.Cell → List Host.Cell
  | [] => [(i, b)]
  | (j, c) :: l =>
    if i < j then (i, b) :: (j, c) :: l
    else if i = j then (i, b) :: l
    else (j, c) :: insertCell i b l

/-- The known byte at index `i`: what an unlisted index reads as is `none`, an unspecified byte (R57, R58). -/
def Memory.byte? (m : Memory) (i : Nat) : Option Byte := lookupCell i m.cells

/-- Store one byte. -/
def Memory.put (m : Memory) (i : Nat) (b : Byte) : Memory := { m with cells := insertCell i b m.cells }

/-- Store a byte string in increasing index order from `i` (R77). -/
def Memory.putBytes : Memory → (i : Nat) → Bytes → Memory
  | m, _, [] => m
  | m, i, b :: bs => (m.put i b).putBytes (i + 1) bs

/-- Every byte becomes unspecified (R62, R111, R117). -/
def Memory.forget (m : Memory) : Memory := ⟨m.epoch + 1, []⟩

/-- The canonical form: indices strictly rising. An unlisted index reads as no byte, which no cell equals. -/
def Memory.wf (m : Memory) : Bool := decide (m.cells.Pairwise fun x y => x.1 < y.1)

/-- Every listed index is below `n`. -/
def Memory.below (m : Memory) (n : Nat) : Bool := m.cells.all fun x => decide (x.1 < n)

/-- The IBUF byte at index `i` (R57); a free value until something writes it after power-on (log entry 4). -/
def State.ibufByte (s : State) (i : Nat) : Byte := (s.ibuf.byte? i).getD (Config.ibufByte s.ibuf.epoch i)

/-- The OBUF byte at index `i` (R58) as a read while BUSY = 0 gives it; a free value where no emitted slot covers it
(log entry 5). -/
def State.obufByte (s : State) (i : Nat) : Byte := (s.obuf.byte? i).getD (Config.obufByte s.obuf.epoch i)

/-- The `n` IBUF bytes from index `i`, in increasing order (R77). -/
def State.ibufBytes (s : State) (i n : Nat) : Bytes := (List.range n).map fun k => s.ibufByte (i + k)

/-! ### The outcome of a command -/

/-- What a command that succeeds produces: the slots it emits (R115) and the RESULT it writes (R118). -/
structure Output where
  slots : List (Fin 8 × Bytes)
  result : ResultReg
  deriving DecidableEq, Repr

/-- The output of a command that emits nothing (R123). -/
def Output.none : Output := ⟨[], ResultReg.zero⟩

/-- The output of a command that emits slot 0 only and writes no RESULT field. -/
def Output.single (b : Bytes) : Output := ⟨[(0, b)], ResultReg.zero⟩

/-- SLOT(j) = 128·j (R115). -/
def slotBase (j : Fin 8) : Nat := 128 * j.val

/-- R116: whether every emitted slot ends within OBUF. -/
def slotsFit (obufSize : Nat) (slots : List (Fin 8 × Bytes)) : Bool :=
  slots.all fun x => decide (slotBase x.1 + x.2.length ≤ obufSize)

/-- OLEN0 to OLEN7 after the slots are emitted: OLENj = len(b) for each, 0 for the others (R55, R115). -/
def olenOf : List (Fin 8 × Bytes) → Vector (BitVec 16) 8
  | [] => olenZero
  | (j, b) :: l => (olenOf l).set j.val (BitVec.ofNat 16 b.length) j.isLt

/-- Write the emitted slots into a buffer, each at its SLOT(j) (R115). -/
def putSlots : Memory → List (Fin 8 × Bytes) → Memory
  | m, [] => m
  | m, (j, b) :: l => putSlots (m.putBytes (slotBase j) b) l

/-- Completion with success (R118, R119): OBUF holds the emitted slots and every other byte of it is unspecified (R58). -/
def State.succeed (s : State) (o : Output) : State :=
  { s with
    busy := false
    done := true
    err := .ok
    stage := .interface
    result := o.result
    olen := olenOf o.slots
    obuf := putSlots s.obuf.forget o.slots }

/-- Completion with the error `e` at stage `st` (R117, R119, R300): the block's way to take an exception. It saves
nothing and goes nowhere: it records the code and the stage, and clears the results. -/
def State.fail (s : State) (e : ErrCode) (st : Stage) : State :=
  { s with
    busy := false
    done := true
    err := e
    stage := st
    result := ResultReg.zero
    olen := olenZero
    obuf := s.obuf.forget }

/-- An illegal word completes with IllegalCommand, stage INTERFACE (R102, R317). -/
def State.illegal (s : State) : State := s.fail .illegalCommand .interface

/-- The completion of a command of stage `st` whose rule gives `r`: an error of the rule, an output that does not fit
OBUF (R116), or success. -/
def State.complete (s : State) (st : Stage) (r : Except ErrCode Output) : State :=
  match r with
  | .error e => s.fail e st
  | .ok o => if slotsFit s.params.obufSize o.slots then s.succeed o else s.fail .invalidLength st

/-! ### START, the control bits, reset -/

/-- An accepted START (R111). HAZ and IE are not changed. -/
def State.start (s : State) : State :=
  { s with
    cur := ⟨s.cmd, s.len0, s.len1, s.len2⟩
    busy := true
    done := false
    err := .ok
    stage := .interface
    result := ResultReg.zero
    olen := olenZero
    obuf := s.obuf.forget }

/-- The sticky hazard flag (R44). -/
def State.hazard (s : State) : State := { s with haz := true }

/-- CTRL.START = 1 (R33, R337): a start while idle; while BUSY it is ignored and sets HAZ. -/
def State.ctrlStart (s : State) : State := if s.busy then s.hazard else s.start

/-- CTRL.CLR = 1 (R35, R342): clears DONE, ERR, STAGE and HAZ while idle; while BUSY it only sets HAZ. -/
def State.ctrlClr (s : State) : State :=
  if s.busy then s.hazard
  else { s with done := false, err := .ok, stage := .interface, haz := false }

/-- The latch after a reset: unspecified, so free values (R59, R62; log entry 7). -/
def freeLatch (draw : Nat) : Latch :=
  ⟨Config.latchCmd draw, Config.latchLen draw 0, Config.latchLen draw 1, Config.latchLen draw 2⟩

/-- Soft reset (R332, R343): every register at its value of R62, IBUF kept, OBUF and CUR unspecified, a running
command abandoned. -/
def State.softReset (s : State) : State :=
  { s with
    ie := false
    cmd := 0
    busy := false
    done := false
    err := .ok
    stage := .interface
    haz := false
    len0 := 0
    len1 := 0
    len2 := 0
    result := ResultReg.zero
    olen := olenZero
    cur := freeLatch s.draws
    obuf := s.obuf.forget
    draws := s.draws + 1 }

/-- Power-on reset (R331): soft reset and every IBUF byte unspecified (R62, R332). -/
def State.powerOnReset (s : State) : State := { s.softReset with ibuf := s.ibuf.forget }

/-- A write to CTRL (R32): SRST first and alone; then IE is stored (R34), then CLR, then START. -/
def State.writeCtrl (s : State) (v : Word) : State :=
  if v.getLsbD 3 then s.softReset
  else
    let s1 := { s with ie := v.getLsbD 1 }
    let s2 := if v.getLsbD 2 then s1.ctrlClr else s1
    if v.getLsbD 0 then s2.ctrlStart else s2

/-- A write to an input register or to IBUF is dropped while BUSY = 1 and sets HAZ (R80, R335); otherwise it is `t`. -/
def State.unlessBusy (s t : State) : State := if s.busy then s.hazard else t

end Sys2Proof.Machine
end

