-- ==== Sys2Proof/Machine/Flags.lean ====
section
/-!
DEFINITION. The register words a read gives (R31 to R56), packed from the fields State holds, and the interrupt level.
-/

namespace Sys2Proof.Machine

/-- The number of a status code (R301). -/
def ErrCode.bits : ErrCode → BitVec 4
  | .ok => 0
  | .malformedEncoding => 1
  | .unsupportedPrefix => 2
  | .invalidLength => 3
  | .invalidCompressionFlag => 4
  | .pointNotOnCurve => 5
  | .invalidSignatureLength => 6
  | .invalidRecoveryId => 7
  | .signatureMismatch => 8
  | .addressMismatch => 9
  | .invalidWitnessProgram => 10
  | .checksumMismatch => 11
  | .operandOutOfRange => 12
  | .notQuadraticResidue => 13
  | .notInvertible => 14
  | .illegalCommand => 15

/-- The number of a stage (R318). -/
def Stage.bits : Stage → BitVec 2
  | .interface => 0
  | .codec => 1
  | .recovery => 2
  | .encoding => 3

/-- The interrupt output and STATUS.IRQ: the level DONE AND IE (R45, R322). -/
def State.irq (s : State) : Bool := s.done && s.ie

/-- The engine phase: RUN exactly when BUSY = 1 (R60). -/
def State.phase (s : State) : Phase := if s.busy then .run else .idle

/-- ID (R31). -/
def idWord : Word := 0x4F440007

/-- CTRL as read: IE in bit 1, every other bit 0 (R32). -/
def State.ctrlWord (s : State) : Word := (0 : BitVec 30) ++ BitVec.ofBool s.ie ++ (0 : BitVec 1)

/-- STATUS as read, the layout of R39; bits 3:2 and 31:12 are 0 (R46). -/
def State.statusWord (s : State) : Word :=
  (0 : BitVec 20) ++ BitVec.ofBool s.irq ++ BitVec.ofBool s.haz ++ s.stage.bits ++ s.err.bits ++ (0 : BitVec 2)
    ++ BitVec.ofBool s.done ++ BitVec.ofBool s.busy

/-- RESULT as read, the layout of R48; bits 7 and 31:16 are 0. -/
def ResultReg.word (r : ResultReg) : Word :=
  (0 : BitVec 16) ++ r.prefixByte ++ (0 : BitVec 1) ++ r.chain ++ BitVec.ofBool r.inf ++ r.recid
    ++ BitVec.ofBool r.comp ++ BitVec.ofBool r.valid

/-- A 16-bit length as read: bits 31:16 are 0 (R47, R55). -/
def lenWord (n : BitVec 16) : Word := (0 : BitVec 16) ++ n

/-- CAPS: IBUF_SIZE in bits 15:0 and OBUF_SIZE in bits 31:16 (R56). -/
def State.capsWord (s : State) : Word := BitVec.ofNat 16 s.params.obufSize ++ BitVec.ofNat 16 s.params.ibufSize

/-- The number RESULT.CHAIN gives a chain: 0 Bitcoin, 1 Litecoin (R53). -/
def chainBits : Chain → BitVec 2
  | .btc => 0
  | .ltc => 1

end Sys2Proof.Machine
end

