-- ==== Sys2Proof/Machine/Bus.lean ====
section
/-!
DEFINITION. The host's accesses to the window (R70 to R81) and what they do to the block.
-/

namespace Sys2Proof.Machine

/-- The registers of the register map (`10_state.md` §2). -/
inductive Reg where
  | id
  | ctrl
  | cmd
  | status
  | len0
  | len1
  | len2
  | result
  | olen (j : Fin 8)
  | caps
  deriving DecidableEq, Repr

/-- What a byte of the buffer half of the window is (R71). -/
inductive BufferByte where
  | ibuf (i : Nat)
  | obuf (i : Nat)
  | reserved
  deriving DecidableEq, Repr

/-- The size of the window in bytes (R70). -/
def windowSize : Nat := 0x3000

/-- The first offset of the buffer half, which is that of IBUF (R71). -/
def ibufBase : Nat := 0x1000

/-- The offset of OBUF (R71). -/
def obufBase : Nat := 0x2000

/-- The register at a 4-byte-aligned offset below 0x1000; `none` for a reserved offset (R71, register map). -/
def regAt (off : Nat) : Option Reg :=
  match off / 4 with
  | 0 => some .id
  | 1 => some .ctrl
  | 2 => some .cmd
  | 3 => some .status
  | 4 => some .len0
  | 5 => some .len1
  | 6 => some .len2
  | 7 => some .result
  | 8 => some (.olen 0)
  | 9 => some (.olen 1)
  | 10 => some (.olen 2)
  | 11 => some (.olen 3)
  | 12 => some (.olen 4)
  | 13 => some (.olen 5)
  | 14 => some (.olen 6)
  | 15 => some (.olen 7)
  | 16 => some .caps
  | _ => none

/-- What the byte at an offset of the buffer half is (R71). -/
def bufferByteAt (p : Config.Params) (off : Nat) : BufferByte :=
  if ibufBase ≤ off ∧ off < ibufBase + p.ibufSize then .ibuf (off - ibufBase)
  else if obufBase ≤ off ∧ off < obufBase + p.obufSize then .obuf (off - obufBase)
  else .reserved

/-- Widths and alignment: the register half takes aligned 32-bit accesses only (R73), the buffer half 1, 2 or 4 bytes,
naturally aligned (R74). Every other access is a bus error (R75). -/
def busLegal (off width : Nat) : Bool :=
  if off < ibufBase then decide (width = 4 ∧ off % 4 = 0)
  else decide ((width = 1 ∨ width = 2 ∨ width = 4) ∧ off % width = 0)

/-- The stored value of a register, as a read gives it while BUSY = 0 (R31 to R56). -/
def State.readReg (s : State) : Reg → Word
  | .id => idWord
  | .ctrl => s.ctrlWord
  | .cmd => s.cmd
  | .status => s.statusWord
  | .len0 => lenWord s.len0
  | .len1 => lenWord s.len1
  | .len2 => lenWord s.len2
  | .result => s.result.word
  | .olen j => lenWord s.olen[j]
  | .caps => s.capsWord

/-- The registers whose read while BUSY = 1 is unspecified (R81, R336). -/
def Reg.isOutput : Reg → Bool
  | .result => true
  | .olen _ => true
  | .id => false
  | .ctrl => false
  | .cmd => false
  | .status => false
  | .len0 => false
  | .len1 => false
  | .len2 => false
  | .caps => false

/-- Byte `i` of a bus value: bits 8·i+7 down to 8·i (R76). -/
def busByte (v : Word) (i : Nat) : Byte := v.extractLsb' (8 * i) 8

/-- The bus value whose bytes, lowest first, are `bs` (R76). -/
def busValue (bs : Bytes) : Word := BitVec.ofNat 32 (intBE bs.reverse)

/-- The byte at an offset of the buffer half, as byte `i` of a read; an OBUF byte while BUSY = 1 is byte `i` of the free
value of this read (R81); a reserved byte is 0 (R72). -/
def State.readBufferByte (s : State) (off i : Nat) : Byte :=
  match bufferByteAt s.params off with
  | .ibuf k => s.ibufByte k
  | .obuf k => if s.busy then busByte (Config.busyRead s.draws) i else s.obufByte k
  | .reserved => 0

/-- The value of a legal read of the buffer half (R76). -/
def State.readBuffer (s : State) (off width : Nat) : Word :=
  busValue ((List.range width).map fun i => s.readBufferByte (off + i) i)

/-- Whether an access of the buffer half touches a byte of the kind `f` selects. -/
def touches (p : Config.Params) (off width : Nat) (f : BufferByte → Bool) : Bool :=
  (List.range width).any fun i => f (bufferByteAt p (off + i))

/-- A byte of IBUF. -/
def BufferByte.isIbuf : BufferByte → Bool
  | .ibuf _ => true
  | .obuf _ => false
  | .reserved => false

/-- A byte of OBUF. -/
def BufferByte.isObuf : BufferByte → Bool
  | .ibuf _ => false
  | .obuf _ => true
  | .reserved => false

/-- One free value has been drawn. -/
def State.drew (s : State) : State := { s with draws := s.draws + 1 }

/-- A read at a window offset (R72 to R81). It changes nothing but, while BUSY = 1, the count of free values. -/
def State.busRead (s : State) (off width : Nat) : State × BusResponse :=
  if ¬ busLegal off width then (s, .busError)
  else if off < ibufBase then
    match regAt off with
    | none => (s, .data 0)
    | some r =>
      if s.busy && r.isOutput then (s.drew, .data (Config.busyRead s.draws)) else (s, .data (s.readReg r))
  else if s.busy && touches s.params off width BufferByte.isObuf then (s.drew, .data (s.readBuffer off width))
  else (s, .data (s.readBuffer off width))

/-- A write to a register: CTRL acts, CMD and LEN0..2 are stored unless BUSY = 1 (R38, R47, R80), the read-only ones
ignore it. -/
def State.writeReg (s : State) (r : Reg) (v : Word) : State :=
  match r with
  | .ctrl => s.writeCtrl v
  | .cmd => s.unlessBusy { s with cmd := v }
  | .len0 => s.unlessBusy { s with len0 := v.setWidth 16 }
  | .len1 => s.unlessBusy { s with len1 := v.setWidth 16 }
  | .len2 => s.unlessBusy { s with len2 := v.setWidth 16 }
  | .id => s
  | .status => s
  | .result => s
  | .olen _ => s
  | .caps => s

/-- Store byte `i` of `v` at the offset, when it is an IBUF byte; an OBUF byte and a reserved byte ignore it (R72,
R81). -/
def State.writeBufferByte (s : State) (off : Nat) (b : Byte) : State :=
  match bufferByteAt s.params off with
  | .ibuf k => { s with ibuf := s.ibuf.put k b }
  | .obuf _ => s
  | .reserved => s

/-- The bytes of a legal write of the buffer half, stored in increasing offset order (R76). -/
def State.writeBuffer (s : State) (off : Nat) : Bytes → State
  | [] => s
  | b :: bs => (s.writeBufferByte off b).writeBuffer (off + 1) bs

/-- A write at a window offset (R72 to R81). -/
def State.busWrite (s : State) (off width : Nat) (v : Word) : State × BusResponse :=
  if ¬ busLegal off width then (s, .busError)
  else if off < ibufBase then
    match regAt off with
    | none => (s, .written)
    | some r => (s.writeReg r v, .written)
  else if touches s.params off width BufferByte.isIbuf then
    (s.unlessBusy (s.writeBuffer off ((List.range width).map (busByte v))), .written)
  else (s, .written)

/-- The window offset of a platform address, `none` outside the window (R70). -/
def State.offsetOf (s : State) (addr : Nat) : Option Nat :=
  if s.params.blockBase ≤ addr ∧ addr < s.params.blockBase + windowSize then some (addr - s.params.blockBase) else none

/-- The host gets its response (R75). -/
def respond (x : State × BusResponse) : State := { x.1 with responses := x.2 :: x.1.responses }

end Sys2Proof.Machine
end

