-- ==== Sys2Proof/Machine/Field.lean ====
section
/-!
DEFINITION. Arithmetic mod the field order p and the group order n (R4, R5, R18), inverse and square root.
-/

namespace Sys2Proof.Machine

/-- The field order p = 2^256 − 2^32 − 977 (R4). -/
def fieldP : Nat := 2 ^ 256 - 2 ^ 32 - 977

/-- The group order n (R5). -/
def orderN : Nat := 0xFFFFFFFFFFFFFFFFFFFFFFFFFFFFFFFEBAAEDCE6AF48A03BBFD25E8CD0364141

/-- The x coordinate of the generator (R5). -/
def genX : Nat := 0x79BE667EF9DCBBAC55A06295CE870B07029BFCDB2DCE28D959F2815B16F81798

/-- The y coordinate of the generator (R5). -/
def genY : Nat := 0x483ADA7726A3C4655DA4FBFC0E1108A8FD17B448A68554199C47D08FFB10D4B8

/-- Square and multiply: `acc · b^e mod m` for `e` < 2^fuel, the result reduced when `acc` is. -/
def powModAux (m : Nat) : (fuel : Nat) → (b e acc : Nat) → Nat
  | 0, _, _, acc => acc
  | fuel + 1, b, e, acc =>
    if e = 0 then acc
    else powModAux m fuel (b * b % m) (e / 2) (if e % 2 = 1 then acc * b % m else acc)

/-- `b^e mod m`, the representative in [0, m − 1] (R18). -/
def powMod (m b e : Nat) : Nat := powModAux m (e.log2 + 1) (b % m) e (1 % m)

/-- `a − b` mod m, the representative in [0, m − 1] (R18), for any naturals `a` and `b`. -/
def subMod (m a b : Nat) : Nat := (a + (m - b % m)) % m

/-- `inv_m(a)` for a prime m (R18), computed as a^(m − 2) mod m (Fermat). That this is the b of R18, a·b ≡ 1 (mod m),
is DEDUCED from the primality of p and n (log entry 12); `invMod_spec` of `Laws/Field.lean` proves it for both. -/
def invMod (m a : Nat) : Nat := powMod m a (m - 2)

/-- `sqrt_p(v)` = v^((p+1)/4) mod p (R184). -/
def sqrtP (v : Nat) : Nat := powMod fieldP v ((fieldP + 1) / 4)

/-- The right side of the curve equation, (x³ + 7) mod p (R4). -/
def curveRhs (x : Nat) : Nat := (x ^ 3 + 7) % fieldP

end Sys2Proof.Machine
end

