-- ==== Sys2Proof/Machine/Curve.lean ====
section
/-!
DEFINITION. The group of the curve (R21, R181 to R183) and the serialisation of its points (R127).
-/

namespace Sys2Proof.Machine

/-- A point: `O`, the identity, or a pair of coordinates (R21). Being on the curve is `Point.onCurve`. -/
inductive Point where
  | infinity
  | affine (x y : Nat)
  deriving DecidableEq, Repr

/-- R21: a finite point has both coordinates in [0, p − 1] and y² ≡ x³ + 7 (mod p); O is a point. -/
def Point.onCurve : Point → Bool
  | .infinity => true
  | .affine x y => decide (x < fieldP) && decide (y < fieldP) && decide (y * y % fieldP = curveRhs x)

/-- The generator G (R5). -/
def genG : Point := .affine genX genY

/-- The line slope through (x1, y1) and (x2, y2), or the tangent when x1 = x2 (R181, R182). -/
def slope (x1 y1 x2 y2 : Nat) : Nat :=
  if x1 = x2 then 3 * x1 ^ 2 * invMod fieldP (2 * y1) % fieldP
  else subMod fieldP y2 y1 * invMod fieldP (subMod fieldP x2 x1) % fieldP

/-- The third point of a line of slope `l`, reflected (the last three lines of R181). -/
def chord (l x1 y1 x2 : Nat) : Point :=
  let x3 := subMod fieldP (l * l) (x1 + x2)
  .affine x3 (subMod fieldP (l * subMod fieldP x1 x3) y1)

/-- `P + Q` (R181). -/
def pointAdd : Point → Point → Point
  | .infinity, q => q
  | p, .infinity => p
  | .affine x1 y1, .affine x2 y2 =>
    if x1 = x2 ∧ (y1 + y2) % fieldP = 0 then .infinity
    else chord (slope x1 y1 x2 y2) x1 y1 x2

/-- `−P` (R21). -/
def pointNeg : Point → Point
  | .infinity => .infinity
  | .affine x y => .affine x ((fieldP - y) % fieldP)

/-- Double and add: `acc + k·P` for `k` < 2^fuel. -/
def pointMulAux : (fuel : Nat) → (k : Nat) → (p acc : Point) → Point
  | 0, _, _, acc => acc
  | fuel + 1, k, p, acc =>
    if k = 0 then acc
    else pointMulAux fuel (k / 2) (pointAdd p p) (if k % 2 = 1 then pointAdd acc p else acc)

/-- `k·P` (R183), by double and add. R183 defines it by 0·P = O and (k+1)·P = k·P + P and allows any algorithm
(U12); that this one meets the equation is DEDUCED from the group law (log entry 11). -/
def pointMul (k : Nat) (p : Point) : Point := pointMulAux (k.log2 + 1) k p .infinity

/-- `k·P` by the very equation of R183: P added to itself k times. The reference for `pointMul`. -/
def pointMulRepeated : (k : Nat) → Point → Point
  | 0, _ => .infinity
  | k + 1, p => pointAdd (pointMulRepeated k p) p

/-- `ser(P, c)` of the finite point (x, y) (R127). -/
def serXY (x y : Nat) (c : Bool) : Bytes :=
  if c then BitVec.ofNat 8 (2 + y % 2) :: beBytes 32 x
  else 0x04 :: (beBytes 32 x ++ beBytes 32 y)

/-- `ser(P, c)` (R127); the single byte 00 for O, the form R128 gives a point result. -/
def ser : Point → Bool → Bytes
  | .infinity, _ => [0x00]
  | .affine x y, c => serXY x y c

/-- Whether P = O (R128). -/
def Point.isInfinity : Point → Bool
  | .infinity => true
  | .affine _ _ => false

end Sys2Proof.Machine
end

