-- ==== Sys2Proof/Machine/Operands.lean ====
section
/-!
DEFINITION. The operands of a command: framing in IBUF (R113, R114), the scalar and point parsers (R125, R126), the
form of a point result (R128).
-/

namespace Sys2Proof.Machine

/-- CUR_LENk as a number; there is no operand 3. -/
def Latch.len (c : Latch) : Nat → Nat
  | 0 => c.len0.toNat
  | 1 => c.len1.toNat
  | 2 => c.len2.toNat
  | _ => 0

/-- Where operand `k` begins in IBUF: the sum of the lengths before it (R113). -/
def Latch.offset (c : Latch) : Nat → Nat
  | 0 => 0
  | k + 1 => c.offset k + c.len k

/-- `opnd(k)` (R113). -/
def State.opnd (s : State) (k : Nat) : Bytes := s.ibufBytes (s.cur.offset k) (s.cur.len k)

/-- R114: the first `m` operands fit IBUF. A command with no operands has no framing check, and 0 fits. -/
def State.framed (s : State) (m : Nat) : Bool := decide (s.cur.offset m ≤ s.params.ibufSize)

/-- The run of a command of stage `st` with `m` operands whose rule gives `r` on them: the framing check with stage
INTERFACE (R114), then the rule's own outcome and its completion (R120, R319). -/
def State.runCommand (s : State) (st : Stage) (m : Nat) (r : Except ErrCode Output) : State :=
  if s.framed m then s.complete st r else s.fail .invalidLength .interface

/-- `scalar32(b)` (R126). -/
def scalar32 (b : Bytes) : Except ErrCode Nat :=
  if b.length = 32 then .ok (intBE b) else .error .invalidLength

/-- The curve point with this x and the parity `odd` of y: the compressed branch of R125. -/
def liftX (x : Nat) (odd : Bool) : Except ErrCode Point :=
  if x ≥ fieldP then .error .pointNotOnCurve
  else
    let y := sqrtP (curveRhs x)
    if y * y % fieldP ≠ curveRhs x then .error .pointNotOnCurve
    else .ok (.affine x (if (y % 2 == 1) = odd then y else fieldP - y))

/-- The point with these coordinates: the uncompressed branch of R125. -/
def checkXY (x y : Nat) : Except ErrCode Point :=
  if x ≥ fieldP ∨ y ≥ fieldP then .error .pointNotOnCurve
  else if y * y % fieldP ≠ curveRhs x then .error .pointNotOnCurve
  else .ok (.affine x y)

/-- `parse_point(b, allow_inf)` (R125). -/
def parsePoint (b : Bytes) (allowInf : Bool) : Except ErrCode Point :=
  if b.length = 0 then .error .invalidLength
  else
    let t := byteAt b 0
    if t = 0x00 ∧ allowInf then
      if b.length ≠ 1 then .error .invalidLength else .ok .infinity
    else if t = 0x02 ∨ t = 0x03 then
      if b.length ≠ 33 then .error .invalidLength else liftX (intBE (slice b 1 33)) (t.getLsbD 0)
    else if t = 0x04 then
      if b.length ≠ 65 then .error .invalidLength else checkXY (intBE (slice b 1 33)) (intBE (slice b 33 65))
    else .error .malformedEncoding

/-- `out_point(0, P, c)` (R128): O is the byte 00 with RESULT.INF = 1. -/
def outPoint (p : Point) (c : Bool) : Output :=
  ⟨[(0, ser p c)], { ResultReg.zero with inf := p.isInfinity }⟩

end Sys2Proof.Machine
end

