-- ==== Sys2Proof/Machine/Framework.lean ====
section
/-!
DEFINITION. NOP, and the answer every command meaning gives: a completion, which is a next state (R120).
-/

namespace Sys2Proof.Machine

/-- What a meaning answers. -/
abbrev Answer := Host.Outcome State Fault Refusal

/-- A command runs to its completion: the framing of `m` operands, the rule's outcome `r`, the completion at stage `st`
(R120, R131). -/
def ran (s : State) (st : Stage) (m : Nat) (r : Except ErrCode Output) : Answer := .next (s.runCommand st m r)

/-- The outcome of a rule that emits `b` to slot 0 and writes no RESULT field. -/
def emit0 (b : Bytes) : Except ErrCode Output := .ok (Output.single b)

/-- NOP (R123): no operand, no slot, success. -/
def execNop (s : State) : Answer := ran s .interface 0 (.ok Output.none)

end Sys2Proof.Machine
end

