-- ==== Sys2Proof/Machine/Sha256.lean ====
section
/-!
DEFINITION. SHA-256. R22 names the function and takes it "as in FIPS 180-4"; its rounds, and what
its constants are roots of, are that standard's, from outside the spec: PRESUMED (log entry 10). Double SHA-256 and the 4-byte checksum rest on it.
-/

namespace Sys2Proof.Machine

/-- The greatest `x` below `r + 2^bits` with `x^k ≤ v`, found one bit at a time from the highest; `r` holds the bits
already found. -/
def rootFrom (k v : Nat) : (bits : Nat) → (r : Nat) → Nat
  | 0, r => r
  | bits + 1, r => rootFrom k v bits (if (r + 2 ^ bits) ^ k ≤ v then r + 2 ^ bits else r)

/-- The first 32 bits of the fractional part of the `k`-th root of `p`, for a root below 8: the low 32 bits of the whole
part of 2^32 times the root. -/
def rootFraction (k p : Nat) : Word := BitVec.ofNat 32 (rootFrom k (p * 2 ^ (32 * k)) 35 0)

/-- No number from 2 to 17 other than `n` divides `n`: for 2 ≤ `n` < 19², `n` is prime. -/
def noSmallDivisor (n : Nat) : Bool := (List.range' 2 16).all fun d => d == n || n % d != 0

/-- The first 64 prime numbers: those up to 311, in order. -/
def sha256Primes : List Nat := (List.range' 2 310).filter noSmallDivisor

/-- The 64 round constants: the fractions of the cube roots of the first 64 primes. PRESUMED (FIPS 180-4 §4.2.2). -/
def sha256K : List Word := sha256Primes.map (rootFraction 3)

/-- The eight working words of SHA-256. -/
structure Sha256Regs where
  a : Word
  b : Word
  c : Word
  d : Word
  e : Word
  f : Word
  g : Word
  h : Word
  deriving DecidableEq, Repr

/-- The initial hash value: the fractions of the square roots of the first 8 primes. PRESUMED (FIPS 180-4 §5.3.3). -/
def sha256Init : Sha256Regs :=
  let f := rootFraction 2
  ⟨f 2, f 3, f 5, f 7, f 11, f 13, f 17, f 19⟩

/-- Padding: the bit 1, zeros to 56 mod 64 bytes, the bit length in 8 big-endian bytes. -/
def sha256Pad (m : Bytes) : Bytes :=
  m ++ 0x80 :: List.replicate ((119 - m.length % 64) % 64) 0 ++ beBytes 8 (8 * m.length)

/-- Three rotations of a word, combined. -/
def threeRotations (i j k : Nat) (x : Word) : Word := x.rotateRight i ^^^ x.rotateRight j ^^^ x.rotateRight k

/-- Two rotations and a shift of a word, combined. -/
def rotationsAndShift (i j k : Nat) (x : Word) : Word := x.rotateRight i ^^^ x.rotateRight j ^^^ x >>> k

/-- The word that the message schedule adds after the sixteen words `w`. -/
def sha256Next (w : List Word) : Word :=
  w.getD 0 0 + rotationsAndShift 7 18 3 (w.getD 1 0) + w.getD 9 0 + rotationsAndShift 17 19 10 (w.getD 14 0)

/-- Each bit of `x` chooses that bit of `y` or of `z`. -/
def chooseBits (x y z : Word) : Word := (x &&& y) ||| (~~~x &&& z)

/-- Each bit is the one that two or more of the three words have. -/
def majorityBits (x y z : Word) : Word := (x &&& (y ||| z)) ||| (y &&& z)

/-- One round, with the round constant `k` and the schedule word `w`. -/
def sha256Round (r : Sha256Regs) (k w : Word) : Sha256Regs :=
  let mixed := k + w + r.h + chooseBits r.e r.f r.g + threeRotations 6 11 25 r.e
  { a := mixed + majorityBits r.a r.b r.c + threeRotations 2 13 22 r.a
    b := r.a, c := r.b, d := r.c, e := mixed + r.d, f := r.e, g := r.f, h := r.g }

/-- The rounds over the constants `ks`; `w` is the window of sixteen schedule words. -/
def sha256Rounds : (ks : List Word) → (w : List Word) → Sha256Regs → Sha256Regs
  | [], _, r => r
  | k :: ks, w, r => sha256Rounds ks (w.tail ++ [sha256Next w]) (sha256Round r k (w.getD 0 0))

/-- The 32-bit big-endian words of a block. -/
def wordsBE (b : Bytes) : List Word := (chunksOf 4 b.length b).map fun c => BitVec.ofNat 32 (intBE c)

/-- The eight words in order. -/
def Sha256Regs.words (r : Sha256Regs) : List Word := [r.a, r.b, r.c, r.d, r.e, r.f, r.g, r.h]

/-- The word-by-word sum. -/
def Sha256Regs.add (r t : Sha256Regs) : Sha256Regs where
  a := r.a + t.a
  b := r.b + t.b
  c := r.c + t.c
  d := r.d + t.d
  e := r.e + t.e
  f := r.f + t.f
  g := r.g + t.g
  h := r.h + t.h

/-- The compression of one 64-byte block into the hash value `h`. -/
def sha256Block (h : Sha256Regs) (b : Bytes) : Sha256Regs := h.add (sha256Rounds sha256K (wordsBE b) h)

/-- The digest of a hash value: its words, big-endian. -/
def sha256Digest (h : Sha256Regs) : Bytes := h.words.flatMap fun w => beBytes 4 w.toNat

/-- `SHA256(b)`, 32 bytes (R22). -/
def sha256 (m : Bytes) : Bytes :=
  let p := sha256Pad m
  sha256Digest ((chunksOf 64 p.length p).foldl sha256Block sha256Init)

/-- `dSHA256(b) = SHA256(SHA256(b))` (R22). -/
def dsha256 (m : Bytes) : Bytes := sha256 (sha256 m)

/-- `checksum4(body) = dSHA256(body)[0..4)` (R143). -/
def checksum4 (body : Bytes) : Bytes := slice (dsha256 body) 0 4

end Sys2Proof.Machine
end

