-- ==== Sys2Proof/Machine/Base58.lean ====
section
/-!
DEFINITION. The Base58Check codec (R140 to R148). Every command here reports stage CODEC (R122).
-/

namespace Sys2Proof.Machine

/-- The Base58 alphabet (R140). -/
def b58Alphabet : Bytes := text "123456789ABCDEFGHJKLMNPQRSTUVWXYZabcdefghijkmnopqrstuvwxyz"

/-- The character `1`, the digit 0 (R140). -/
def b58One : Byte := 0x31

/-- The character of a digit (R140). -/
def b58Char (d : Nat) : Byte := byteAt b58Alphabet d

/-- The value of a character, `none` outside the alphabet (R140). -/
def b58Value (c : Byte) : Option Nat := b58Alphabet.findIdx? (· == c)

/-- The values of a text's characters, `none` if one is outside the alphabet (the first line of R142). -/
def b58Values : Bytes → Option (List Nat)
  | [] => some []
  | c :: t =>
    match b58Value c, b58Values t with
    | some d, some ds => some (d :: ds)
    | _, _ => none

/-- How many times `c` stands at the front of `b`. -/
def countLeading (c : Byte) (b : Bytes) : Nat := (b.takeWhile (· == c)).length

/-- `b58enc(b)` (R141). A byte string of `len` bytes has at most 2·len digits in base 58. -/
def b58enc (b : Bytes) : Bytes :=
  List.replicate (countLeading 0x00 b) b58One ++ (toDigits 58 (2 * b.length) (intBE b) []).map b58Char

/-- `b58dec(t)` (R142). A text of `len` characters decodes to at most `len` bytes. -/
def b58dec (t : Bytes) : Except ErrCode Bytes :=
  match b58Values t with
  | none => .error .malformedEncoding
  | some ds => .ok (List.replicate (countLeading b58One t) 0x00 ++ minBytes t.length (ofDigits 58 ds))

/-- Base58 text of `body ‖ checksum4(body)`: the checksummed form of R147, R210 and R260. -/
def b58checkText (body : Bytes) : Bytes := b58enc (body ++ checksum4 body)

/-- `raw[0 .. len − 4)`: what a checksummed string holds before its checksum (R148, R215). -/
def bodyOf (raw : Bytes) : Bytes := slice raw 0 (raw.length - 4)

/-- The last 4 bytes of `raw` are the checksum of the rest (R148, R215). -/
def checksumHolds (raw : Bytes) : Bool := checksum4 (bodyOf raw) == slice raw (raw.length - 4) raw.length

/-- The rule of B58_DECODE (R145). -/
def b58DecodeRule (t : Bytes) : Except ErrCode Output :=
  match b58dec t with
  | .error e => .error e
  | .ok b => emit0 b

/-- RESULT.PREFIX after B58CHECK_DECODE: the first body byte, if any (R148, R54). -/
def prefixOf (body : Bytes) : ResultReg :=
  match body with
  | [] => ResultReg.zero
  | b :: _ => { ResultReg.zero with prefixByte := b }

/-- The rule of B58CHECK_DECODE (R148). -/
def b58checkDecodeRule (t : Bytes) : Except ErrCode Output :=
  match b58dec t with
  | .error e => .error e
  | .ok raw =>
    if raw.length < 4 then .error .invalidLength
    else if ¬ checksumHolds raw then .error .checksumMismatch
    else .ok ⟨[(0, bodyOf raw)], prefixOf (bodyOf raw)⟩

/-- B58_ENCODE (R144). -/
def execB58Encode (s : State) : Answer := ran s .codec 1 (emit0 (b58enc (s.opnd 0)))

/-- B58_DECODE (R145). -/
def execB58Decode (s : State) : Answer := ran s .codec 1 (b58DecodeRule (s.opnd 0))

/-- B58_CHECKSUM (R146). -/
def execB58Checksum (s : State) : Answer := ran s .codec 1 (emit0 (checksum4 (s.opnd 0)))

/-- B58CHECK_ENCODE (R147). -/
def execB58checkEncode (s : State) : Answer := ran s .codec 1 (emit0 (b58checkText (s.opnd 0)))

/-- B58CHECK_DECODE (R148). -/
def execB58checkDecode (s : State) : Answer := ran s .codec 1 (b58checkDecodeRule (s.opnd 0))

end Sys2Proof.Machine
end

