-- ==== Sys2Proof/Machine/Bech32.lean ====
section
/-!
DEFINITION. The Bech32 codec (R160 to R168). Every command here reports stage CODEC (R122).
-/

namespace Sys2Proof.Machine

/-- The data alphabet (R160). -/
def bech32Alphabet : Bytes := text "qpzry9x8gf2tvdw0s3jn54khce6mua7l"

/-- The character of a 5-bit value (R160). -/
def bech32Char (v : Nat) : Byte := byteAt bech32Alphabet v

/-- The value of a character, `none` outside the alphabet (R160). -/
def bech32Value (c : Byte) : Option Nat := bech32Alphabet.findIdx? (· == c)

/-- The values of a list of characters, `none` if one is outside the alphabet. -/
def bech32Values : Bytes → Option (List Nat)
  | [] => some []
  | c :: t =>
    match bech32Value c, bech32Values t with
    | some v, some vs => some (v :: vs)
    | _, _ => none

/-- The separator `1` (R160). -/
def bech32Sep : Byte := 0x31

/-- GEN of R161, each with the number of the bit of b that selects it. -/
def bech32Gen : List (Nat × BitVec 30) :=
  [(0, 0x3B6A57B2), (1, 0x26508E6D), (2, 0x1EA119FA), (3, 0x3D4233DD), (4, 0x2A1462B3)]

/-- One step of `polymod` (R161) on its 30-bit state. -/
def polymodStep (c : BitVec 30) (v : Nat) : BitVec 30 :=
  let b := c >>> 25
  bech32Gen.foldl (fun c g => if b.getLsbD g.1 then c ^^^ g.2 else c)
    (((c &&& 0x1FFFFFF) <<< 5) ^^^ BitVec.ofNat 30 v)

/-- `polymod(values)` (R161). -/
def polymod (values : List Nat) : BitVec 30 := values.foldl polymodStep 1

/-- `hrp_expand(h)` (R162). -/
def hrpExpand (h : Bytes) : List Nat := h.map (·.toNat >>> 5) ++ [0] ++ h.map (·.toNat &&& 31)

/-- The accumulator of `convertbits` (R163). -/
structure Regroup where
  acc : Nat
  bits : Nat
  out : List Nat
  deriving DecidableEq, Repr

/-- The inner loop of R163: emit groups of `dst` bits while that many are held. `fuel` bounds the groups. -/
def regroupDrain (dst : Nat) : (fuel : Nat) → Regroup → Regroup
  | 0, r => r
  | fuel + 1, r =>
    if dst ≤ r.bits then
      regroupDrain dst fuel ⟨r.acc, r.bits - dst, r.out ++ [(r.acc >>> (r.bits - dst)) &&& (2 ^ dst - 1)]⟩
    else r

/-- One pass of the outer loop of R163. -/
def regroupStep (src dst : Nat) (r : Regroup) (v : Nat) : Regroup :=
  regroupDrain dst (r.bits + src) ⟨(r.acc <<< src) ||| v, r.bits + src, r.out⟩

/-- `convertbits(data, from, to, pad)` (R163); `none` is its FAIL. -/
def convertBits (data : List Nat) (src dst : Nat) (pad : Bool) : Option (List Nat) :=
  let r := data.foldl (regroupStep src dst) ⟨0, 0, []⟩
  let rest := (r.acc <<< (dst - r.bits)) &&& (2 ^ dst - 1)
  if pad then some (if 0 < r.bits then r.out ++ [rest] else r.out)
  else if src ≤ r.bits ∨ rest ≠ 0 then none
  else some r.out

/-- The six checksum values of R164. -/
def bech32Checksum (h : Bytes) (d : List Nat) : List Nat :=
  let pm := polymod (hrpExpand h ++ d ++ [0, 0, 0, 0, 0, 0]) ^^^ 1
  [5, 4, 3, 2, 1, 0].map fun i => (pm >>> (5 * i)).toNat &&& 31

/-- The data of an address before its checksum: the witness version 0, then the program in 5-bit values (R164). -/
def bech32Data (prog : Bytes) : List Nat := 0 :: (convertBits (prog.map BitVec.toNat) 8 5 true).getD []

/-- `bech32_encode(h, prog)` (R164). -/
def bech32EncodeText (h prog : Bytes) : Bytes :=
  let d := bech32Data prog
  h ++ [bech32Sep] ++ (d ++ bech32Checksum h d).map bech32Char

/-- `HRP(CH)` (R165). -/
def hrpOf : Chain → Bytes
  | .btc => text "bc"
  | .ltc => text "ltc"

/-- An ASCII lower-case letter. -/
def isLower (c : Byte) : Bool := decide (0x61 ≤ c.toNat ∧ c.toNat ≤ 0x7A)

/-- An ASCII upper-case letter. -/
def isUpper (c : Byte) : Bool := decide (0x41 ≤ c.toNat ∧ c.toNat ≤ 0x5A)

/-- The lower case of a character. -/
def toLowerByte (c : Byte) : Byte := if isUpper c then c + 0x20 else c

/-- The index of the last separator, `none` if there is none (the −1 of R167). -/
def lastSep : Bytes → Option Nat
  | [] => none
  | c :: t =>
    match lastSep t with
    | some i => some (i + 1)
    | none => if c = bech32Sep then some 0 else none

/-- The checks of R167 on the data values `d`, after the human-readable part `hrp` has been found equal to the
expected one. -/
def bech32Program (hrp : Bytes) (d : List Nat) : Except ErrCode Bytes :=
  if polymod (hrpExpand hrp ++ d) ≠ 1 then .error .checksumMismatch
  else if d.length < 7 then .error .invalidWitnessProgram
  else if d.head? ≠ some 0 then .error .invalidWitnessProgram
  else
    match convertBits ((d.drop 1).take (d.length - 7)) 5 8 false with
    | none => .error .invalidWitnessProgram
    | some prog =>
      if prog.length ≠ 20 then .error .invalidWitnessProgram else .ok (prog.map (BitVec.ofNat 8))

/-- `bech32_decode(h, s)` from its fifth line on, `s` already in lower case (R167). -/
def bech32Parse (h s : Bytes) : Except ErrCode Bytes :=
  match lastSep s with
  | none => .error .malformedEncoding
  | some pos =>
    if pos < 1 ∨ pos + 7 > s.length then .error .malformedEncoding
    else
      match bech32Values (s.drop (pos + 1)) with
      | none => .error .malformedEncoding
      | some d => if s.take pos ≠ h then .error .unsupportedPrefix else bech32Program (s.take pos) d

/-- `bech32_decode(h, s)` (R167). -/
def bech32DecodeText (h s : Bytes) : Except ErrCode Bytes :=
  if s.length < 8 ∨ s.length > 90 then .error .malformedEncoding
  else if s.any (fun c => decide (c.toNat < 0x21 ∨ c.toNat > 0x7E)) then .error .malformedEncoding
  else if s.any isLower && s.any isUpper then .error .malformedEncoding
  else bech32Parse h (s.map toLowerByte)

/-- The rule of BECH32_ENCODE for a chain (R166). -/
def bech32EncodeRule (c : Chain) (prog : Bytes) : Except ErrCode Output :=
  if prog.length ≠ 20 then .error .invalidWitnessProgram else emit0 (bech32EncodeText (hrpOf c) prog)

/-- The rule of BECH32_DECODE for a chain (R168). -/
def bech32DecodeRule (c : Chain) (s : Bytes) : Except ErrCode Output :=
  match bech32DecodeText (hrpOf c) s with
  | .error e => .error e
  | .ok prog => emit0 prog

/-- BECH32_ENCODE (R166). A CH that selects no chain is an illegal word (R99, R102). -/
def execBech32Encode (ch : ChSel) (s : State) : Answer :=
  match ch.chain? with
  | none => .next s.illegal
  | some c => ran s .codec 1 (bech32EncodeRule c (s.opnd 0))

/-- BECH32_DECODE (R168). A CH that selects no chain is an illegal word (R99, R102). -/
def execBech32Decode (ch : ChSel) (s : State) : Answer :=
  match ch.chain? with
  | none => .next s.illegal
  | some c => ran s .codec 1 (bech32DecodeRule c (s.opnd 0))

end Sys2Proof.Machine
end

