-- ==== Sys2Proof/Machine/Keccak.lean ====
section
/-!
DEFINITION. Keccak256. R22 takes "the original Keccak submission with capacity 512 and padding byte 0x01"; the
permutation and the rules its constants follow are that submission's, from outside the spec: PRESUMED (log entry 10).
-/

namespace Sys2Proof.Machine

/-- One lane of the Keccak state. -/
abbrev Lane := BitVec 64

/-- The shift register behind the round constants after `t` shifts: x^t in the binary field of the polynomial
x^8 + x^6 + x^5 + x^4 + 1. -/
def keccakShift : (t : Nat) → BitVec 8
  | 0 => 1
  | t + 1 => let r := keccakShift t; (r <<< 1) ^^^ (if r.getLsbD 7 then 0x71 else 0)

/-- The constant of round `n` of Keccak-f[1600]: bit 2^j − 1 is the output of the shift register after j + 7·n shifts, for
j from 0 to 6; every other bit is 0. PRESUMED. -/
def keccakConstant (n : Nat) : Lane :=
  (List.range 7).foldl (fun c j => if (keccakShift (j + 7 * n)).getLsbD 0 then c ||| (1 <<< (2 ^ j - 1)) else c) 0

/-- The round constants of the 24 rounds. -/
def keccakRC : List Lane := (List.range 24).map keccakConstant

/-- How many steps of the walk (a, b), (b, 2·a + 3·b), … mod 5 reach (x, y), `t` being done; `none` for (0, 0), which a
walk from (1, 0) never reaches. `fuel` bounds the steps. -/
def keccakWalk (x y : Nat) : (fuel t a b : Nat) → Option Nat
  | 0, _, _, _ => none
  | fuel + 1, t, a, b => if a = x ∧ b = y then some t else keccakWalk x y fuel (t + 1) b ((2 * a + 3 * b) % 5)

/-- The rotation of lane (x, y): (t + 1)·(t + 2)/2 mod 64 for the lane `t` steps from (1, 0), and 0 for lane (0, 0).
PRESUMED. -/
def keccakRotation (x y : Nat) : Nat :=
  match keccakWalk x y 24 0 1 0 with
  | none => 0
  | some t => (t + 1) * (t + 2) / 2 % 64

/-- The rotations, lane (x, y) listed at x + 5·y. -/
def keccakRot : List Nat := (List.range 25).map fun i => keccakRotation (i % 5) (i / 5)

/-- Lane (x, y) of a state, listed at x + 5·y; the coordinates are taken mod 5. -/
def laneAt (a : List Lane) (x y : Nat) : Lane := a.getD (x % 5 + 5 * (y % 5)) 0

/-- A state from its lanes. -/
def lanes (f : (x y : Nat) → Lane) : List Lane := (List.range 25).map fun i => f (i % 5) (i / 5)

/-- The parity of each of the five columns. -/
def keccakColumns (a : List Lane) : List Lane :=
  (List.range 5).map fun x => laneAt a x 0 ^^^ laneAt a x 1 ^^^ laneAt a x 2 ^^^ laneAt a x 3 ^^^ laneAt a x 4

/-- The step θ. -/
def keccakTheta (a : List Lane) : List Lane :=
  let c := keccakColumns a
  let d := (List.range 5).map fun x => c.getD ((x + 4) % 5) 0 ^^^ (c.getD ((x + 1) % 5) 0).rotateLeft 1
  lanes fun x y => laneAt a x y ^^^ d.getD x 0

/-- The steps ρ and π: lane (x, y) comes, rotated, from lane (x + 3·y, x). -/
def keccakRhoPi (a : List Lane) : List Lane :=
  lanes fun x y => (laneAt a (x + 3 * y) x).rotateLeft (keccakRot.getD ((x + 3 * y) % 5 + 5 * x) 0)

/-- The step χ. -/
def keccakChi (a : List Lane) : List Lane :=
  lanes fun x y => laneAt a x y ^^^ (~~~laneAt a (x + 1) y &&& laneAt a (x + 2) y)

/-- The step ι, with the round constant `rc`. -/
def keccakIota (rc : Lane) (a : List Lane) : List Lane :=
  match a with
  | [] => []
  | l :: ls => (l ^^^ rc) :: ls

/-- One round of Keccak-f[1600]. -/
def keccakRound (a : List Lane) (rc : Lane) : List Lane :=
  keccakIota rc (keccakChi (keccakRhoPi (keccakTheta a)))

/-- Keccak-f[1600]. -/
def keccakF (a : List Lane) : List Lane := keccakRC.foldl keccakRound a

/-- Padding to the rate of 136 bytes: 0x01, zeros, and 0x80 in the last byte. -/
def keccakPad (m : Bytes) : Bytes :=
  let z := 135 - m.length % 136
  m ++ (if z = 0 then [0x81] else 0x01 :: List.replicate (z - 1) 0 ++ [0x80])

/-- Absorb one block of 136 bytes. -/
def keccakAbsorb (a : List Lane) (b : Bytes) : List Lane :=
  let w := (chunksOf 8 b.length b).map fun c => BitVec.ofNat 64 (intBE c.reverse)
  keccakF (lanes fun x y => laneAt a x y ^^^ w.getD (x + 5 * y) 0)

/-- `Keccak256(b)`, 32 bytes (R22). -/
def keccak256 (m : Bytes) : Bytes :=
  let p := keccakPad m
  let a := (chunksOf 136 p.length p).foldl keccakAbsorb (List.replicate 25 0)
  (a.take 4).flatMap fun l => leBytes 8 l.toNat

end Sys2Proof.Machine
end

