-- ==== Sys2Proof/Machine/Ripemd160.lean ====
section
/-!
DEFINITION. RIPEMD-160 and HASH160. R22 takes RIPEMD-160 "as in its 1996 definition"; its rounds, and the
permutations, roots and rotations its tables come from, are that definition's, from outside the spec: PRESUMED (log entry 10).
-/

namespace Sys2Proof.Machine

/-- The permutation ρ that takes the word order of one round to that of the next. PRESUMED. -/
def ripemdRho (i : Nat) : Nat := [7, 4, 13, 1, 10, 6, 15, 3, 12, 0, 9, 5, 2, 14, 11, 8].getD i 0

/-- The permutation π(i) = 9·i + 5 mod 16 that the right line starts with. PRESUMED. -/
def ripemdPi (i : Nat) : Nat := (9 * i + 5) % 16

/-- The orders of the message words in a number of rounds, from the order `ws` on: each order is ρ of the
one before it. -/
def ripemdOrders : (rounds : Nat) → (ws : List Nat) → List (List Nat)
  | 0, _ => []
  | rounds + 1, ws => ws :: ripemdOrders rounds (ws.map ripemdRho)

/-- The rotation of each message word, one row of sixteen words for each round; both lines use it. PRESUMED. -/
def ripemdRotations : List (List Nat) := [
  [11, 14, 15, 12, 5, 8, 7, 9, 11, 13, 14, 15, 6, 7, 9, 8],
  [12, 13, 11, 15, 6, 9, 9, 7, 12, 15, 11, 13, 7, 8, 7, 7],
  [13, 15, 14, 11, 7, 7, 6, 8, 13, 14, 13, 12, 5, 5, 6, 9],
  [14, 11, 12, 14, 8, 6, 5, 5, 15, 12, 15, 14, 9, 9, 8, 6],
  [15, 12, 13, 13, 9, 5, 8, 6, 14, 11, 12, 11, 8, 6, 5, 5]]

/-- The steps of a line whose first round takes the words in the order `ws`: each a word and its rotation. -/
def ripemdSteps (ws : List Nat) : List (Nat × Nat) :=
  (List.zipWith (fun order rots => order.map fun i => (i, rots.getD i 0)) (ripemdOrders 5 ws) ripemdRotations).flatten

/-- The 80 steps of the left line, which starts with the words in their own order. -/
def ripemdStepsLeft : List (Nat × Nat) := ripemdSteps (List.range 16)

/-- The 80 steps of the right line, which starts with π. -/
def ripemdStepsRight : List (Nat × Nat) := ripemdSteps ((List.range 16).map ripemdPi)

/-- The whole part of 2^30 times the `k`-th root of `p`. -/
def ripemdRoot (k p : Nat) : Word := BitVec.ofNat 32 (rootFrom k (p * 2 ^ (30 * k)) 32 0)

/-- Added constants, one for each round of the left line: 0 and the square roots. PRESUMED. -/
def ripemdAddLeft : List Word := 0 :: [2, 3, 5, 7].map (ripemdRoot 2)

/-- Added constants, one for each round of the right line: the cube roots and 0. PRESUMED. -/
def ripemdAddRight : List Word := [2, 3, 5, 7].map (ripemdRoot 3) ++ [0]

/-- The five nonlinear functions, in the order the left line uses them; the right line uses them in reverse. -/
def ripemdF (round : Nat) (x y z : Word) : Word :=
  match round with
  | 0 => x ^^^ y ^^^ z
  | 1 => (x &&& y) ||| (~~~x &&& z)
  | 2 => (x ||| ~~~y) ^^^ z
  | 3 => (x &&& z) ||| (y &&& ~~~z)
  | _ => x ^^^ (y ||| ~~~z)

/-- The five chaining words. -/
structure RipemdRegs where
  a : Word
  b : Word
  c : Word
  d : Word
  e : Word
  deriving DecidableEq, Repr

/-- The initial value. PRESUMED. -/
def ripemdInit : RipemdRegs := ⟨0x67452301, 0xefcdab89, 0x98badcfe, 0x10325476, 0xc3d2e1f0⟩

/-- One step of a line: `f` is its function, `k` its constant, `w` its message word, `rot` its rotation. -/
def ripemdStep (r : RipemdRegs) (f : Word → Word → Word → Word) (k w : Word) (rot : Nat) : RipemdRegs :=
  ⟨r.e, (r.a + f r.b r.c r.d + w + k).rotateLeft rot + r.e, r.b, r.c.rotateLeft 10, r.d⟩

/-- A line over its steps: `steps` pairs a message word number with a rotation, `j` numbers the step. -/
def ripemdLine (fs : Nat → Word → Word → Word → Word) (ks w : List Word) :
    (steps : List (Nat × Nat)) → (j : Nat) → RipemdRegs → RipemdRegs
  | [], _, r => r
  | (i, rot) :: steps, j, r =>
    ripemdLine fs ks w steps (j + 1) (ripemdStep r (fs (j / 16)) (ks.getD (j / 16) 0) (w.getD i 0) rot)

/-- The 32-bit little-endian words of a block. -/
def wordsLE (b : Bytes) : List Word :=
  (chunksOf 4 b.length b).map fun c => BitVec.ofNat 32 (intBE c.reverse)

/-- The compression of one 64-byte block. -/
def ripemdBlock (h : RipemdRegs) (b : Bytes) : RipemdRegs :=
  let w := wordsLE b
  let l := ripemdLine ripemdF ripemdAddLeft w ripemdStepsLeft 0 h
  let r := ripemdLine (fun n => ripemdF (4 - n)) ripemdAddRight w ripemdStepsRight 0 h
  ⟨h.b + l.c + r.d, h.c + l.d + r.e, h.d + l.e + r.a, h.e + l.a + r.b, h.a + l.b + r.c⟩

/-- Padding: the bit 1, zeros to 56 mod 64 bytes, the bit length in 8 little-endian bytes. -/
def ripemdPad (m : Bytes) : Bytes :=
  m ++ 0x80 :: List.replicate ((119 - m.length % 64) % 64) 0 ++ leBytes 8 (8 * m.length)

/-- The digest of a chaining value: its words, little-endian. -/
def ripemdDigest (h : RipemdRegs) : Bytes :=
  [h.a, h.b, h.c, h.d, h.e].flatMap fun w => leBytes 4 w.toNat

/-- `RIPEMD160(b)`, 20 bytes (R22). -/
def ripemd160 (m : Bytes) : Bytes :=
  let p := ripemdPad m
  ripemdDigest ((chunksOf 64 p.length p).foldl ripemdBlock ripemdInit)

/-- `HASH160(b) = RIPEMD160(SHA256(b))` (R22). -/
def hash160 (m : Bytes) : Bytes := ripemd160 (sha256 m)

end Sys2Proof.Machine
end

