-- ==== Sys2Proof/Machine/Address.lean ====
section
/-!
DEFINITION. The hash commands, the message digest and the address encoder (R250 to R266). Every command here reports
stage ENCODING (R122).
-/

namespace Sys2Proof.Machine

/-! ### Hash commands -/

/-- SHA256 (R250). -/
def execSha256 (s : State) : Answer := ran s .encoding 1 (emit0 (sha256 (s.opnd 0)))

/-- SHA256D (R251). -/
def execSha256d (s : State) : Answer := ran s .encoding 1 (emit0 (dsha256 (s.opnd 0)))

/-- RIPEMD160 (R252). -/
def execRipemd160 (s : State) : Answer := ran s .encoding 1 (emit0 (ripemd160 (s.opnd 0)))

/-- HASH160 (R253). -/
def execHash160 (s : State) : Answer := ran s .encoding 1 (emit0 (hash160 (s.opnd 0)))

/-- KECCAK256 (R254). -/
def execKeccak256 (s : State) : Answer := ran s .encoding 1 (emit0 (keccak256 (s.opnd 0)))

/-! ### Message digest -/

/-- Line feed, the "\n" of R255 and the LF of R257. -/
def byteLF : Byte := 0x0A

/-- Carriage return, the CR of R257. -/
def byteCR : Byte := 0x0D

/-- The signing magic of a chain (R255). -/
def magicOf : Chain → Bytes
  | .btc => text "Bitcoin Signed Message:" ++ [byteLF]
  | .ltc => text "Litecoin Signed Message:" ++ [byteLF]

/-- `varint(L)` (R256). Its three forms end at 0xFFFF_FFFF; no length here exceeds 8192. -/
def varint (l : Nat) : Bytes :=
  if l < 0xFD then [BitVec.ofNat 8 l]
  else if l ≤ 0xFFFF then 0xFD :: leBytes 2 l
  else 0xFE :: leBytes 4 l

/-- The first replacement of R257: every CR LF becomes LF. -/
def crlfToLf : Bytes → Bytes
  | [] => []
  | [x] => [x]
  | x :: y :: l => if x = byteCR ∧ y = byteLF then byteLF :: crlfToLf l else x :: crlfToLf (y :: l)

/-- The second replacement of R257: every LF becomes CR LF. -/
def lfToCrlf (m : Bytes) : Bytes := m.flatMap fun x => if x = byteLF then [byteCR, byteLF] else [x]

/-- `normalise(m)` (R257). -/
def normalise (m : Bytes) : Bytes := lfToCrlf (crlfToLf m)

/-- A text with its length before it, as R258 joins the magic and the message. -/
def withVarint (m : Bytes) : Bytes := varint m.length ++ m

/-- `msg_digest(m, ch, N)` (R258). -/
def msgDigest (m : Bytes) (ch : Chain) (n : Bool) : Bytes :=
  dsha256 (withVarint (magicOf ch) ++ withVarint (if n then normalise m else m))

/-- MSG_DIGEST (R258). A CH that selects no chain is an illegal word (R99, R102). -/
def execMsgDigest (ch : ChSel) (n : Bool) (s : State) : Answer :=
  match ch.chain? with
  | none => .next s.illegal
  | some c => ran s .encoding 1 (emit0 (msgDigest (s.opnd 0) c n))

/-! ### Addresses -/

/-- The P2PKH version byte of a chain (R259). -/
def p2pkhVersion : Chain → Byte
  | .btc => 0x00
  | .ltc => 0x30

/-- `p2pkh(ch, P, c)` (R260). -/
def p2pkhText (ch : Chain) (p : Point) (c : Bool) : Bytes :=
  b58checkText (p2pkhVersion ch :: hash160 (ser p c))

/-- `p2wpkh(ch, P)` (R262): always the compressed serialisation. -/
def p2wpkhText (ch : Chain) (p : Point) : Bytes := bech32EncodeText (hrpOf ch) (hash160 (ser p true))

/-- The nibbles of a byte string, the high nibble of each byte first (R264). -/
def nibbles (b : Bytes) : List Nat := b.flatMap fun x => [x.toNat / 16, x.toNat % 16]

/-- The lower-case hexadecimal digit of a nibble. -/
def hexLower (n : Nat) : Byte := byteAt (text "0123456789abcdef") n

/-- A digit of R264's text: a..f in upper case when the matching nibble of the hash is at least 8. -/
def checksumDigit (t : Byte) (h : Nat) : Byte := if isLower t ∧ 8 ≤ h then t - 0x20 else t

/-- The last 20 bytes of the Keccak256 of the uncompressed key less its 0x04 (the first line of R264). -/
def ethHash (p : Point) : Bytes := slice (keccak256 (slice (ser p false) 1 65)) 12 32

/-- `eth(P)` (R264). -/
def ethText (p : Point) : Bytes :=
  let t := (nibbles (ethHash p)).map hexLower
  text "0x" ++ List.zipWith checksumDigit t (nibbles (keccak256 t))

/-- The rule of P2PKH_ADDR for a chain (R261). -/
def p2pkhRule (ch : Chain) (c : Bool) (b : Bytes) : Except ErrCode Output :=
  match parsePoint b false with
  | .error e => .error e
  | .ok p => emit0 (p2pkhText ch p c)

/-- The rule of P2WPKH_ADDR for a chain (R263). -/
def p2wpkhRule (ch : Chain) (b : Bytes) : Except ErrCode Output :=
  match parsePoint b false with
  | .error e => .error e
  | .ok p => emit0 (p2wpkhText ch p)

/-- The rule of ETH_ADDR (R265). -/
def ethRule (b : Bytes) : Except ErrCode Output :=
  match parsePoint b false with
  | .error e => .error e
  | .ok p => emit0 (ethText p)

/-- The seven slots of ADDRESS_SET (R266). -/
def addressSlots (p : Point) : List (Fin 8 × Bytes) := [
  (0, p2pkhText .btc p true),
  (1, p2pkhText .btc p false),
  (2, p2wpkhText .btc p),
  (3, p2pkhText .ltc p true),
  (4, p2pkhText .ltc p false),
  (5, p2wpkhText .ltc p),
  (6, ethText p)]

/-- The rule of ADDRESS_SET (R266). -/
def addressSetRule (b : Bytes) : Except ErrCode Output :=
  match parsePoint b false with
  | .error e => .error e
  | .ok p => .ok ⟨addressSlots p, ResultReg.zero⟩

/-- P2PKH_ADDR (R261). A CH that selects no chain is an illegal word (R99, R102). -/
def execP2pkhAddr (ch : ChSel) (c : Bool) (s : State) : Answer :=
  match ch.chain? with
  | none => .next s.illegal
  | some k => ran s .encoding 1 (p2pkhRule k c (s.opnd 0))

/-- P2WPKH_ADDR (R263). A CH that selects no chain is an illegal word (R99, R102). -/
def execP2wpkhAddr (ch : ChSel) (s : State) : Answer :=
  match ch.chain? with
  | none => .next s.illegal
  | some k => ran s .encoding 1 (p2wpkhRule k (s.opnd 0))

/-- ETH_ADDR (R265). -/
def execEthAddr (s : State) : Answer := ran s .encoding 1 (ethRule (s.opnd 0))

/-- ADDRESS_SET (R266). -/
def execAddressSet (s : State) : Answer := ran s .encoding 1 (addressSetRule (s.opnd 0))

end Sys2Proof.Machine
end

