-- ==== Sys2Proof/Machine/PointCommands.lean ====
section
/-!
DEFINITION. Point compression and decompression (stage CODEC), scalar multiplication, point addition, square root and
inverse (stage RECOVERY): R185 to R190, R122.
-/

namespace Sys2Proof.Machine

/-- The rule of COMPRESS (R185). -/
def compressRule (b : Bytes) : Except ErrCode Output :=
  match parsePoint b false with
  | .error e => .error e
  | .ok p => emit0 (ser p true)

/-- The rule of DECOMPRESS (R186). -/
def decompressRule (b : Bytes) : Except ErrCode Output :=
  match parsePoint b false with
  | .error e => .error e
  | .ok p => emit0 (ser p false)

/-- The rule of SCALAR_MULT (R187) on the scalar operand `a` and the point read, or failed to be read, as `rp`. -/
def scalarMultRule (c : Bool) (a : Bytes) (rp : Except ErrCode Point) : Except ErrCode Output :=
  match scalar32 a with
  | .error e => .error e
  | .ok k =>
    match rp with
    | .error e => .error e
    | .ok p => .ok (outPoint (pointMul k p) c)

/-- The rule of POINT_ADD (R188). -/
def pointAddRule (c : Bool) (a b : Bytes) : Except ErrCode Output :=
  match parsePoint a true with
  | .error e => .error e
  | .ok p =>
    match parsePoint b true with
    | .error e => .error e
    | .ok q => .ok (outPoint (pointAdd p q) c)

/-- The rule of MOD_SQRT (R189). -/
def modSqrtRule (b : Bytes) : Except ErrCode Output :=
  match scalar32 b with
  | .error e => .error e
  | .ok v =>
    if v ≥ fieldP then .error .operandOutOfRange
    else if sqrtP v * sqrtP v % fieldP ≠ v then .error .notQuadraticResidue
    else emit0 (beBytes 32 (sqrtP v))

/-- The modulus S selects in MOD_INV: p when S = 0, n when S = 1 (R96, R190). -/
def modulusOf (s : Bool) : Nat := if s then orderN else fieldP

/-- The rule of MOD_INV for the modulus `m` (R190). -/
def modInvRule (m : Nat) (b : Bytes) : Except ErrCode Output :=
  match scalar32 b with
  | .error e => .error e
  | .ok a =>
    if a ≥ m then .error .operandOutOfRange
    else if a = 0 then .error .notInvertible
    else emit0 (beBytes 32 (invMod m a))

/-- COMPRESS (R185). -/
def execCompress (s : State) : Answer := ran s .codec 1 (compressRule (s.opnd 0))

/-- DECOMPRESS (R186). -/
def execDecompress (s : State) : Answer := ran s .codec 1 (decompressRule (s.opnd 0))

/-- SCALAR_MULT (R187): with S = 1 the point is G and there is one operand, with S = 0 the point is operand 1. -/
def execScalarMult (c sub : Bool) (s : State) : Answer :=
  if sub then ran s .recovery 1 (scalarMultRule c (s.opnd 0) (.ok genG))
  else ran s .recovery 2 (scalarMultRule c (s.opnd 0) (parsePoint (s.opnd 1) true))

/-- POINT_ADD (R188). -/
def execPointAdd (c : Bool) (s : State) : Answer := ran s .recovery 2 (pointAddRule c (s.opnd 0) (s.opnd 1))

/-- MOD_SQRT (R189). -/
def execModSqrt (s : State) : Answer := ran s .recovery 1 (modSqrtRule (s.opnd 0))

/-- MOD_INV (R190). -/
def execModInv (sub : Bool) (s : State) : Answer := ran s .recovery 1 (modInvRule (modulusOf sub) (s.opnd 0))

end Sys2Proof.Machine
end

