-- ==== Sys2Proof/Machine/Recovery.lean ====
section
/-!
DEFINITION. The signature recovery engine (R230 to R238). Both commands report stage RECOVERY (R122).
-/

namespace Sys2Proof.Machine

/-- What recovery gives: the candidate key Q, the recovery id and the compression flag (R232). -/
structure Recovered where
  key : Point
  recid : Nat
  comp : Bool
  deriving DecidableEq, Repr

/-- `header(h)` (R231): the recovery id and the compression flag. -/
def sigHeader (h : Byte) : Except ErrCode (Nat × Bool) :=
  if h.toNat < 27 ∨ h.toNat > 34 then .error .invalidRecoveryId
  else .ok ((h.toNat - 27) % 4, decide (31 ≤ h.toNat))

/-- `inv_n(r) · (s·R + ((−e) mod n)·G)` (R232). -/
def recoverKey (r s e : Nat) (rp : Point) : Point :=
  pointMul (invMod orderN r) (pointAdd (pointMul s rp) (pointMul (subMod orderN 0 e) genG))

/-- R232 from its range check on: `r`, `s` and `e` are numbers, `recid` and `comp` come from the header. The point R is
the lift of x with the parity of recid; no lift means SignatureMismatch. -/
def recoverPoint (r s e recid : Nat) (comp : Bool) : Except ErrCode Recovered :=
  if ¬ (1 ≤ r ∧ r ≤ orderN - 1) ∨ ¬ (1 ≤ s ∧ s ≤ orderN - 1) then .error .signatureMismatch
  else
    match liftX (r + recid / 2 * orderN) (recid % 2 == 1) with
    | .error _ => .error .signatureMismatch
    | .ok rp =>
      let q := recoverKey r s e rp
      if q.isInfinity then .error .signatureMismatch else .ok ⟨q, recid, comp⟩

/-- `recover(dg, sig)` (R232), with the signature layout of R230. -/
def recoverSig (dg sig : Bytes) : Except ErrCode Recovered :=
  if dg.length ≠ 32 then .error .invalidLength
  else if sig.length ≠ 65 then .error .invalidSignatureLength
  else
    match sigHeader (byteAt sig 0) with
    | .error e => .error e
    | .ok (recid, comp) =>
      recoverPoint (intBE (slice sig 1 33)) (intBE (slice sig 33 65)) (intBE dg) recid comp

/-- The rule of RECOVER (R233). -/
def recoverRule (dg sig : Bytes) : Except ErrCode Output :=
  match recoverSig dg sig with
  | .error e => .error e
  | .ok q =>
    .ok ⟨[(0, ser q.key false)], { ResultReg.zero with comp := q.comp, recid := BitVec.ofNat 2 q.recid }⟩

/-- `resolve(CH, a)` (R235): the chain a VERIFY_MESSAGE works for; `none` for the reserved CH = 2. -/
def resolveChain (ch : ChSel) (a : Bytes) : Option Chain :=
  match ch with
  | .btc => some .btc
  | .ltc => some .ltc
  | .reserved => none
  | .auto => some (if a.head? = some 0x4C then .ltc else .btc)

/-- The rule of VERIFY_MESSAGE for the resolved chain `ch` (R236): only the P2PKH address of that chain, in the form
the header gives, is compared (R237). -/
def verifyRule (ch : Chain) (n : Bool) (a sig m : Bytes) : Except ErrCode Output :=
  match recoverSig (msgDigest m ch n) sig with
  | .error e => .error e
  | .ok q =>
    let d := p2pkhText ch q.key q.comp
    if d ≠ a then .error .signatureMismatch
    else
      .ok ⟨[(0, ser q.key false), (1, d)],
        { ResultReg.zero with
          valid := true, comp := q.comp, recid := BitVec.ofNat 2 q.recid, chain := chainBits ch }⟩

/-- RECOVER (R233). -/
def execRecover (s : State) : Answer := ran s .recovery 2 (recoverRule (s.opnd 0) (s.opnd 1))

/-- VERIFY_MESSAGE (R236). The reserved CH = 2 is an illegal word (R99, R102). -/
def execVerifyMessage (ch : ChSel) (n : Bool) (s : State) : Answer :=
  match resolveChain ch (s.opnd 0) with
  | none => .next s.illegal
  | some c => ran s .recovery 3 (verifyRule c n (s.opnd 0) (s.opnd 1) (s.opnd 2))

end Sys2Proof.Machine
end

