-- ==== Sys2Proof/Machine/Wif.lean ====
section
/-!
DEFINITION. The WIF key codec (R210 to R215). Both commands report stage CODEC (R122).
-/

namespace Sys2Proof.Machine

/-- R213: a scalar is accepted only in [1, n − 1]. -/
def scalarInRange (k : Nat) : Bool := decide (1 ≤ k ∧ k < orderN)

/-- The body of a WIF key: prefix ‖ scalar ‖ the flag byte 0x01 for a compressed key (R210). -/
def wifBody (pre scalar : Bytes) (c : Bool) : Bytes := pre ++ scalar ++ if c then [0x01] else []

/-- The rule of WIF_ENCODE (R214). -/
def wifEncodeRule (c : Bool) (pre scalar : Bytes) : Except ErrCode Output :=
  if pre.length ≠ 1 then .error .invalidLength
  else
    match scalar32 scalar with
    | .error e => .error e
    | .ok k =>
      if ¬ scalarInRange k then .error .operandOutOfRange
      else emit0 (b58checkText (wifBody pre scalar c))

/-- The rule of WIF_DECODE on the decoded bytes `raw`, with the accepted prefixes `accepted` (R215). The flag of a
38-byte key is byte 33 (R212). -/
def wifParse (raw accepted : Bytes) : Except ErrCode Output :=
  if raw.length < 5 then .error .invalidLength
  else if ¬ checksumHolds raw then .error .checksumMismatch
  else if byteAt raw 0 ∉ accepted then .error .unsupportedPrefix
  else if raw.length ≠ 37 ∧ raw.length ≠ 38 then .error .invalidLength
  else if raw.length = 38 ∧ byteAt raw 33 ≠ 0x01 then .error .invalidCompressionFlag
  else if ¬ scalarInRange (intBE (slice raw 1 33)) then .error .operandOutOfRange
  else
    .ok ⟨[(0, slice raw 1 33)],
      { ResultReg.zero with prefixByte := byteAt raw 0, comp := decide (raw.length = 38) }⟩

/-- The rule of WIF_DECODE (R215). -/
def wifDecodeRule (wif accepted : Bytes) : Except ErrCode Output :=
  match b58dec wif with
  | .error e => .error e
  | .ok raw => wifParse raw accepted

/-- WIF_ENCODE (R214). -/
def execWifEncode (c : Bool) (s : State) : Answer := ran s .codec 2 (wifEncodeRule c (s.opnd 0) (s.opnd 1))

/-- WIF_DECODE (R215). -/
def execWifDecode (s : State) : Answer := ran s .codec 2 (wifDecodeRule (s.opnd 0) (s.opnd 1))

end Sys2Proof.Machine
end

