-- ==== Sys2Proof/Machine/Dispatch.lean ====
section
/-!
DEFINITION. The meaning of every command (R120): one arm per constructor of `Instr`.
-/

namespace Sys2Proof.Machine

/-- The engine's run of one command, from the operands its latch frames to its completion (R120). -/
def exec (i : Instr) (s : State) : Host.Outcome State Fault Refusal :=
  match i with
  | .nop => Sys2Proof.Machine.execNop s
  | .b58Encode => Sys2Proof.Machine.execB58Encode s
  | .b58Decode => Sys2Proof.Machine.execB58Decode s
  | .b58Checksum => Sys2Proof.Machine.execB58Checksum s
  | .b58checkEncode => Sys2Proof.Machine.execB58checkEncode s
  | .b58checkDecode => Sys2Proof.Machine.execB58checkDecode s
  | .bech32Encode ch => Sys2Proof.Machine.execBech32Encode ch s
  | .bech32Decode ch => Sys2Proof.Machine.execBech32Decode ch s
  | .compress => Sys2Proof.Machine.execCompress s
  | .decompress => Sys2Proof.Machine.execDecompress s
  | .scalarMult c sub => Sys2Proof.Machine.execScalarMult c sub s
  | .pointAdd c => Sys2Proof.Machine.execPointAdd c s
  | .modSqrt => Sys2Proof.Machine.execModSqrt s
  | .modInv sub => Sys2Proof.Machine.execModInv sub s
  | .wifEncode c => Sys2Proof.Machine.execWifEncode c s
  | .wifDecode => Sys2Proof.Machine.execWifDecode s
  | .recover => Sys2Proof.Machine.execRecover s
  | .verifyMessage ch n => Sys2Proof.Machine.execVerifyMessage ch n s
  | .sha256 => Sys2Proof.Machine.execSha256 s
  | .sha256d => Sys2Proof.Machine.execSha256d s
  | .ripemd160 => Sys2Proof.Machine.execRipemd160 s
  | .hash160 => Sys2Proof.Machine.execHash160 s
  | .keccak256 => Sys2Proof.Machine.execKeccak256 s
  | .msgDigest ch n => Sys2Proof.Machine.execMsgDigest ch n s
  | .p2pkhAddr ch c => Sys2Proof.Machine.execP2pkhAddr ch c s
  | .p2wpkhAddr ch => Sys2Proof.Machine.execP2wpkhAddr ch s
  | .ethAddr => Sys2Proof.Machine.execEthAddr s
  | .addressSet => Sys2Proof.Machine.execAddressSet s

end Sys2Proof.Machine
end

