-- ==== Sys2Proof/Machine/Engine.lean ====
section
/-!
DEFINITION. The two agents' turns (R30, R345): what the engine does with its latch, what the host's next action does.
-/

namespace Sys2Proof.Machine

/-- The engine's one step (R120): decode the latched word and run the command; a word that is no command completes
with IllegalCommand, stage INTERFACE (R102, R317). -/
def engineTurn (s : State) : Answer :=
  match decode s.cur.cmd with
  | .ok i => exec i s
  | .error _ => .next s.illegal

/-- The host's one step (R345): a bus access, which answers it, or the platform's reset. An access outside the window
does not reach the block (R75): nothing of the block changes, a running command goes on, and what the platform answers is
left out (log entry 9). -/
def hostTurn (a : HostAction) (s : State) : Answer :=
  match a with
  | .read addr width =>
    match s.offsetOf addr with
    | none => .next (respond (s, .notReached))
    | some off => .next (respond (s.busRead off width))
  | .write addr width v =>
    match s.offsetOf addr with
    | none => .next (respond (s, .notReached))
    | some off => .next (respond (s.busWrite off width v))
  | .powerOnReset => .next s.powerOnReset

/-- The engine's turn: its step is enabled exactly while BUSY = 1 (R345); otherwise it does nothing (R333). -/
def engineTurnIfBusy (s : State) : Answer := if s.busy then engineTurn s else .next s

/-- One step of a run (R345): the next turn of `inputs`. When none is left the engine moves if it is enabled, so that
every run is fair to it (R112), and the block is idle otherwise (R333). -/
def takeTurn (s : State) : Answer :=
  match s.inputs with
  | [] => engineTurnIfBusy s
  | .engine :: rest => engineTurnIfBusy { s with inputs := rest }
  | .host a :: rest => hostTurn a { s with inputs := rest }

end Sys2Proof.Machine
end

