-- ==== Sys2Proof/Machine/Step.lean ====
section
/-!
DEFINITION. One step of the machine, and the placing of an instruction where the next step fetches it.
-/

namespace Sys2Proof.Machine

/-- One step (R345). -/
def step (s : State) : Host.Outcome State Fault Refusal := takeTurn s

/-- `s` with the engine about to run the word `w`, of which the table gives `nbits` bits: the word is in the CUR latch,
where the engine fetches it (R59), BUSY = 1, and the next turn is the engine's. It stands for the host's writes to CMD
and CTRL.START (log entry 3). Everything else is kept. -/
def State.withFetchWord (s : State) (nbits w : Nat) : State :=
  { s with
    cur := { s.cur with cmd := BitVec.ofNat 32 (w % 2 ^ nbits) }
    busy := true
    inputs :=
      match s.inputs with
      | [] => []
      | .engine :: rest => .engine :: rest
      | .host a :: rest => .engine :: .host a :: rest }

end Sys2Proof.Machine
end

