-- ==== Sys2Proof/Safety.lean ====
section
/-!
DEFINITION. The terms the statements are written in: what a command leaves alone, what a completion with success and
one with an error look like, the operand and stage tables, and the invariant of the machine.
-/

namespace Sys2Proof.Machine

/-! ### Completions -/

/-- What no command changes (R82, R119): the instance, the host's registers, HAZ, the latch, IBUF, and what the host
has still to do and has been answered. -/
structure SameInputs (s t : State) : Prop where
  params : t.params = s.params
  ie : t.ie = s.ie
  cmd : t.cmd = s.cmd
  haz : t.haz = s.haz
  len0 : t.len0 = s.len0
  len1 : t.len1 = s.len1
  len2 : t.len2 = s.len2
  cur : t.cur = s.cur
  ibuf : t.ibuf = s.ibuf
  draws : t.draws = s.draws
  inputs : t.inputs = s.inputs
  responses : t.responses = s.responses

/-- The OBUF index `a` lies in one of the slots (R115). -/
abbrev inSlots (slots : List (Fin 8 × Bytes)) (a : Nat) : Prop :=
  ∃ x ∈ slots, 128 * x.1.val ≤ a ∧ a < 128 * x.1.val + x.2.length

/-- `t` is `s` after a completion with success that emits `slots` and writes `r` to RESULT (R118, R119, R58). -/
structure Completed (s t : State) (slots : List (Fin 8 × Bytes)) (r : ResultReg) : Prop where
  same : SameInputs s t
  busy : t.busy = false
  done : t.done = true
  err : t.err = .ok
  stage : t.stage = .interface
  result : t.result = r
  /-- OLENj is the length of slot j -/
  olen : ∀ x ∈ slots, t.olen[x.1] = BitVec.ofNat 16 x.2.length
  /-- OLENj of a slot that is not emitted is 0 -/
  olenRest : ∀ j : Fin 8, (∀ x ∈ slots, x.1 ≠ j) → t.olen[j] = 0
  /-- slot j holds its bytes from 128·j on -/
  slot : ∀ x ∈ slots, ∀ k (h : k < x.2.length), t.obufByte (128 * x.1.val + k) = x.2[k]
  /-- every other OBUF byte is unspecified -/
  rest : ∀ a, ¬ inSlots slots a → t.obuf.byte? a = none
  /-- the unspecified bytes are not those of before -/
  fresh : t.obuf.epoch = s.obuf.epoch + 1

/-- `t` is `s` after a completion with the error `e` at stage `st` (R117, R119, R300). -/
structure Failed (s t : State) (e : ErrCode) (st : Stage) : Prop where
  same : SameInputs s t
  busy : t.busy = false
  done : t.done = true
  err : t.err = e
  stage : t.stage = st
  result : t.result = ResultReg.zero
  olen : ∀ j : Fin 8, t.olen[j] = 0
  /-- every OBUF byte is unspecified -/
  obuf : ∀ a, t.obuf.byte? a = none
  /-- the unspecified bytes are not those of before -/
  fresh : t.obuf.epoch = s.obuf.epoch + 1

/-- The command `i` completes from `s` with success, emitting `slots` and writing `r`. -/
def Succeeds (i : Instr) (s : State) (slots : List (Fin 8 × Bytes)) (r : ResultReg) : Prop :=
  ∃ t, exec i s = .next t ∧ Completed s t slots r

/-- The command `i` completes from `s` with the error `e` at stage `st`. -/
def Fails (i : Instr) (s : State) (e : ErrCode) (st : Stage) : Prop :=
  ∃ t, exec i s = .next t ∧ Failed s t e st

/-! ### Operands -/

/-- How many operands a command takes (R103, R187). -/
def operandCount : Instr → Nat
  | .nop => 0
  | .b58Encode => 1
  | .b58Decode => 1
  | .b58Checksum => 1
  | .b58checkEncode => 1
  | .b58checkDecode => 1
  | .bech32Encode _ => 1
  | .bech32Decode _ => 1
  | .compress => 1
  | .decompress => 1
  | .scalarMult _ sub => if sub then 1 else 2
  | .pointAdd _ => 2
  | .modSqrt => 1
  | .modInv _ => 1
  | .wifEncode _ => 2
  | .wifDecode => 2
  | .recover => 2
  | .verifyMessage _ _ => 3
  | .sha256 => 1
  | .sha256d => 1
  | .ripemd160 => 1
  | .hash160 => 1
  | .keccak256 => 1
  | .msgDigest _ _ => 1
  | .p2pkhAddr _ _ => 1
  | .p2wpkhAddr _ => 1
  | .ethAddr => 1
  | .addressSet => 1

/-- The latched length of operand `k` (R113). -/
def State.operandLength (s : State) (k : Nat) : Nat :=
  if k = 0 then s.cur.len0.toNat else if k = 1 then s.cur.len1.toNat else if k = 2 then s.cur.len2.toNat else 0

/-- The latched lengths of the first `m` operands together (the sum of R114). -/
def State.operandTotal (s : State) (m : Nat) : Nat := ((List.range m).map s.operandLength).sum

/-- The first `m` operands fit IBUF (R114). -/
abbrev State.fits (s : State) (m : Nat) : Prop := s.operandTotal m ≤ s.params.ibufSize

/-- `b` is an encoding of the point `p` of the group, in either form; O is the byte 00 (R125, R127). -/
abbrev EncodesPoint (b : Bytes) (p : Point) : Prop := p.onCurve = true ∧ (b = ser p true ∨ b = ser p false)

/-- `b` is an encoding of the finite point (x, y) of the group, in either form (R125, R127). -/
abbrev EncodesXY (b : Bytes) (x y : Nat) : Prop := EncodesPoint b (.affine x y)

/-! ### Tables -/

/-- The stage a command's own checks report (R122). NOP has none, and never fails. -/
def stageOf : Instr → Stage
  | .nop => .interface
  | .b58Encode => .codec
  | .b58Decode => .codec
  | .b58Checksum => .codec
  | .b58checkEncode => .codec
  | .b58checkDecode => .codec
  | .bech32Encode _ => .codec
  | .bech32Decode _ => .codec
  | .compress => .codec
  | .decompress => .codec
  | .wifEncode _ => .codec
  | .wifDecode => .codec
  | .scalarMult _ _ => .recovery
  | .pointAdd _ => .recovery
  | .modSqrt => .recovery
  | .modInv _ => .recovery
  | .recover => .recovery
  | .verifyMessage _ _ => .recovery
  | .sha256 => .encoding
  | .sha256d => .encoding
  | .ripemd160 => .encoding
  | .hash160 => .encoding
  | .keccak256 => .encoding
  | .msgDigest _ _ => .encoding
  | .p2pkhAddr _ _ => .encoding
  | .p2wpkhAddr _ => .encoding
  | .ethAddr => .encoding
  | .addressSet => .encoding

/-- The codes parse_point raises (R125). -/
def pointErrors : List ErrCode := [.invalidLength, .malformedEncoding, .pointNotOnCurve]

/-- The codes a command's own checks and its output may raise (the last column of R301, and R116). -/
def ownErrors : Instr → List ErrCode
  | .nop => []
  | .b58Encode => [.invalidLength]
  | .b58Decode => [.malformedEncoding, .invalidLength]
  | .b58Checksum => []
  | .b58checkEncode => [.invalidLength]
  | .b58checkDecode => [.malformedEncoding, .invalidLength, .checksumMismatch]
  | .bech32Encode _ => [.invalidWitnessProgram]
  | .bech32Decode _ => [.malformedEncoding, .unsupportedPrefix, .checksumMismatch, .invalidWitnessProgram]
  | .compress => pointErrors
  | .decompress => pointErrors
  | .scalarMult _ sub => if sub then [.invalidLength] else pointErrors
  | .pointAdd _ => pointErrors
  | .modSqrt => [.invalidLength, .operandOutOfRange, .notQuadraticResidue]
  | .modInv _ => [.invalidLength, .operandOutOfRange, .notInvertible]
  | .wifEncode _ => [.invalidLength, .operandOutOfRange]
  | .wifDecode => [.malformedEncoding, .invalidLength, .checksumMismatch, .unsupportedPrefix, .invalidCompressionFlag,
      .operandOutOfRange]
  | .recover => [.invalidLength, .invalidSignatureLength, .invalidRecoveryId, .signatureMismatch]
  | .verifyMessage _ _ => [.invalidSignatureLength, .invalidRecoveryId, .signatureMismatch]
  | .sha256 => []
  | .sha256d => []
  | .ripemd160 => []
  | .hash160 => []
  | .keccak256 => []
  | .msgDigest _ _ => []
  | .p2pkhAddr _ _ => pointErrors
  | .p2wpkhAddr _ => pointErrors
  | .ethAddr => pointErrors
  | .addressSet => pointErrors

/-! ### Bus accesses, by window offset -/

/-- All `width` bytes from the offset are IBUF bytes (R71). -/
abbrev State.inIbuf (s : State) (off width : Nat) : Prop :=
  0x1000 ≤ off ∧ off + width ≤ 0x1000 + s.params.ibufSize

/-- All `width` bytes from the offset are OBUF bytes (R71). -/
abbrev State.inObuf (s : State) (off width : Nat) : Prop :=
  0x2000 ≤ off ∧ off + width ≤ 0x2000 + s.params.obufSize

/-- All `width` bytes from the offset are reserved bytes of the window (R71). -/
abbrev State.inReserved (s : State) (off width : Nat) : Prop :=
  (0x44 ≤ off ∧ off + width ≤ 0x1000) ∨
  (0x1000 + s.params.ibufSize ≤ off ∧ off + width ≤ 0x2000) ∨
  (0x2000 + s.params.obufSize ≤ off ∧ off + width ≤ 0x3000)

/-- The width and alignment the window accepts (R73, R74). -/
abbrev aligned (off width : Nat) : Prop :=
  if off < 0x1000 then width = 4 ∧ off % 4 = 0 else (width = 1 ∨ width = 2 ∨ width = 4) ∧ off % width = 0

/-- The `width`-byte little-endian value of the bytes `f 0`, `f 1`, … (R76). -/
def littleEndian (width : Nat) (f : Nat → Byte) : Nat :=
  ((List.range width).map fun i => (f i).toNat * 256 ^ i).sum

/-- What the next step answers when the host writes `v` at a window offset, before the turns `s` has. -/
def hostWrites (s : State) (off width : Nat) (v : Word) : Answer :=
  step { s with inputs := .host (.write (s.params.blockBase + off) width v) :: s.inputs }

/-- What the next step answers when the host reads at a window offset, before the turns `s` has. -/
def hostReads (s : State) (off width : Nat) : Answer :=
  step { s with inputs := .host (.read (s.params.blockBase + off) width) :: s.inputs }

/-- What the next step answers when the platform asserts its reset input, before the turns `s` has. -/
def hostResets (s : State) : Answer := step { s with inputs := .host .powerOnReset :: s.inputs }

/-- The next turn of `s` is a 32-bit host write of `v` to CTRL. -/
def ctrlWriteNext (s : State) (v : Word) : Prop :=
  ∃ addr rest, s.inputs = .host (.write addr 4 v) :: rest ∧ s.offsetOf addr = some 4

/-- The next turn of `s` is a reset: the platform's, or a CTRL write with SRST = 1 (R330). -/
def resetNext (s : State) : Prop :=
  (∃ rest, s.inputs = .host .powerOnReset :: rest) ∨ ∃ v : Word, ctrlWriteNext s v ∧ v.getLsbD 3 = true

/-- The next turn of `s` is the engine's. -/
abbrev engineNext (s : State) : Prop := s.inputs = [] ∨ s.inputs.head? = some .engine

/-- A turn that resets the block at `s` (R330). -/
def Turn.resets (s : State) : Turn → Bool
  | .host (.write addr width v) => s.offsetOf addr == some 4 && width == 4 && v.getLsbD 3
  | .host .powerOnReset => true
  | .host (.read _ _) => false
  | .engine => false

/-! ### The invariant -/

/-- What holds of the machine after reset and is kept by every step. -/
structure Inv (s : State) : Prop where
  /-- the sizes are those of R12 -/
  paramsWf : s.params.wf
  /-- both buffers keep their canonical form, within their sizes (R57, R58) -/
  ibufWf : s.ibuf.wf = true
  ibufBelow : s.ibuf.below s.params.ibufSize = true
  obufWf : s.obuf.wf = true
  obufBelow : s.obuf.below s.params.obufSize = true
  /-- "BUSY and DONE are never both 1" (R41) -/
  notBoth : ¬ (s.busy = true ∧ s.done = true)
  /-- CUR equals the host-visible values for the whole run (R59) -/
  latched : s.busy = true → s.cur = ⟨s.cmd, s.len0, s.len1, s.len2⟩
  /-- no result is visible during a run (R111, R84) -/
  running : s.busy = true → s.err = .ok ∧ s.result = ResultReg.zero ∧ s.olen = olenZero ∧ s.obuf.cells = []
  /-- a code stands only with DONE (R42) -/
  errDone : s.done = false → s.err = .ok
  /-- STAGE is 0 when ERR is 0 (R43) -/
  okStage : s.err = .ok → s.stage = .interface
  /-- no partial result is reported (R117) -/
  noPartial : s.err ≠ .ok → s.result = ResultReg.zero ∧ s.olen = olenZero ∧ s.obuf.cells = []
  /-- code 9 is never raised (R311) -/
  noCode9 : s.err ≠ .addressMismatch
  /-- every slot ends within OBUF (R116) -/
  slotsFit : ∀ j : Fin 8, 128 * j.val + s.olen[j].toNat ≤ s.params.obufSize
  /-- RESULT.CHAIN is 0 or 1 (R53) -/
  chain : s.result.chain.toNat ≤ 1

end Sys2Proof.Machine
end

