-- ==== Sys2Proof/Certificates/Slice0/Obligations.lean ====
section
/-!
DEFINITION. The statements for the provers. Each docstring names the rules of `spec/` it formalises.
-/

section ObligationStatements

open Sys2Proof Sys2Proof.Machine

/-! ### Encoding -/

/-- R90 to R100: a word decodes to a command exactly when the command is well formed and the word is its encoding. So
decoding the word of any well-formed command gives the command, every field at every legal value, and "every command has
exactly one encoding per choice of its used fields" (R98). -/
def Obligations.DecodeEncodeAgree : Prop :=
  ∀ (w : Word) (i : Instr), decode w = .ok i ↔ i.wf = true ∧ encode i = w

/-- R100, R105: the "match" word of every one of the 28 rows of the opcode map, whose used fields are 0, decodes to the
command of that row; and so do the words R105 writes out with fields set, and the words R91 gives for each field alone. -/
def Obligations.SpecWordsDecode : Prop :=
  decode 0x00001022 = .ok (.scalarMult false true) ∧ decode 0x00001422 = .ok (.scalarMult true true) ∧
  decode 0x00001025 = .ok (.modInv true) ∧ decode 0x00000548 = .ok (.p2pkhAddr .ltc true) ∧
  decode 0x00000B31 = .ok (.verifyMessage .auto true) ∧ decode 0x00000118 = .ok (.bech32Encode .ltc) ∧
  decode 0x00000428 = .ok (.wifEncode true) ∧ decode 0x00000000 = .ok .nop ∧ decode 0x00000014 = .ok .b58checkDecode ∧
  decode 0x00000045 = .ok (.msgDigest .btc false) ∧
  ∀ x ∈ [((0x00 : Word), Instr.nop), (0x10, .b58Encode), (0x11, .b58Decode), (0x12, .b58Checksum), (0x13, .b58checkEncode),
      (0x14, .b58checkDecode), (0x18, .bech32Encode .btc), (0x19, .bech32Decode .btc), (0x20, .compress),
      (0x21, .decompress), (0x22, .scalarMult false false), (0x23, .pointAdd false), (0x24, .modSqrt),
      (0x25, .modInv false), (0x28, .wifEncode false), (0x29, .wifDecode), (0x30, .recover),
      (0x31, .verifyMessage .btc false), (0x40, .sha256), (0x41, .sha256d), (0x42, .ripemd160), (0x43, .hash160),
      (0x44, .keccak256), (0x45, .msgDigest .btc false), (0x48, .p2pkhAddr .btc false), (0x49, .p2wpkhAddr .btc),
      (0x4A, .ethAddr), (0x4B, .addressSet),
      (0x119, .bech32Decode .ltc), (0x423, .pointAdd true), (0x131, .verifyMessage .ltc false),
      (0x831, .verifyMessage .btc true), (0x145, .msgDigest .ltc false), (0x845, .msgDigest .btc true),
      (0x148, .p2pkhAddr .ltc false), (0x448, .p2pkhAddr .btc true), (0x149, .p2wpkhAddr .ltc)],
    decode x.1 = .ok x.2

/-- R97, R99, R101, R317: a word with RSV set, with a reserved OP, or with an illegal CH is no command's word; and when
the latched word is no command's, the engine's step completes with IllegalCommand, stage INTERFACE. -/
def Obligations.IllegalWords : Prop :=
  (∀ (w : Word) (i : Instr), i.wf = true → encode i = w →
    w.extractLsb' 13 19 = 0 ∧
    ¬ ((0x01 ≤ w.toNat % 256 ∧ w.toNat % 256 ≤ 0x0F) ∨ (0x15 ≤ w.toNat % 256 ∧ w.toNat % 256 ≤ 0x17) ∨
      (0x1A ≤ w.toNat % 256 ∧ w.toNat % 256 ≤ 0x1F) ∨ (0x26 ≤ w.toNat % 256 ∧ w.toNat % 256 ≤ 0x27) ∨
      (0x2A ≤ w.toNat % 256 ∧ w.toNat % 256 ≤ 0x2F) ∨ (0x32 ≤ w.toNat % 256 ∧ w.toNat % 256 ≤ 0x3F) ∨
      (0x46 ≤ w.toNat % 256 ∧ w.toNat % 256 ≤ 0x47) ∨ 0x4C ≤ w.toNat % 256) ∧
    w.toNat / 256 % 4 ≠ 2 ∧ (w.toNat / 256 % 4 = 3 → w.toNat % 256 = 0x31)) ∧
  (∀ s : State, s.busy = true → engineNext s → (¬ ∃ i : Instr, i.wf = true ∧ encode i = s.cur.cmd) →
    ∃ t, step s = .next t ∧ Failed { s with inputs := s.inputs.tail } t .illegalCommand .interface)

/-- R120, R345: on the engine's turn, while BUSY = 1, a step is the meaning of the command the latched word decodes to,
the turn taken from the list. -/
def Obligations.StepRunsDecoded : Prop :=
  ∀ (s : State) (i : Instr), s.busy = true → engineNext s → decode s.cur.cmd = .ok i → i.wf = true →
    step s = exec i { s with inputs := s.inputs.tail }

/-! ### The machine: invariant, reset, the engine's turns -/

/-- R62, R12: the invariant holds after power-on reset. -/
def Obligations.ResetInv : Prop := Inv State.reset

/-- R41, R59, R42, R43, R117, R311, R116, R53: every step, of the host or of the engine, keeps the invariant. -/
def Obligations.StepKeepsInv : Prop := ∀ s t : State, Inv s → step s = .next t → Inv t

/-- R62, R331 and the defaults of R12: what the registers read right after reset. The unspecified bytes of IBUF and
OBUF have no known value. (CUR and BLOCK_BASE, model's choices, are not stated: log entries 1 and 7.) -/
def Obligations.ResetValues : Prop :=
  State.reset.readReg .id = 0x4F440007 ∧ State.reset.readReg .ctrl = 0 ∧ State.reset.readReg .cmd = 0 ∧
  State.reset.readReg .status = 0 ∧ State.reset.readReg .len0 = 0 ∧ State.reset.readReg .len1 = 0 ∧
  State.reset.readReg .len2 = 0 ∧ State.reset.readReg .result = 0 ∧
  (∀ j, State.reset.readReg (.olen j) = 0) ∧ State.reset.readReg .caps = 0x08000400 ∧ State.reset.phase = .idle ∧
  ∀ a, State.reset.ibuf.byte? a = none ∧ State.reset.obuf.byte? a = none

/-- R331, R332, R343: a CTRL write with SRST = 1 gives every piece of state its soft-reset value, whatever the other
bits of the write and whether or not a command runs; power-on reset gives every piece its power-on value. They differ in
IBUF, whose bytes the soft reset keeps. Nothing is stated of CUR, which is unspecified after both. -/
def Obligations.Resets : Prop :=
  (∀ (s : State) (v : Word), v.getLsbD 3 = true →
    ∃ t, hostWrites s 4 4 v = .next t ∧ t.params = s.params ∧ t.ie = false ∧ t.cmd = 0 ∧ t.busy = false ∧
      t.done = false ∧ t.err = .ok ∧ t.stage = .interface ∧ t.haz = false ∧ t.len0 = 0 ∧ t.len1 = 0 ∧ t.len2 = 0 ∧
      t.readReg .result = 0 ∧ (∀ j, t.readReg (.olen j) = 0) ∧ t.readReg .id = 0x4F440007 ∧
      t.readReg .caps = s.readReg .caps ∧ t.ibuf = s.ibuf ∧ (∀ a, t.obuf.byte? a = none) ∧
      t.obuf.epoch = s.obuf.epoch + 1 ∧ t.irq = false ∧ t.phase = .idle ∧ t.inputs = s.inputs ∧
      t.responses = .written :: s.responses) ∧
  (∀ s : State, ∃ t, hostResets s = .next t ∧ t.params = s.params ∧ t.ie = false ∧ t.cmd = 0 ∧ t.busy = false ∧
    t.done = false ∧ t.err = .ok ∧ t.stage = .interface ∧ t.haz = false ∧ t.len0 = 0 ∧ t.len1 = 0 ∧ t.len2 = 0 ∧
    t.readReg .result = 0 ∧ (∀ j, t.readReg (.olen j) = 0) ∧ t.readReg .id = 0x4F440007 ∧
    t.readReg .caps = s.readReg .caps ∧ (∀ a, t.ibuf.byte? a = none ∧ t.obuf.byte? a = none) ∧
    t.ibuf.epoch = s.ibuf.epoch + 1 ∧ t.obuf.epoch = s.obuf.epoch + 1 ∧ t.irq = false ∧ t.phase = .idle ∧
    t.inputs = s.inputs ∧ t.responses = s.responses)

/-- R112, R345, R333: an idle engine's turn does nothing; and a started command is completed or aborted within as many
steps as there are turns and one more, whatever accesses the host makes, inside the window or not; completed, if no turn
resets. -/
def Obligations.StartedCommandEnds : Prop :=
  (∀ s : State, s.busy = false → engineNext s → step s = .next { s with inputs := s.inputs.tail }) ∧
  (∀ s : State, s.busy = true →
    ∃ k t, k ≤ s.inputs.length + 1 ∧ Host.Core.run Sys2Proof.core k s = .next t ∧ t.busy = false ∧
      ((∀ x ∈ s.inputs, x.resets s = false) → t.done = true))

/-- R40, R41: what sets and clears BUSY and DONE. BUSY is set only by an accepted START, which latches the command, and
cleared only by a completion or a reset; DONE is set only by a completion, and cleared only by a CTRL write with START,
CLR or SRST or by power-on reset; they never become both 1. -/
def Obligations.BusyAndDoneChanges : Prop :=
  ∀ s t : State, step s = .next t →
    (s.busy = false → t.busy = true → t.cur = ⟨s.cmd, s.len0, s.len1, s.len2⟩ ∧
      ∃ v : Word, ctrlWriteNext s v ∧ v.getLsbD 0 = true ∧ v.getLsbD 3 = false) ∧
    (s.busy = true → t.busy = false → (t.done = true ∧ engineNext s) ∨ resetNext s) ∧
    (s.done = false → t.done = true → s.busy = true ∧ t.busy = false ∧ engineNext s) ∧
    (s.done = true → t.done = false → resetNext s ∨
      ∃ v : Word, ctrlWriteNext s v ∧ (v.getLsbD 0 = true ∨ v.getLsbD 2 = true)) ∧
    (¬ (s.busy = true ∧ s.done = true) → ¬ (t.busy = true ∧ t.done = true))

/-- R44: HAZ is set only by a host write during a run, which leaves the run's inputs alone; cleared only by CLR while
idle and by reset; and never changes the outcome of a command. -/
def Obligations.HazardFlag : Prop :=
  (∀ s t : State, step s = .next t → s.haz = false → t.haz = true →
    s.busy = true ∧ t.busy = true ∧ t.cmd = s.cmd ∧ t.len0 = s.len0 ∧ t.len1 = s.len1 ∧ t.len2 = s.len2 ∧
    t.cur = s.cur ∧ t.ibuf = s.ibuf ∧ ∃ addr width v rest, s.inputs = .host (.write addr width v) :: rest) ∧
  (∀ s t : State, step s = .next t → s.haz = true → t.haz = false →
    resetNext s ∨ (s.busy = false ∧ ∃ v : Word, ctrlWriteNext s v ∧ v.getLsbD 2 = true)) ∧
  (∀ (i : Instr) (s t : State) (h : Bool), exec i s = .next t → exec i { s with haz := h } = .next { t with haz := h })

/-- R322, R45: the interrupt level is DONE AND IE, shown as STATUS.IRQ; it rises at a completion with IE = 1, or when
the host sets IE = 1 while DONE = 1, and at nothing else. -/
def Obligations.InterruptLevel : Prop :=
  ∀ s : State, s.irq = (s.done && s.ie) ∧ (s.readReg .status).getLsbD 11 = s.irq ∧
    ∀ t, step s = .next t → s.irq = false → t.irq = true →
      (s.busy = true ∧ t.busy = false ∧ s.ie = true ∧ engineNext s) ∨
      (s.done = true ∧ ∃ v : Word, ctrlWriteNext s v ∧ v.getLsbD 1 = true)

/-! ### The host's accesses -/

/-- R111: an accepted START, after the CLR of the same write if any. IE takes bit 1 of the write (R34). -/
def Obligations.StartAccepted : Prop :=
  ∀ (s : State) (v : Word), s.busy = false → v.getLsbD 3 = false → v.getLsbD 0 = true →
    ∃ t, hostWrites s 4 4 v = .next t ∧
      t = { s with
        ie := v.getLsbD 1
        cur := ⟨s.cmd, s.len0, s.len1, s.len2⟩
        busy := true
        done := false
        err := .ok
        stage := .interface
        haz := s.haz && !v.getLsbD 2
        obuf := t.obuf
        result := ResultReg.zero
        olen := olenZero
        responses := .written :: s.responses } ∧
      (∀ a, t.obuf.byte? a = none) ∧ t.obuf.epoch = s.obuf.epoch + 1

/-- R337, R342, R34: a CTRL write without SRST during a run stores IE; its START and its CLR only set HAZ. That IE is
stored by a write with CLR = 1 too is the model's reading of R34 beside R342 (DEDUCED: log entry 16). -/
def Obligations.CtrlWriteWhileBusy : Prop :=
  ∀ (s : State) (v : Word), s.busy = true → v.getLsbD 3 = false →
    hostWrites s 4 4 v = .next { s with
      ie := v.getLsbD 1
      haz := s.haz || v.getLsbD 0 || v.getLsbD 2
      responses := .written :: s.responses }

/-- R35, R34: CLR while idle clears DONE, ERR, STAGE and HAZ and nothing else; while a command runs it sets HAZ and
changes nothing else (said here of a write that leaves IE as it is; CtrlWriteWhileBusy says what any write does); a
write of 0 to it does nothing but store IE; it reads as 0. -/
def Obligations.ClearStatus : Prop :=
  ∀ (s : State) (v : Word), v.getLsbD 3 = false → v.getLsbD 0 = false →
    (s.readReg .ctrl).getLsbD 2 = false ∧
    (v.getLsbD 2 = true → s.busy = false →
      hostWrites s 4 4 v = .next { s with
        ie := v.getLsbD 1
        done := false
        err := .ok
        stage := .interface
        haz := false
        responses := .written :: s.responses }) ∧
    (v.getLsbD 2 = true → s.busy = true → v.getLsbD 1 = s.ie →
      hostWrites s 4 4 v = .next { s with haz := true, responses := .written :: s.responses }) ∧
    (v.getLsbD 2 = false →
      hostWrites s 4 4 v = .next { s with ie := v.getLsbD 1, responses := .written :: s.responses })

/-- R32, R37: CTRL reads IE in bit 1 and 0 elsewhere; bits 31:4 of a write do not matter; with SRST = 1 nothing else of
the write acts; without it a write acts as three writes in turn: IE alone, then CLR, then START. -/
def Obligations.CtrlWriteOrder : Prop :=
  ∀ (s : State) (v : Word),
    s.readReg .ctrl = (if s.ie = true then 2 else 0) ∧
    hostWrites s 4 4 v = hostWrites s 4 4 (v &&& 15) ∧
    (v.getLsbD 3 = true → hostWrites s 4 4 v = hostWrites s 4 4 8) ∧
    (v.getLsbD 3 = false →
      let t1 := (s.busWrite 4 4 (v &&& 2)).1
      let t2 := if v.getLsbD 2 = true then (t1.busWrite 4 4 ((v &&& 2) ||| 4)).1 else t1
      let t3 := if v.getLsbD 0 = true then (t2.busWrite 4 4 ((v &&& 2) ||| 1)).1 else t2
      hostWrites s 4 4 v = .next { t3 with responses := .written :: s.responses })

/-- R38, R47: CMD stores every bit and LEN0 to LEN2 store bits 15:0, and both read back; a write during a run is
dropped and sets HAZ; all four are 0 after reset. -/
def Obligations.InputRegisters : Prop :=
  (State.reset.cmd = 0 ∧ State.reset.len0 = 0 ∧ State.reset.len1 = 0 ∧ State.reset.len2 = 0) ∧
  ∀ (s : State) (v : Word),
    (s.busy = false →
      hostWrites s 0x08 4 v = .next { s with cmd := v, responses := .written :: s.responses } ∧
      hostWrites s 0x10 4 v = .next { s with len0 := v.setWidth 16, responses := .written :: s.responses } ∧
      hostWrites s 0x14 4 v = .next { s with len1 := v.setWidth 16, responses := .written :: s.responses } ∧
      hostWrites s 0x18 4 v = .next { s with len2 := v.setWidth 16, responses := .written :: s.responses }) ∧
    (s.busy = true → ∀ off ∈ [0x08, 0x10, 0x14, 0x18],
      hostWrites s off 4 v = .next { s with haz := true, responses := .written :: s.responses }) ∧
    hostReads s 0x08 4 = .next { s with responses := .data s.cmd :: s.responses } ∧
    hostReads s 0x10 4 = .next { s with responses := .data (s.len0.setWidth 32) :: s.responses } ∧
    hostReads s 0x14 4 = .next { s with responses := .data (s.len1.setWidth 32) :: s.responses } ∧
    hostReads s 0x18 4 = .next { s with responses := .data (s.len2.setWidth 32) :: s.responses }

/-- R335: during a run a write to CMD, LEN0 to LEN2 or any IBUF byte is dropped, and sets HAZ. -/
def Obligations.InputWritesWhileBusyDropped : Prop :=
  ∀ (s : State) (off width : Nat) (v : Word), s.params.wf → s.busy = true → aligned off width →
    ((off = 0x08 ∨ off = 0x10 ∨ off = 0x14 ∨ off = 0x18) ∨
      ∃ a, off ≤ a ∧ a < off + width ∧ 0x1000 ≤ a ∧ a < 0x1000 + s.params.ibufSize) →
    hostWrites s off width v = .next { s with haz := true, responses := .written :: s.responses }

/-- R76, R57: an idle host write of `width` bytes to IBUF stores byte i of the value, little-endian, at offset + i, and
changes no other byte and no other state; a read of IBUF, at any time, gives the stored bytes in the same order. -/
def Obligations.IbufAccess : Prop :=
  ∀ (s : State) (off width : Nat), s.params.wf → aligned off width → s.inIbuf off width →
    (∀ v : Word, s.busy = false →
      ∃ t, hostWrites s off width v = .next t ∧
        t = { s with ibuf := t.ibuf, responses := .written :: s.responses } ∧
        (∀ i, i < width → t.ibufByte (off - 0x1000 + i) = v.extractLsb' (8 * i) 8) ∧
        ∀ a, (a < off - 0x1000 ∨ off - 0x1000 + width ≤ a) → t.ibufByte a = s.ibufByte a) ∧
    hostReads s off width = .next { s with
      responses := .data (BitVec.ofNat 32 (littleEndian width fun i => s.ibufByte (off - 0x1000 + i))) :: s.responses }

/-- R81, R58: a host write to OBUF is ignored at all times, without HAZ; a host read of OBUF while idle gives the
stored bytes, little-endian. -/
def Obligations.ObufAccess : Prop :=
  ∀ (s : State) (off width : Nat), s.params.wf → aligned off width → s.inObuf off width →
    (∀ v : Word, hostWrites s off width v = .next { s with responses := .written :: s.responses }) ∧
    (s.busy = false → hostReads s off width = .next { s with
      responses := .data (BitVec.ofNat 32 (littleEndian width fun i => s.obufByte (off - 0x2000 + i))) :: s.responses })

/-- R336, R81: during a run a read of OBUF, RESULT or an OLENj answers some value, of which nothing is said, and
changes nothing (`draws` counts the model's free values); every other register and IBUF answer their stored values, and
that changes nothing. -/
def Obligations.ReadsWhileBusy : Prop :=
  ∀ s : State, s.params.wf → s.busy = true →
    (∀ off width, aligned off width →
      (s.inObuf off width ∨ (width = 4 ∧ 0x1C ≤ off ∧ off ≤ 0x3C)) →
      ∃ w, hostReads s off width = .next { s with draws := s.draws + 1, responses := .data w :: s.responses }) ∧
    (∀ x ∈ [(0x00, Reg.id), (0x04, .ctrl), (0x08, .cmd), (0x0C, .status), (0x10, .len0), (0x14, .len1), (0x18, .len2),
        (0x40, .caps)],
      hostReads s x.1 4 = .next { s with responses := .data (s.readReg x.2) :: s.responses }) ∧
    (∀ off width, aligned off width → s.inIbuf off width →
      ∃ w, hostReads s off width = .next { s with responses := .data w :: s.responses } ∧
        ∀ i, i < width → w.extractLsb' (8 * i) 8 = s.ibufByte (off - 0x1000 + i))

/-- R72, R37, R46: a reserved offset reads 0 in every byte, a write to it is ignored and sets no flag; reserved register
fields read 0. -/
def Obligations.ReservedOffsets : Prop :=
  ∀ s : State, s.params.wf →
    (∀ (off width : Nat) (v : Word), aligned off width → s.inReserved off width →
      hostReads s off width = .next { s with responses := .data 0 :: s.responses } ∧
      hostWrites s off width v = .next { s with responses := .written :: s.responses }) ∧
    s.readReg .ctrl &&& 0xFFFFFFF0 = 0 ∧ s.readReg .status &&& 0xFFFFF00C = 0 ∧ s.readReg .result &&& 0xFFFF0080 = 0 ∧
    s.readReg .len0 &&& 0xFFFF0000 = 0 ∧ s.readReg .len1 &&& 0xFFFF0000 = 0 ∧ s.readReg .len2 &&& 0xFFFF0000 = 0 ∧
    ∀ j, s.readReg (.olen j) &&& 0xFFFF0000 = 0

/-- R73, R74, R75: an access of a wrong width or alignment changes no state and answers the error response, read or
write; one of a right width and alignment is answered; an access outside the window does not reach the block: nothing
of it changes, idle or running. That the error response is an answer in `responses` is the model's reading of R75
(DEDUCED: log entry 8), and that an access outside the window is recorded there as not reached (DEDUCED: log entry 9). -/
def Obligations.BusErrors : Prop :=
  (∀ (s : State) (off width : Nat) (v : Word), off < 0x3000 → ¬ aligned off width →
    hostWrites s off width v = .next { s with responses := .busError :: s.responses } ∧
    hostReads s off width = .next { s with responses := .busError :: s.responses }) ∧
  (∀ (s : State) (off width : Nat) (v : Word), off < 0x3000 → aligned off width →
    (∃ t, hostWrites s off width v = .next t ∧ t.responses = .written :: s.responses) ∧
    ∃ t w, hostReads s off width = .next t ∧ t.responses = .data w :: s.responses) ∧
  (∀ (s : State) (addr width : Nat) (v : Word) (rest : List Turn),
    (addr < s.params.blockBase ∨ s.params.blockBase + 0x3000 ≤ addr) →
    step { s with inputs := .host (.write addr width v) :: rest } =
      .next { s with inputs := rest, responses := .notReached :: s.responses } ∧
    step { s with inputs := .host (.read addr width) :: rest } =
      .next { s with inputs := rest, responses := .notReached :: s.responses })

/-- R31, R32, R38, R39, R45, R47, R48, R55, R56, R79, R301, R318: while idle a host read at each offset of the register
map answers that register's word and changes nothing; ID and CAPS are constant, the read-only registers ignore writes,
and the fields of CTRL, CMD, STATUS, LENk, RESULT and OLENj stand where the spec puts them. -/
def Obligations.RegisterLayout : Prop :=
  ∀ s : State, s.params.wf →
    s.readReg .id = 0x4F440007 ∧
    (s.readReg .caps).toNat = s.params.ibufSize + 2 ^ 16 * s.params.obufSize ∧
    (s.busy = false →
      ∀ x ∈ [(0x00, Reg.id), (0x04, .ctrl), (0x08, .cmd), (0x0C, .status), (0x10, .len0), (0x14, .len1), (0x18, .len2),
          (0x1C, .result), (0x20, .olen 0), (0x24, .olen 1), (0x28, .olen 2), (0x2C, .olen 3), (0x30, .olen 4),
          (0x34, .olen 5), (0x38, .olen 6), (0x3C, .olen 7), (0x40, .caps)],
        hostReads s x.1 4 = .next { s with responses := .data (s.readReg x.2) :: s.responses }) ∧
    (s.readReg .ctrl).toNat = 2 * s.ie.toNat ∧ s.readReg .cmd = s.cmd ∧
    (s.readReg .len0).toNat = s.len0.toNat ∧ (s.readReg .len1).toNat = s.len1.toNat ∧
    (s.readReg .len2).toNat = s.len2.toNat ∧
    (∀ (off : Nat) (v : Word), off ∈ [0x00, 0x0C, 0x1C, 0x20, 0x24, 0x28, 0x2C, 0x30, 0x34, 0x38, 0x3C, 0x40] →
      hostWrites s off 4 v = .next { s with responses := .written :: s.responses }) ∧
    (s.readReg .status).toNat = s.busy.toNat + 2 * s.done.toNat + 2 ^ 4 * s.err.bits.toNat + 2 ^ 8 * s.stage.bits.toNat
      + 2 ^ 10 * s.haz.toNat + 2 ^ 11 * (s.done && s.ie).toNat ∧
    (s.readReg .result).toNat = s.result.valid.toNat + 2 * s.result.comp.toNat + 2 ^ 2 * s.result.recid.toNat
      + 2 ^ 4 * s.result.inf.toNat + 2 ^ 5 * s.result.chain.toNat + 2 ^ 8 * s.result.prefixByte.toNat ∧
    (∀ j, (s.readReg (.olen j)).toNat = s.olen[j].toNat) ∧
    [ErrCode.ok, .malformedEncoding, .unsupportedPrefix, .invalidLength, .invalidCompressionFlag, .pointNotOnCurve,
      .invalidSignatureLength, .invalidRecoveryId, .signatureMismatch, .addressMismatch, .invalidWitnessProgram,
      .checksumMismatch, .operandOutOfRange, .notQuadraticResidue, .notInvertible, .illegalCommand].map
        (fun e => e.bits.toNat) = List.range 16 ∧
    [Stage.interface, .codec, .recovery, .encoding].map (fun st => st.bits.toNat) = [0, 1, 2, 3]

/-! ### What every command shares -/

/-- R113, R114: the operands are consecutive pieces of IBUF of the latched lengths; a well-formed command whose
operands together do not fit IBUF fails with InvalidLength at stage INTERFACE. -/
def Obligations.OperandFraming : Prop :=
  (∀ s : State,
    (s.opnd 0).length = s.cur.len0.toNat ∧ (s.opnd 1).length = s.cur.len1.toNat ∧
    (s.opnd 2).length = s.cur.len2.toNat ∧
    (∀ k (h : k < (s.opnd 0).length), (s.opnd 0)[k] = s.ibufByte k) ∧
    (∀ k (h : k < (s.opnd 1).length), (s.opnd 1)[k] = s.ibufByte (s.cur.len0.toNat + k)) ∧
    (∀ k (h : k < (s.opnd 2).length),
      (s.opnd 2)[k] = s.ibufByte (s.cur.len0.toNat + s.cur.len1.toNat + k))) ∧
  (∀ (i : Instr) (s : State), i.wf = true → ¬ s.fits (operandCount i) → Fails i s .invalidLength .interface)

/-- R117, R119, R300, R82: every command, whatever its operands, ends in a completion: BUSY is 0 and DONE is 1; nothing
but STATUS, RESULT, OLENj and OBUF has changed; and with an error, no result is left. -/
def Obligations.EveryCommandCompletes : Prop :=
  ∀ (i : Instr) (s : State), ∃ t, exec i s = .next t ∧ SameInputs s t ∧ t.busy = false ∧ t.done = true ∧
    t.obuf.epoch = s.obuf.epoch + 1 ∧ ((t.err = .ok ∧ t.stage = .interface) ∨ Failed s t t.err t.stage)

/-- R122, R102, R114: the stage of a failure is the command's, but INTERFACE for an illegal word and for a framing
failure. -/
def Obligations.StageTable : Prop :=
  ∀ (i : Instr) (s t : State), exec i s = .next t → t.err ≠ .ok →
    t.stage = if i.wf = true ∧ s.fits (operandCount i) then stageOf i else .interface

/-- R301, R311: a well-formed, framed command reports only the codes the table names for it; so no command reports
AddressMismatch. -/
def Obligations.ErrorCodesByCommand : Prop :=
  (∀ (i : Instr) (s t : State), s.params.wf → i.wf = true → s.fits (operandCount i) → exec i s = .next t →
    t.err = .ok ∨ t.err ∈ ownErrors i) ∧
  (∀ (i : Instr) (s t : State), exec i s = .next t → t.err ≠ .addressMismatch)

/-- R124: the status, the outputs and RESULT depend on the command, the latched lengths of its operands and their bytes
alone: two states that agree on these, and on the two buffer sizes, agree on the whole outcome. -/
def Obligations.CommandsArePure : Prop :=
  ∀ (i : Instr) (s s' t t' : State), s.params.ibufSize = s'.params.ibufSize → s.params.obufSize = s'.params.obufSize →
    (∀ k, k < operandCount i → s.operandLength k = s'.operandLength k) →
    (s.fits (operandCount i) → ∀ k, k < operandCount i → s.opnd k = s'.opnd k) →
    exec i s = .next t → exec i s' = .next t' →
    t.err = t'.err ∧ t.stage = t'.stage ∧ t.result = t'.result ∧ t.olen = t'.olen ∧ t.busy = t'.busy ∧
      t.done = t'.done ∧ ∀ a, t.obuf.byte? a = t'.obuf.byte? a

/-- R49 to R54: which commands write which field of RESULT; VALID is 1 exactly after a successful VERIFY_MESSAGE. -/
def Obligations.ResultWriters : Prop :=
  ∀ (i : Instr) (s t : State), exec i s = .next t →
    (t.result.valid = true ↔ t.err = .ok ∧ ∃ ch n, i = .verifyMessage ch n) ∧
    (t.result.comp = true → i = .wifDecode ∨ i = .recover ∨ ∃ ch n, i = .verifyMessage ch n) ∧
    (t.result.recid ≠ 0 → i = .recover ∨ ∃ ch n, i = .verifyMessage ch n) ∧
    (t.result.inf = true → (∃ c sub, i = .scalarMult c sub) ∨ ∃ c, i = .pointAdd c) ∧
    (t.result.chain ≠ 0 → ∃ ch n, i = .verifyMessage ch n) ∧
    (t.result.prefixByte ≠ 0 → i = .wifDecode ∨ i = .b58checkDecode)

/-! ### NOP, hashes, message digest -/

/-- R123: NOP completes with success whatever the lengths, no slot emitted, RESULT and every OLENj 0; after a reset
STATUS then reads 2. -/
def Obligations.NopCompletes : Prop :=
  ∀ s : State, Succeeds .nop s [] ResultReg.zero ∧
    ∀ t, exec .nop s = .next t → s.ie = false → s.haz = false → t.readReg .status = 2

/-- R250 to R254: the hash commands complete on any framed operand and emit the hash. (The hash functions R22 names are
the model's, PRESUMED from their standards: log entry 10.) -/
def Obligations.HashCommands : Prop :=
  (∀ s : State, s.params.wf → s.fits 1 →
    Succeeds .sha256 s [(0, sha256 (s.opnd 0))] ResultReg.zero ∧
    Succeeds .sha256d s [(0, sha256 (sha256 (s.opnd 0)))] ResultReg.zero ∧
    Succeeds .ripemd160 s [(0, ripemd160 (s.opnd 0))] ResultReg.zero ∧
    Succeeds .hash160 s [(0, ripemd160 (sha256 (s.opnd 0)))] ResultReg.zero ∧
    Succeeds .keccak256 s [(0, keccak256 (s.opnd 0))] ResultReg.zero) ∧
  (∀ b : Bytes, (sha256 b).length = 32 ∧ (ripemd160 b).length = 20 ∧ (keccak256 b).length = 32)

/-- R250 to R254: the worked examples of the hash commands. -/
def Obligations.HashExamples : Prop :=
  intBE (sha256 (text "abc")) = 0xBA7816BF8F01CFEA414140DE5DAE2223B00361A396177A9CB410FF61F20015AD ∧
  intBE (dsha256 []) = 0x5DF6E0E2761359D30A8275058E299FCC0381534545F55CF43E41983F5D4C9456 ∧
  intBE (ripemd160 (text "abc")) = 0x8EB208F7E05D987A9B044A8E98C6B087F15A0BFC ∧
  intBE (hash160 (0x02 :: beBytes 32 genX)) = 0x751E76E8199196D454941C45D1B3A323F1433BD6 ∧
  intBE (keccak256 []) = 0xC5D2460186F7233C927E7DB2DCC703C0E500B653CA82273B7BFAD8045D85A470

/-- R258, R255, R256: MSG_DIGEST completes on any framed message and emits the double SHA-256 of the chain's magic and
the message, each after its length; a message of 253 bytes or more takes the 3-byte length form. (The hash is the
model's, PRESUMED: log entry 10.) -/
def Obligations.MsgDigestCompletes : Prop :=
  ∀ (s : State) (n : Bool), s.params.wf → s.fits 1 →
    let m := if n = true then normalise (s.opnd 0) else s.opnd 0
    let lengthForm : Bytes :=
      if m.length < 253 then [BitVec.ofNat 8 m.length]
      else [0xFD, BitVec.ofNat 8 (m.length % 256), BitVec.ofNat 8 (m.length / 256)]
    m.length ≤ 8192 ∧
    Succeeds (.msgDigest .btc n) s
      [(0, sha256 (sha256 (0x18 :: (text "Bitcoin Signed Message:" ++ 0x0A :: (lengthForm ++ m)))))] ResultReg.zero ∧
    Succeeds (.msgDigest .ltc n) s
      [(0, sha256 (sha256 (0x19 :: (text "Litecoin Signed Message:" ++ 0x0A :: (lengthForm ++ m)))))] ResultReg.zero

/-- R257: an existing CR LF stays, a lone LF becomes CR LF, any other byte is kept; so normalising twice is
normalising once. -/
def Obligations.NormaliseLines : Prop :=
  normalise [] = [] ∧
  (∀ m : Bytes, normalise (0x0D :: 0x0A :: m) = 0x0D :: 0x0A :: normalise m) ∧
  (∀ m : Bytes, normalise (0x0A :: m) = 0x0D :: 0x0A :: normalise m) ∧
  (∀ (x : Byte) (m : Bytes), x ≠ 0x0A → ¬ (x = 0x0D ∧ m.head? = some 0x0A) → normalise (x :: m) = x :: normalise m) ∧
  (∀ m : Bytes, normalise (normalise m) = normalise m)

/-! ### Base58Check -/

/-- R144, R146, R147, R116: B58_ENCODE and B58CHECK_ENCODE complete when their text fits OBUF, and fail with
InvalidLength at stage CODEC when it does not; B58_CHECKSUM completes with the first 4 bytes of the double SHA-256. -/
def Obligations.B58EncodeCommands : Prop :=
  ∀ s : State, s.params.wf → s.fits 1 →
    let b := s.opnd 0
    let checked := b ++ (sha256 (sha256 b)).take 4
    ((b58enc b).length ≤ s.params.obufSize → Succeeds .b58Encode s [(0, b58enc b)] ResultReg.zero) ∧
    (s.params.obufSize < (b58enc b).length → Fails .b58Encode s .invalidLength .codec) ∧
    ((b58enc checked).length ≤ s.params.obufSize →
      Succeeds .b58checkEncode s [(0, b58enc checked)] ResultReg.zero) ∧
    (s.params.obufSize < (b58enc checked).length → Fails .b58checkEncode s .invalidLength .codec) ∧
    Succeeds .b58Checksum s [(0, (sha256 (sha256 b)).take 4)] ResultReg.zero

/-- R145, R116: B58_DECODE of the Base58 text of `b` emits `b`; it fails with MalformedEncoding when a byte of the text
is not in the alphabet, and with InvalidLength when the bytes do not fit OBUF. -/
def Obligations.B58DecodeCommand : Prop :=
  ∀ (s : State) (b : Bytes), s.params.wf → s.fits 1 →
    (s.opnd 0 = b58enc b → b.length ≤ s.params.obufSize → Succeeds .b58Decode s [(0, b)] ResultReg.zero) ∧
    (s.opnd 0 = b58enc b → s.params.obufSize < b.length → Fails .b58Decode s .invalidLength .codec) ∧
    ((∃ c ∈ s.opnd 0, c ∉ text "123456789ABCDEFGHJKLMNPQRSTUVWXYZabcdefghijkmnopqrstuvwxyz") →
      Fails .b58Decode s .malformedEncoding .codec)

/-- R148: B58CHECK_DECODE of the text of a body and 4 more bytes emits the body and writes its first byte to PREFIX when
those 4 bytes are its checksum, and fails with ChecksumMismatch when not; a shorter string fails with InvalidLength,
and a byte outside the alphabet with MalformedEncoding. -/
def Obligations.B58checkDecodeCommand : Prop :=
  ∀ s : State, s.params.wf → s.fits 1 →
    (∀ body tail : Bytes, tail.length = 4 → s.opnd 0 = b58enc (body ++ tail) →
      (tail = (sha256 (sha256 body)).take 4 → body.length ≤ s.params.obufSize →
        Succeeds .b58checkDecode s [(0, body)] { ResultReg.zero with prefixByte := body.headD 0 }) ∧
      (tail = (sha256 (sha256 body)).take 4 → s.params.obufSize < body.length →
        Fails .b58checkDecode s .invalidLength .codec) ∧
      (tail ≠ (sha256 (sha256 body)).take 4 → Fails .b58checkDecode s .checksumMismatch .codec)) ∧
    (∀ raw : Bytes, raw.length < 4 → s.opnd 0 = b58enc raw → Fails .b58checkDecode s .invalidLength .codec) ∧
    ((∃ c ∈ s.opnd 0, c ∉ text "123456789ABCDEFGHJKLMNPQRSTUVWXYZabcdefghijkmnopqrstuvwxyz") →
      Fails .b58checkDecode s .malformedEncoding .codec)

/-- R142: b58dec(b58enc(b)) = b for every byte string, and b58enc(b58dec(t)) = t for every text over the alphabet. -/
def Obligations.Base58RoundTrips : Prop :=
  (∀ b : Bytes, b58dec (b58enc b) = .ok b) ∧
  (∀ t : Bytes, (∀ c ∈ t, c ∈ text "123456789ABCDEFGHJKLMNPQRSTUVWXYZabcdefghijkmnopqrstuvwxyz") →
    ∃ b, b58dec t = .ok b ∧ b58enc b = t)

/-! ### Bech32 -/

/-- R166, R165: BECH32_ENCODE completes on a 20-byte program with the address text, 42 characters for Bitcoin and 43 for
Litecoin, and fails with InvalidWitnessProgram at stage CODEC on any other length. -/
def Obligations.Bech32EncodeCommand : Prop :=
  ∀ s : State, s.params.wf → s.fits 1 →
    ((s.opnd 0).length = 20 →
      Succeeds (.bech32Encode .btc) s [(0, bech32EncodeText (text "bc") (s.opnd 0))] ResultReg.zero ∧
      Succeeds (.bech32Encode .ltc) s [(0, bech32EncodeText (text "ltc") (s.opnd 0))] ResultReg.zero ∧
      (bech32EncodeText (text "bc") (s.opnd 0)).length = 42 ∧
      (bech32EncodeText (text "ltc") (s.opnd 0)).length = 43) ∧
    ((s.opnd 0).length ≠ 20 →
      Fails (.bech32Encode .btc) s .invalidWitnessProgram .codec ∧
      Fails (.bech32Encode .ltc) s .invalidWitnessProgram .codec)

/-- R168, R167: BECH32_DECODE completes with the 20-byte program that the decoding of its text for its chain gives, and
fails at stage CODEC with the code the decoding raises. Which text gives which, in the order of R167: MalformedEncoding
for a length outside 8..90, a byte outside 0x21..0x7E, mixed case, no `1`, nothing before the last `1`, fewer than six
characters after it, or one of them outside the alphabet. Otherwise, with `d` the values of the characters after the last
`1`: UnsupportedPrefix when the text before it, in lower case, is not the chain's; ChecksumMismatch when the polymod of
the expanded prefix (R162, written out) and `d` is not 1; InvalidWitnessProgram when no version stands before the six
checksum values, when it is not 0, when the bits left over after the program's whole bytes are five or more or not all 0,
and when the bytes are not 20; success when they are. R161: `polymod` is 1 on no values, and takes each further value by
the step of R161, its five constants written out. -/
def Obligations.Bech32DecodeCommand : Prop :=
  (∀ (s : State) (ch : ChSel) (hrp : Bytes) (expanded : List Nat),
    (ch = .btc ∧ hrp = text "bc" ∧ expanded = [3, 3, 0, 2, 3]) ∨
      (ch = .ltc ∧ hrp = text "ltc" ∧ expanded = [3, 3, 3, 0, 12, 20, 3]) →
    s.params.wf → s.fits 1 →
    let b := s.opnd 0
    let alphabet := text "qpzry9x8gf2tvdw0s3jn54khce6mua7l"
    let lower : Byte → Byte := fun c => if 0x41 ≤ c.toNat ∧ c.toNat ≤ 0x5A then c + 0x20 else c
    (∀ prog, bech32DecodeText hrp b = .ok prog →
      prog.length = 20 ∧ Succeeds (.bech32Decode ch) s [(0, prog)] ResultReg.zero) ∧
    (∀ e, bech32DecodeText hrp b = .error e → Fails (.bech32Decode ch) s e .codec) ∧
    (b.length < 8 ∨ 90 < b.length → Fails (.bech32Decode ch) s .malformedEncoding .codec) ∧
    ((∃ c ∈ b, c.toNat < 0x21 ∨ 0x7E < c.toNat) → Fails (.bech32Decode ch) s .malformedEncoding .codec) ∧
    ((∃ c ∈ b, 0x61 ≤ c.toNat ∧ c.toNat ≤ 0x7A) → (∃ c ∈ b, 0x41 ≤ c.toNat ∧ c.toNat ≤ 0x5A) →
      Fails (.bech32Decode ch) s .malformedEncoding .codec) ∧
    (0x31 ∉ b → Fails (.bech32Decode ch) s .malformedEncoding .codec) ∧
    (∀ pre rest : Bytes, b = pre ++ 0x31 :: rest → 0x31 ∉ rest →
      (pre = [] ∨ rest.length < 6 ∨ ∃ c ∈ rest, lower c ∉ alphabet) →
      Fails (.bech32Decode ch) s .malformedEncoding .codec) ∧
    (∀ (pre : Bytes) (d : List Nat), 8 ≤ b.length → b.length ≤ 90 → (∀ c ∈ b, 0x21 ≤ c.toNat ∧ c.toNat ≤ 0x7E) →
      ((∀ c ∈ b, ¬ (0x61 ≤ c.toNat ∧ c.toNat ≤ 0x7A)) ∨ ∀ c ∈ b, ¬ (0x41 ≤ c.toNat ∧ c.toNat ≤ 0x5A)) →
      (∀ v ∈ d, v < 32) → b.map lower = pre ++ 0x31 :: d.map (byteAt alphabet) → pre ≠ [] → 6 ≤ d.length →
      let size := 5 * (d.length - 7)
      let value := ofDigits 32 ((d.drop 1).take (d.length - 7))
      (pre ≠ hrp → Fails (.bech32Decode ch) s .unsupportedPrefix .codec) ∧
      (pre = hrp → polymod (expanded ++ d) ≠ 1 → Fails (.bech32Decode ch) s .checksumMismatch .codec) ∧
      (pre = hrp → polymod (expanded ++ d) = 1 →
        (d.length = 6 → Fails (.bech32Decode ch) s .invalidWitnessProgram .codec) ∧
        (7 ≤ d.length → d.head? ≠ some 0 → Fails (.bech32Decode ch) s .invalidWitnessProgram .codec) ∧
        (7 ≤ d.length → d.head? = some 0 →
          (5 ≤ size % 8 ∨ value % 2 ^ (size % 8) ≠ 0 →
            Fails (.bech32Decode ch) s .invalidWitnessProgram .codec) ∧
          (size % 8 < 5 → value % 2 ^ (size % 8) = 0 → size / 8 ≠ 20 →
            Fails (.bech32Decode ch) s .invalidWitnessProgram .codec) ∧
          (size % 8 < 5 → value % 2 ^ (size % 8) = 0 → size / 8 = 20 →
            Succeeds (.bech32Decode ch) s [(0, beBytes 20 (value / 2 ^ (size % 8)))] ResultReg.zero))))) ∧
  polymod [] = 1 ∧
  ∀ (values : List Nat) (v : Nat),
    let c := polymod values
    polymod (values ++ [v]) = ((c &&& 0x1FFFFFF) <<< 5) ^^^ BitVec.ofNat 30 v
      ^^^ (if c.getLsbD 25 = true then 0x3B6A57B2 else 0) ^^^ (if c.getLsbD 26 = true then 0x26508E6D else 0)
      ^^^ (if c.getLsbD 27 = true then 0x1EA119FA else 0) ^^^ (if c.getLsbD 28 = true then 0x3D4233DD else 0)
      ^^^ (if c.getLsbD 29 = true then 0x2A1462B3 else 0)

/-- R168, R167: bech32_decode(HRP(CH), bech32_encode(HRP(CH), prog)) = prog for every 20-byte program; the all-upper-case
form decodes like it; and the text of one chain is refused for the other with UnsupportedPrefix. -/
def Obligations.Bech32RoundTrip : Prop :=
  ∀ prog : Bytes, prog.length = 20 → ∀ ch : Chain,
    bech32DecodeText (hrpOf ch) (bech32EncodeText (hrpOf ch) prog) = .ok prog ∧
    bech32DecodeText (hrpOf ch)
      ((bech32EncodeText (hrpOf ch) prog).map fun c => if 0x61 ≤ c.toNat ∧ c.toNat ≤ 0x7A then c - 0x20 else c)
      = .ok prog ∧
    ∀ other : Chain, other ≠ ch →
      bech32DecodeText (hrpOf other) (bech32EncodeText (hrpOf ch) prog) = .error .unsupportedPrefix

/-! ### Points and the field -/

/-- R125, R127: a point operand parses exactly when it is one of the two encodings of a point of the group (the byte 00
for O, only where O is allowed), and then to that point; each other operand gives the code the rule names. -/
def Obligations.ParsePointExact : Prop :=
  (∀ (b : Bytes) (allowInf : Bool) (p : Point),
    parsePoint b allowInf = .ok p ↔ EncodesPoint b p ∧ (p = .infinity → allowInf = true)) ∧
  (∀ allowInf : Bool, parsePoint [] allowInf = .error .invalidLength) ∧
  (∀ (t : Byte) (rest : Bytes) (allowInf : Bool),
    (t = 0x02 ∨ t = 0x03 → rest.length ≠ 32 → parsePoint (t :: rest) allowInf = .error .invalidLength) ∧
    (t = 0x04 → rest.length ≠ 64 → parsePoint (t :: rest) allowInf = .error .invalidLength) ∧
    (t = 0x00 → allowInf = true → rest ≠ [] → parsePoint (t :: rest) allowInf = .error .invalidLength) ∧
    (t ≠ 0x02 ∧ t ≠ 0x03 ∧ t ≠ 0x04 ∧ ¬ (t = 0x00 ∧ allowInf = true) →
      parsePoint (t :: rest) allowInf = .error .malformedEncoding) ∧
    (((t = 0x02 ∨ t = 0x03) ∧ rest.length = 32) ∨ (t = 0x04 ∧ rest.length = 64) →
      (¬ ∃ p, EncodesPoint (t :: rest) p) → parsePoint (t :: rest) allowInf = .error .pointNotOnCurve))

/-- R185, R186, R191: on either encoding of a finite point of the group COMPRESS emits the 33-byte one and DECOMPRESS
the 65-byte one; on any other operand both fail at stage CODEC with the code of parse_point. -/
def Obligations.CompressDecompress : Prop :=
  ∀ s : State, s.params.wf → s.fits 1 →
    (∀ x y : Nat, EncodesXY (s.opnd 0) x y →
      Succeeds .compress s [(0, (if y % 2 = 0 then 0x02 else 0x03) :: beBytes 32 x)] ResultReg.zero ∧
      Succeeds .decompress s [(0, 0x04 :: (beBytes 32 x ++ beBytes 32 y))] ResultReg.zero) ∧
    (∀ e, parsePoint (s.opnd 0) false = .error e → Fails .compress s e .codec ∧ Fails .decompress s e .codec)

/-- R187, R128: SCALAR_MULT emits k·P in the form C asks for, the byte 00 with INF = 1 for O: P is G when S = 1 (one
operand) and operand 1 when S = 0; a scalar that is not 32 bytes fails with InvalidLength, then a bad point with the
code of parse_point, at stage RECOVERY. -/
def Obligations.ScalarMultCommand : Prop :=
  ∀ (s : State) (c : Bool), s.params.wf →
    let k := intBE (s.opnd 0)
    (s.fits 1 → (s.opnd 0).length = 32 →
      Succeeds (.scalarMult c true) s [(0, ser (pointMul k genG) c)]
        { ResultReg.zero with inf := decide (pointMul k genG = .infinity) }) ∧
    (s.fits 1 → (s.opnd 0).length ≠ 32 → Fails (.scalarMult c true) s .invalidLength .recovery) ∧
    (s.fits 2 → (s.opnd 0).length ≠ 32 → Fails (.scalarMult c false) s .invalidLength .recovery) ∧
    (s.fits 2 → (s.opnd 0).length = 32 →
      (∀ p, EncodesPoint (s.opnd 1) p →
        Succeeds (.scalarMult c false) s [(0, ser (pointMul k p) c)]
          { ResultReg.zero with inf := decide (pointMul k p = .infinity) }) ∧
      (∀ e, parsePoint (s.opnd 1) true = .error e → Fails (.scalarMult c false) s e .recovery))

/-- R188, R128: POINT_ADD emits P + Q in the form C asks for, the byte 00 with INF = 1 for O, and fails at stage
RECOVERY with the code of parse_point for P first and then for Q. -/
def Obligations.PointAddCommand : Prop :=
  ∀ (s : State) (c : Bool), s.params.wf → s.fits 2 →
    (∀ p q : Point, EncodesPoint (s.opnd 0) p → EncodesPoint (s.opnd 1) q →
      Succeeds (.pointAdd c) s [(0, ser (pointAdd p q) c)]
        { ResultReg.zero with inf := decide (pointAdd p q = .infinity) }) ∧
    (∀ e, parsePoint (s.opnd 0) true = .error e → Fails (.pointAdd c) s e .recovery) ∧
    (∀ p e, EncodesPoint (s.opnd 0) p → parsePoint (s.opnd 1) true = .error e → Fails (.pointAdd c) s e .recovery)

/-- R181, R182: the sum of two finite points of the group that are not opposite is the finite point given by the slope
l of the chord, or of the tangent when they are equal, as equations in the field; of opposite points, O. -/
def Obligations.PointAddFormula : Prop :=
  ∀ x1 y1 x2 y2 : Nat, (Point.affine x1 y1).onCurve = true → (Point.affine x2 y2).onCurve = true →
    (x1 = x2 ∧ (y1 + y2) % fieldP = 0 → pointAdd (.affine x1 y1) (.affine x2 y2) = .infinity) ∧
    (¬ (x1 = x2 ∧ (y1 + y2) % fieldP = 0) →
      ∃ x3 y3 : Nat, pointAdd (.affine x1 y1) (.affine x2 y2) = .affine x3 y3 ∧ x3 < fieldP ∧ y3 < fieldP ∧
        ∃ l : ZMod fieldP,
          (x1 = x2 → l * (2 * (y1 : ZMod fieldP)) = 3 * (x1 : ZMod fieldP) ^ 2) ∧
          (x1 ≠ x2 → l * ((x2 : ZMod fieldP) - x1) = (y2 : ZMod fieldP) - y1) ∧
          (x3 : ZMod fieldP) = l ^ 2 - x1 - x2 ∧ (y3 : ZMod fieldP) = l * ((x1 : ZMod fieldP) - x3) - y1)

/-- R180, R181: the points of the group are a commutative group under addition, with identity O and inverse −P. -/
def Obligations.PointGroupLaws : Prop :=
  ∀ p q r : Point, p.onCurve = true → q.onCurve = true → r.onCurve = true →
    (pointAdd p q).onCurve = true ∧ pointAdd p q = pointAdd q p ∧
    pointAdd (pointAdd p q) r = pointAdd p (pointAdd q r) ∧
    pointAdd .infinity p = p ∧ pointAdd p .infinity = p ∧
    (pointNeg p).onCurve = true ∧ pointAdd p (pointNeg p) = .infinity

/-- R183: k·P, computed by doubling and adding (DEDUCED: log entry 11), is P added to itself k times, for every k and
every point of the group; and it is a point of the group. -/
def Obligations.ScalarMultIsRepeatedAddition : Prop :=
  ∀ (k : Nat) (p : Point), p.onCurve = true →
    (pointMul k p).onCurve = true ∧ pointMul k p = pointMulRepeated k p

/-- R189, R184: MOD_SQRT emits v^((p+1)/4) mod p, which is a square root of v, when v is a square mod p; its failures,
in order, are InvalidLength, OperandOutOfRange and NotQuadraticResidue, at stage RECOVERY. -/
def Obligations.ModSqrtCommand : Prop :=
  ∀ s : State, s.params.wf → s.fits 1 →
    let v := intBE (s.opnd 0)
    ((s.opnd 0).length ≠ 32 → Fails .modSqrt s .invalidLength .recovery) ∧
    ((s.opnd 0).length = 32 → fieldP ≤ v → Fails .modSqrt s .operandOutOfRange .recovery) ∧
    ((s.opnd 0).length = 32 → v < fieldP → (¬ ∃ y, y * y % fieldP = v) →
      Fails .modSqrt s .notQuadraticResidue .recovery) ∧
    ((s.opnd 0).length = 32 → v < fieldP → (∃ y, y * y % fieldP = v) →
      ∃ y, y < fieldP ∧ y * y % fieldP = v ∧ y = v ^ ((fieldP + 1) / 4) % fieldP ∧
        Succeeds .modSqrt s [(0, beBytes 32 y)] ResultReg.zero)

/-- R190, R18, R96: MOD_INV emits the inverse of a mod p (S = 0) or mod n (S = 1) for every a in [1, m − 1]; its
failures, in order, are InvalidLength, OperandOutOfRange and NotInvertible, at stage RECOVERY. -/
def Obligations.ModInvCommand : Prop :=
  ∀ (s : State) (sub : Bool), s.params.wf → s.fits 1 →
    let a := intBE (s.opnd 0)
    let m := if sub = true then orderN else fieldP
    ((s.opnd 0).length ≠ 32 → Fails (.modInv sub) s .invalidLength .recovery) ∧
    ((s.opnd 0).length = 32 → m ≤ a → Fails (.modInv sub) s .operandOutOfRange .recovery) ∧
    ((s.opnd 0).length = 32 → a = 0 → Fails (.modInv sub) s .notInvertible .recovery) ∧
    ((s.opnd 0).length = 32 → 0 < a → a < m →
      ∃ b, b < m ∧ a * b % m = 1 ∧ Succeeds (.modInv sub) s [(0, beBytes 32 b)] ResultReg.zero)

/-! ### WIF keys -/

/-- R214, R210: WIF_ENCODE emits the Base58 text of prefix, scalar, flag and checksum for every prefix byte and every
scalar in [1, n − 1]; 51 characters, or 52 with C = 1, for the prefixes 80 and B0; its failures, in order, are
InvalidLength of operand 0, InvalidLength of operand 1 and OperandOutOfRange, at stage CODEC. -/
def Obligations.WifEncodeCommand : Prop :=
  ∀ (s : State) (c : Bool), s.params.wf → s.fits 2 →
    let k := intBE (s.opnd 1)
    let body := s.opnd 0 ++ s.opnd 1 ++ (if c = true then [0x01] else [])
    let wif := b58enc (body ++ (sha256 (sha256 body)).take 4)
    ((s.opnd 0).length ≠ 1 → Fails (.wifEncode c) s .invalidLength .codec) ∧
    ((s.opnd 0).length = 1 → (s.opnd 1).length ≠ 32 → Fails (.wifEncode c) s .invalidLength .codec) ∧
    ((s.opnd 0).length = 1 → (s.opnd 1).length = 32 → (k = 0 ∨ orderN ≤ k) →
      Fails (.wifEncode c) s .operandOutOfRange .codec) ∧
    ((s.opnd 0).length = 1 → (s.opnd 1).length = 32 → 1 ≤ k → k < orderN →
      Succeeds (.wifEncode c) s [(0, wif)] ResultReg.zero ∧
      (s.opnd 0 = [0x80] ∨ s.opnd 0 = [0xB0] → wif.length = if c = true then 52 else 51))

/-- R216: for every prefix byte q, 32-byte scalar in [1, n − 1] and flag c, WIF_ENCODE succeeds with a text that depends
on these alone, and WIF_DECODE of that text with an accepted set that holds q succeeds with the scalar, PREFIX = q and
COMP = c. -/
def Obligations.WifRoundTrip : Prop :=
  ∀ (q : Byte) (scalar : Bytes) (c : Bool), scalar.length = 32 → 1 ≤ intBE scalar → intBE scalar < orderN →
    let body := q :: (scalar ++ if c = true then [0x01] else [])
    let wif := b58enc (body ++ (sha256 (sha256 body)).take 4)
    (∀ s : State, s.params.wf → s.fits 2 → s.opnd 0 = [q] → s.opnd 1 = scalar →
      Succeeds (.wifEncode c) s [(0, wif)] ResultReg.zero) ∧
    (∀ s : State, s.params.wf → s.fits 2 → s.opnd 0 = wif → q ∈ s.opnd 1 →
      Succeeds .wifDecode s [(0, scalar)] { ResultReg.zero with prefixByte := q, comp := c })

/-- R215, R212, R213: the failures of WIF_DECODE, in their order: a byte outside the alphabet; fewer than 5 decoded
bytes; a wrong checksum; a prefix that is not accepted; a length that is not 37 or 38; a flag (byte 33) that is not 01;
a scalar outside [1, n − 1]. All at stage CODEC. -/
def Obligations.WifDecodeFailures : Prop :=
  ∀ s : State, s.params.wf → s.fits 2 →
    ((∃ c ∈ s.opnd 0, c ∉ text "123456789ABCDEFGHJKLMNPQRSTUVWXYZabcdefghijkmnopqrstuvwxyz") →
      Fails .wifDecode s .malformedEncoding .codec) ∧
    (∀ raw : Bytes, s.opnd 0 = b58enc raw → raw.length < 5 → Fails .wifDecode s .invalidLength .codec) ∧
    (∀ (q : Byte) (rest tail : Bytes), s.opnd 0 = b58enc (q :: rest ++ tail) → tail.length = 4 →
      (tail ≠ (sha256 (sha256 (q :: rest))).take 4 → Fails .wifDecode s .checksumMismatch .codec) ∧
      (tail = (sha256 (sha256 (q :: rest))).take 4 →
        (q ∉ s.opnd 1 → Fails .wifDecode s .unsupportedPrefix .codec) ∧
        (q ∈ s.opnd 1 →
          (rest.length ≠ 32 → rest.length ≠ 33 → Fails .wifDecode s .invalidLength .codec) ∧
          (∀ flag, rest.length = 33 → rest[32]? = some flag → flag ≠ 0x01 →
            Fails .wifDecode s .invalidCompressionFlag .codec) ∧
          (rest.length = 32 ∨ (rest.length = 33 ∧ rest[32]? = some 0x01) →
            (intBE (rest.take 32) = 0 ∨ orderN ≤ intBE (rest.take 32)) →
            Fails .wifDecode s .operandOutOfRange .codec))))

/-! ### Recovery -/

/-- R232, R233, R231, R230: RECOVER of a 32-byte digest e and a signature (header, r, s) in range, whose x = r + (recid
div 2)·n is that of a point (x, y) with the parity of recid, emits Q = r⁻¹·(s·(x, y) + (−e)·G) in the 65-byte form with
COMP and RECID from the header, when Q ≠ O; when Q = O it fails with SignatureMismatch. -/
def Obligations.RecoverCommand : Prop :=
  ∀ (s : State) (recid r sg x y rInv : Nat) (comp : Bool), s.params.wf → s.fits 2 → (s.opnd 0).length = 32 →
    recid < 4 → 1 ≤ r → r < orderN → 1 ≤ sg → sg < orderN →
    s.opnd 1 = BitVec.ofNat 8 (27 + recid + if comp = true then 4 else 0) :: (beBytes 32 r ++ beBytes 32 sg) →
    x = r + recid / 2 * orderN → (Point.affine x y).onCurve = true → y % 2 = recid % 2 →
    rInv < orderN → r * rInv % orderN = 1 →
    let e := intBE (s.opnd 0)
    let q := pointMul rInv (pointAdd (pointMul sg (.affine x y)) (pointMul ((orderN - e % orderN) % orderN) genG))
    (q ≠ .infinity → Succeeds .recover s [(0, ser q false)]
      { ResultReg.zero with comp := comp, recid := BitVec.ofNat 2 recid }) ∧
    (q = .infinity → Fails .recover s .signatureMismatch .recovery)

/-- R233, R232, R231: the other failures of RECOVER, in their order: a digest that is not 32 bytes; a signature that is
not 65; a header outside 27..34; r or s outside [1, n − 1], or no point with that x. All at stage RECOVERY. -/
def Obligations.RecoverFailures : Prop :=
  ∀ s : State, s.params.wf → s.fits 2 →
    ((s.opnd 0).length ≠ 32 → Fails .recover s .invalidLength .recovery) ∧
    ((s.opnd 0).length = 32 → (s.opnd 1).length ≠ 65 → Fails .recover s .invalidSignatureLength .recovery) ∧
    (∀ (h : Byte) (rs ss : Bytes), (s.opnd 0).length = 32 → s.opnd 1 = h :: (rs ++ ss) → rs.length = 32 →
      ss.length = 32 →
      (h.toNat < 27 ∨ 34 < h.toNat → Fails .recover s .invalidRecoveryId .recovery) ∧
      (27 ≤ h.toNat → h.toNat ≤ 34 →
        (intBE rs = 0 ∨ orderN ≤ intBE rs ∨ intBE ss = 0 ∨ orderN ≤ intBE ss ∨
          (∀ y, (Point.affine (intBE rs + (h.toNat - 27) % 4 / 2 * orderN) y).onCurve = false)) →
        Fails .recover s .signatureMismatch .recovery))

/-- R236, R235, R237: VERIFY_MESSAGE, on the chain CH gives or, for AUTO, the one the first byte of the address gives,
completes with the recovered key and the address, and VALID, COMP, RECID and CHAIN in RESULT, when recovery succeeds on
the message's digest and the P2PKH address of the key is the claimed text; it fails with SignatureMismatch when that
address differs, and with recovery's code when recovery fails. -/
def Obligations.VerifyMessageCommand : Prop :=
  ∀ (s : State) (ch : ChSel) (n : Bool) (chain : Chain), s.params.wf → s.fits 3 →
    (ch = .btc ∧ chain = .btc) ∨ (ch = .ltc ∧ chain = .ltc) ∨
      (ch = .auto ∧ chain = if (s.opnd 0).head? = some 0x4C then .ltc else .btc) →
    (∀ q, recoverSig (msgDigest (s.opnd 2) chain n) (s.opnd 1) = .ok q →
      (s.opnd 0 = p2pkhText chain q.key q.comp →
        Succeeds (.verifyMessage ch n) s [(0, ser q.key false), (1, s.opnd 0)]
          { ResultReg.zero with
            valid := true, comp := q.comp, recid := BitVec.ofNat 2 q.recid,
            chain := if chain = .ltc then 1 else 0 }) ∧
      (s.opnd 0 ≠ p2pkhText chain q.key q.comp → Fails (.verifyMessage ch n) s .signatureMismatch .recovery)) ∧
    (∀ e, recoverSig (msgDigest (s.opnd 2) chain n) (s.opnd 1) = .error e →
      Fails (.verifyMessage ch n) s e .recovery)

/-! ### Addresses -/

/-- R261, R263, R265, R260, R262: on either encoding of a finite point of the group P2PKH_ADDR emits the Base58Check text
of the chain's version byte and the key's HASH160 in the form C asks for, P2WPKH_ADDR the Bech32 text of the compressed
key's HASH160, ETH_ADDR the checksummed hexadecimal address; on any other operand each fails at stage ENCODING with the
code of parse_point. (The hashes are the model's, PRESUMED: log entry 10.) -/
def Obligations.AddressCommands : Prop :=
  ∀ s : State, s.params.wf → s.fits 1 →
    (∀ x y : Nat, EncodesXY (s.opnd 0) x y →
      (∀ c : Bool,
        Succeeds (.p2pkhAddr .btc c) s [(0, b58checkText (0x00 :: hash160 (ser (.affine x y) c)))] ResultReg.zero ∧
        Succeeds (.p2pkhAddr .ltc c) s [(0, b58checkText (0x30 :: hash160 (ser (.affine x y) c)))] ResultReg.zero) ∧
      Succeeds (.p2wpkhAddr .btc) s
        [(0, bech32EncodeText (text "bc") (hash160 (ser (.affine x y) true)))] ResultReg.zero ∧
      Succeeds (.p2wpkhAddr .ltc) s
        [(0, bech32EncodeText (text "ltc") (hash160 (ser (.affine x y) true)))] ResultReg.zero ∧
      Succeeds .ethAddr s [(0, ethText (.affine x y))] ResultReg.zero) ∧
    (∀ e, parsePoint (s.opnd 0) false = .error e →
      (∀ c, Fails (.p2pkhAddr .btc c) s e .encoding ∧ Fails (.p2pkhAddr .ltc c) s e .encoding) ∧
      Fails (.p2wpkhAddr .btc) s e .encoding ∧ Fails (.p2wpkhAddr .ltc) s e .encoding ∧ Fails .ethAddr s e .encoding)

/-- R264: the Ethereum address is "0x" and 40 hexadecimal digits, those of the last 20 bytes of the Keccak-256 of x and
y; in lower case t; a letter is upper case exactly when the matching nibble of the Keccak-256 of t is at least 8, the
high nibble of each byte first. (The hash is the model's, PRESUMED: log entry 10.) -/
def Obligations.EthAddressText : Prop :=
  ∀ x y : Nat,
    let a := (keccak256 (beBytes 32 x ++ beBytes 32 y)).drop 12
    let t : Bytes := a.flatMap fun b =>
      [byteAt (text "0123456789abcdef") (b.toNat / 16), byteAt (text "0123456789abcdef") (b.toNat % 16)]
    let h := keccak256 t
    (ethText (.affine x y)).length = 42 ∧ (ethText (.affine x y)).take 2 = text "0x" ∧ t.length = 40 ∧
    ∀ i, i < 40 →
      let nibble := if i % 2 = 0 then (byteAt h (i / 2)).toNat / 16 else (byteAt h (i / 2)).toNat % 16
      byteAt (ethText (.affine x y)) (2 + i) =
        if 0x61 ≤ (byteAt t i).toNat ∧ (byteAt t i).toNat ≤ 0x66 ∧ 8 ≤ nibble then byteAt t i - 0x20 else byteAt t i

/-- R266: ADDRESS_SET emits, in slots 0 to 6, the seven texts that P2PKH_ADDR, P2WPKH_ADDR and ETH_ADDR emit for the
same point, Bitcoin then Litecoin then Ethereum; OLEN7 is 0; on any other operand it fails at stage ENCODING with the
code of parse_point. -/
def Obligations.AddressSetCommand : Prop :=
  ∀ s : State, s.params.wf → s.fits 1 →
    (∀ x y : Nat, EncodesXY (s.opnd 0) x y →
      ∃ a0 a1 a2 a3 a4 a5 a6 : Bytes,
        Succeeds .addressSet s [(0, a0), (1, a1), (2, a2), (3, a3), (4, a4), (5, a5), (6, a6)] ResultReg.zero ∧
        Succeeds (.p2pkhAddr .btc true) s [(0, a0)] ResultReg.zero ∧
        Succeeds (.p2pkhAddr .btc false) s [(0, a1)] ResultReg.zero ∧
        Succeeds (.p2wpkhAddr .btc) s [(0, a2)] ResultReg.zero ∧
        Succeeds (.p2pkhAddr .ltc true) s [(0, a3)] ResultReg.zero ∧
        Succeeds (.p2pkhAddr .ltc false) s [(0, a4)] ResultReg.zero ∧
        Succeeds (.p2wpkhAddr .ltc) s [(0, a5)] ResultReg.zero ∧
        Succeeds .ethAddr s [(0, a6)] ResultReg.zero ∧
        a0.length ≤ 34 ∧ a1.length ≤ 34 ∧ a2.length = 42 ∧ a3.length = 34 ∧ a4.length = 34 ∧ a5.length = 43 ∧
        a6.length = 42) ∧
    (∀ e, parsePoint (s.opnd 0) false = .error e → Fails .addressSet s e .encoding)

end ObligationStatements
end

