-- ==== Sys2Proof/Laws/Bytes.lean ====
section
/-!
SUPPORT. Byte strings and the integers in them: lengths, and that the big-endian forms are inverse to each other.
-/

namespace Sys2Proof.Machine

/-! ### Digits -/

@[simp] theorem ofDigits_nil (base : Nat) : ofDigits base [] = 0 := rfl

theorem ofDigits_append_single (base : Nat) (ds : List Nat) (d : Nat) :
    ofDigits base (ds ++ [d]) = ofDigits base ds * base + d := by
  simp [ofDigits, List.foldl_append]

theorem foldl_digits (base : Nat) (ds : List Nat) (v : Nat) :
    ds.foldl (fun v d => v * base + d) v = v * base ^ ds.length + ofDigits base ds := by
  induction ds generalizing v with
  | nil => simp
  | cons d ds ih =>
    have e : ofDigits base (d :: ds) = ds.foldl (fun v d => v * base + d) (0 * base + d) := rfl
    rw [List.foldl_cons, ih, e, ih, List.length_cons, pow_succ']
    ring

theorem ofDigits_append (base : Nat) (ds es : List Nat) :
    ofDigits base (ds ++ es) = ofDigits base ds * base ^ es.length + ofDigits base es := by
  rw [ofDigits, List.foldl_append, foldl_digits]
  rfl

/-- The digits of `v`, put before `acc`, are worth v followed by `acc`. -/
theorem ofDigits_toDigits {base : Nat} (fuel v : Nat) (acc : List Nat) (h : v < base ^ fuel) :
    ofDigits base (toDigits base fuel v acc) = v * base ^ acc.length + ofDigits base acc := by
  induction fuel generalizing v acc with
  | zero =>
    obtain rfl : v = 0 := by simpa using h
    simp [toDigits]
  | succ fuel ih =>
    rw [toDigits]
    by_cases h0 : v = 0
    · simp [h0]
    · have hlt : v / base < base ^ fuel := Nat.div_lt_of_lt_mul (by rwa [pow_succ'] at h)
      have e : base * (v / base) + v % base = v := Nat.div_add_mod v base
      rw [if_neg h0, ih _ _ hlt, List.length_cons, show v % base :: acc = [v % base] ++ acc from rfl,
        ofDigits_append, pow_succ', ← mul_assoc]
      conv_rhs => rw [← e]
      simp only [ofDigits, List.foldl_cons, List.foldl_nil]
      ring

/-! ### Big-endian and little-endian strings -/

@[simp] theorem leBytes_length (k v : Nat) : (leBytes k v).length = k := by
  induction k generalizing v with
  | zero => rfl
  | succ k ih => simp [leBytes, ih]

@[simp] theorem beBytes_length (k v : Nat) : (beBytes k v).length = k := by simp [beBytes]

theorem intBE_append (a b : Bytes) : intBE (a ++ b) = intBE a * 256 ^ b.length + intBE b := by
  simp [intBE, ofDigits_append]

@[simp] theorem intBE_nil : intBE [] = 0 := rfl

@[simp] theorem intBE_single (x : Byte) : intBE [x] = x.toNat := by simp [intBE, ofDigits]

theorem beBytes_succ (k v : Nat) : beBytes (k + 1) v = beBytes k (v / 256) ++ [BitVec.ofNat 8 v] := by
  simp [beBytes, leBytes]

/-- `int_be(be_N(v)) = v` for v < 256^N (R17). -/
theorem intBE_beBytes {k v : Nat} (h : v < 256 ^ k) : intBE (beBytes k v) = v := by
  induction k generalizing v with
  | zero =>
    obtain rfl : v = 0 := by simpa using h
    rfl
  | succ k ih =>
    have hlt : v / 256 < 256 ^ k := Nat.div_lt_of_lt_mul (by rwa [pow_succ'] at h)
    rw [beBytes_succ, intBE_append, ih hlt, intBE_single, BitVec.toNat_ofNat]
    simp only [List.length_singleton, pow_one]
    omega

theorem intBE_lt (b : Bytes) : intBE b < 256 ^ b.length := by
  induction b using List.reverseRecOn with
  | nil => simp
  | append_singleton b x ih =>
    rw [intBE_append, intBE_single, List.length_append, List.length_singleton, pow_one, pow_succ]
    have := x.isLt
    omega

/-- `be_N(int_be(b)) = b` for a string of N bytes (R17). -/
theorem beBytes_intBE (b : Bytes) : beBytes b.length (intBE b) = b := by
  induction b using List.reverseRecOn with
  | nil => rfl
  | append_singleton b x ih =>
    have hx := x.isLt
    rw [List.length_append, List.length_singleton, beBytes_succ, intBE_append, intBE_single, List.length_singleton,
      pow_one, show (intBE b * 256 + x.toNat) / 256 = intBE b by omega, ih]
    congr 2
    apply BitVec.eq_of_toNat_eq
    rw [BitVec.toNat_ofNat]
    omega

theorem slice_length (b : Bytes) (i j : Nat) : (slice b i j).length = min (j - i) (b.length - i) := by
  simp [slice]

end Sys2Proof.Machine
end

