-- ==== Sys2Proof/Laws/Bech32.lean ====
section
/-!
SUPPORT. Regrouping of bits (R163) and the Bech32 checksum (R161), said once.
-/

namespace Sys2Proof.Machine

/-- What the regrouping of the `src`-bit values `vs` into `dst`-bit values has reached: every value is in `acc`, `bits`
of its low bits are still held, and the groups given are the digits of the rest. -/
structure Regrouped (src dst : Nat) (vs : List Nat) (r : Regroup) : Prop where
  acc : r.acc = ofDigits (2 ^ src) vs
  count : dst * r.out.length + r.bits = src * vs.length
  value : ofDigits (2 ^ dst) r.out = r.acc / 2 ^ r.bits
  range : ∀ o ∈ r.out, o < 2 ^ dst

/-- Draining with enough passes leaves fewer than `dst` bits and keeps what is said of the accumulator. -/
theorem regroupDrain_spec {src dst : Nat} (vs : List Nat) (hd : 0 < dst) (fuel : Nat) (r : Regroup)
    (h : Regrouped src dst vs r) (hf : r.bits ≤ fuel) :
    Regrouped src dst vs (regroupDrain dst fuel r) ∧ (regroupDrain dst fuel r).bits < dst := by
  induction fuel generalizing r with
  | zero => exact ⟨h, by simpa [regroupDrain] using (by omega : r.bits < dst)⟩
  | succ fuel ih =>
    rw [regroupDrain]
    split
    · have hb : r.bits - dst + dst = r.bits := Nat.sub_add_cancel ‹_›
      refine ih _ ⟨h.acc, ?_, ?_, ?_⟩ (by simp only; omega)
      · have := h.count
        simp only [List.length_append, List.length_singleton, Nat.mul_add]
        omega
      · have e : r.acc / 2 ^ r.bits = r.acc / 2 ^ (r.bits - dst) / 2 ^ dst := by
          rw [Nat.div_div_eq_div_mul, ← pow_add, hb]
        rw [ofDigits_append_single, h.value, Nat.and_two_pow_sub_one_eq_mod, Nat.shiftRight_eq_div_pow, e]
        exact Nat.div_add_mod' _ _
      · intro o ho
        rcases List.mem_append.1 ho with ho | ho
        · exact h.range o ho
        · rw [List.mem_singleton.1 ho, Nat.and_two_pow_sub_one_eq_mod]
          exact Nat.mod_lt _ (by positivity)
    · exact ⟨h, by omega⟩

/-- One value more. -/
theorem regroupStep_spec {src dst : Nat} (vs : List Nat) (v : Nat) (hd : 0 < dst) (r : Regroup)
    (h : Regrouped src dst vs r) (hv : v < 2 ^ src) :
    Regrouped src dst (vs ++ [v]) (regroupStep src dst r v) ∧ (regroupStep src dst r v).bits < dst := by
  refine regroupDrain_spec _ hd _ _ ⟨?_, ?_, ?_, h.range⟩ le_rfl
  · rw [ofDigits_append_single, ← h.acc, ← Nat.shiftLeft_add_eq_or_of_lt hv, Nat.shiftLeft_eq]
  · have := h.count
    simp only [List.length_append, List.length_singleton, Nat.mul_add]
    omega
  · simp only
    rw [h.value, ← Nat.shiftLeft_add_eq_or_of_lt hv, Nat.shiftLeft_eq, pow_add, mul_comm (2 ^ r.bits),
      ← Nat.div_div_eq_div_mul, Nat.add_div_of_dvd_right (Dvd.intro_left _ rfl), Nat.div_eq_of_lt hv,
      Nat.mul_div_cancel _ (by positivity), Nat.add_zero]

/-- The outer loop of `convertBits`, on values of `src` bits. -/
theorem regroup_spec {src dst : Nat} (hd : 0 < dst) (vs : List Nat) (hv : ∀ v ∈ vs, v < 2 ^ src) :
    Regrouped src dst vs (vs.foldl (regroupStep src dst) ⟨0, 0, []⟩) ∧
      (vs.foldl (regroupStep src dst) ⟨0, 0, []⟩).bits < dst := by
  induction vs using List.reverseRecOn with
  | nil => exact ⟨⟨rfl, by simp, by simp, by simp⟩, hd⟩
  | append_singleton vs v ih =>
    rw [List.foldl_append, List.foldl_cons, List.foldl_nil]
    exact regroupStep_spec vs v hd _ (ih fun x hx => hv x (by simp [hx])).1 (hv v (by simp))

/-- `convertbits(vs, 5, 8, pad = false)` (R163): it fails when 5 or more bits, or a bit that is not 0, are left over;
otherwise its bytes are the value of `vs` without the left-over bits. -/
theorem convertBits_to_bytes (vs : List Nat) (hv : ∀ v ∈ vs, v < 32) :
    (5 ≤ 5 * vs.length % 8 ∨ ofDigits 32 vs % 2 ^ (5 * vs.length % 8) ≠ 0 → convertBits vs 5 8 false = none) ∧
    (5 * vs.length % 8 < 5 → ofDigits 32 vs % 2 ^ (5 * vs.length % 8) = 0 →
      ∃ out, convertBits vs 5 8 false = some out ∧ out.length = 5 * vs.length / 8 ∧ (∀ o ∈ out, o < 256) ∧
        ofDigits 256 out = ofDigits 32 vs / 2 ^ (5 * vs.length % 8)) := by
  obtain ⟨h, hb⟩ := regroup_spec (src := 5) (dst := 8) (by omega) vs hv
  unfold convertBits
  generalize vs.foldl (regroupStep 5 8) ⟨0, 0, []⟩ = r at h hb
  have hc := h.count
  have hbits : 5 * vs.length % 8 = r.bits := by omega
  have hlen : r.out.length = 5 * vs.length / 8 := by omega
  have hacc : r.acc = ofDigits 32 vs := h.acc
  have hrest : (r.acc <<< (8 - r.bits)) &&& (2 ^ 8 - 1) = r.acc % 2 ^ r.bits * 2 ^ (8 - r.bits) := by
    rw [Nat.and_two_pow_sub_one_eq_mod, Nat.shiftLeft_eq]
    conv_lhs => rw [show (2 : Nat) ^ 8 = 2 ^ r.bits * 2 ^ (8 - r.bits) by rw [← pow_add]; congr 1; omega]
    exact Nat.mul_mod_mul_right _ _ _
  rw [hbits, ← hacc]
  simp only [hrest, Bool.false_eq_true, if_false]
  refine ⟨fun hx => if_pos ?_, fun h5 h0 => ⟨r.out, ?_, hlen, h.range, h.value⟩⟩
  · simpa using hx
  · rw [if_neg (by simp [h0]; omega)]

/-- One value of the checksum's loop (R161): the state moved up by 5 bits, the value, and the constants that its top
five bits select. -/
theorem polymod_append (vs : List Nat) (v : Nat) :
    polymod (vs ++ [v]) = polymodStep (polymod vs) v := by simp [polymod]

/-! ### The text of an address -/

/-- A byte outside the data alphabet has no value, and the text it stands in none either (R160). -/
theorem bech32Values_of_not_mem {t : Bytes} (h : ∃ c ∈ t, c ∉ bech32Alphabet) : bech32Values t = none := by
  induction t with
  | nil => simp at h
  | cons c t ih =>
    obtain ⟨x, hx, hn⟩ := h
    rcases List.mem_cons.1 hx with rfl | hx
    · have : bech32Value x = none := by
        rw [bech32Value, List.findIdx?_eq_none_iff]
        rintro y hy
        exact beq_eq_false_iff_ne.2 fun e => hn (e ▸ hy)
      simp [bech32Values, this]
    · rw [bech32Values, ih ⟨x, hx, hn⟩]
      cases bech32Value c <;> rfl

/-- The characters of a list of 5-bit values have those values. -/
theorem bech32Values_map {d : List Nat} (h : ∀ v ∈ d, v < 32) : bech32Values (d.map bech32Char) = some d := by
  have one : ∀ v < 32, bech32Value (bech32Char v) = some v := by decide
  induction d with
  | nil => rfl
  | cons v d ih =>
    rw [List.map_cons, bech32Values, one v (h v (by simp)), ih fun x hx => h x (by simp [hx])]

/-- No data character is the separator. -/
theorem bech32Sep_not_mem_map {d : List Nat} (h : ∀ v ∈ d, v < 32) : bech32Sep ∉ d.map bech32Char := by
  have one : ∀ v < 32, bech32Char v ≠ bech32Sep := by decide
  simpa using fun v hv => one v (h v hv)

theorem lastSep_eq_none {s : Bytes} (h : bech32Sep ∉ s) : lastSep s = none := by
  induction s with
  | nil => rfl
  | cons c s ih =>
    rw [List.mem_cons, not_or] at h
    simp [lastSep, ih h.2, Ne.symm h.1]

/-- The last separator of a text is the one with none after it (R160). -/
theorem lastSep_append (pre : Bytes) {rest : Bytes} (h : bech32Sep ∉ rest) :
    lastSep (pre ++ bech32Sep :: rest) = some pre.length := by
  induction pre with
  | nil => simp [lastSep, lastSep_eq_none h]
  | cons c pre ih => simp [lastSep, ih]

/-- What R167 answers for a text in lower case, given its last separator. -/
theorem bech32Parse_append (h pre : Bytes) {rest : Bytes} (hs : bech32Sep ∉ rest) :
    bech32Parse h (pre ++ bech32Sep :: rest) =
      if pre = [] ∨ rest.length < 6 then .error .malformedEncoding
      else
        match bech32Values rest with
        | none => .error .malformedEncoding
        | some d => if pre ≠ h then .error .unsupportedPrefix else bech32Program pre d := by
  have e : (pre.length < 1 ∨ pre.length + 7 > (pre ++ bech32Sep :: rest).length) ↔ (pre = [] ∨ rest.length < 6) := by
    rw [Nat.lt_one_iff, List.length_eq_zero_iff]
    simp only [List.length_append, List.length_cons]
    refine or_congr_right ?_
    omega
  rw [bech32Parse, lastSep_append pre hs]
  have rest_eq : (pre ++ bech32Sep :: rest).drop (pre.length + 1) = rest := by simp [List.drop_append]
  cases hv : bech32Values rest <;> simp only [e, rest_eq, hv, List.take_left]

/-- Lower case is the separator only where the byte itself is. -/
theorem toLowerByte_eq_sep {c : Byte} : toLowerByte c = bech32Sep ↔ c = bech32Sep := by
  revert c
  decide

/-- What R167 answers for a text it splits into a prefix and data values. -/
theorem bech32DecodeText_split {h b pre : Bytes} {d : List Nat} (low : 8 ≤ b.length) (high : b.length ≤ 90)
    (range : ∀ c ∈ b, 0x21 ≤ c.toNat ∧ c.toNat ≤ 0x7E) (oneCase : (b.any isLower && b.any isUpper) = false)
    (hd : ∀ v ∈ d, v < 32) (split : b.map toLowerByte = pre ++ bech32Sep :: d.map bech32Char) (hp : pre ≠ [])
    (hlen : 6 ≤ d.length) :
    bech32DecodeText h b = if pre ≠ h then .error .unsupportedPrefix else bech32Program pre d := by
  have hr : b.any (fun c => decide (c.toNat < 0x21 ∨ c.toNat > 0x7E)) = false := by
    rw [List.any_eq_false]
    intro c hc
    have := range c hc
    simpa using this
  rw [bech32DecodeText, if_neg (by omega), hr, oneCase, split, if_neg (by simp), if_neg (by simp),
    bech32Parse_append h pre (bech32Sep_not_mem_map hd), bech32Values_map hd, if_neg (by simp [hp]; omega)]

end Sys2Proof.Machine
end

