-- ==== Sys2Proof/Laws/Memory.lean ====
section
/-!
SUPPORT. The buffers: a byte read after a write, the bytes a write leaves alone, and the canonical form, which every
memory operation keeps and the reset buffers have.
-/

namespace Sys2Proof.Machine

/-! ### Cells -/

@[simp] theorem lookupCell_cons (i j : Nat) (b : Byte) (l : List Host.Cell) :
    lookupCell j ((i, b) :: l) = if i = j then some b else lookupCell j l := rfl

theorem lookupCell_insertCell (i j : Nat) (b : Byte) (l : List Host.Cell) :
    lookupCell j (insertCell i b l) = if i = j then some b else lookupCell j l := by
  induction l with
  | nil => rfl
  | cons c l ih =>
    obtain ⟨k, c⟩ := c
    rw [insertCell]
    by_cases h1 : i < k
    · rw [if_pos h1, lookupCell_cons]
    by_cases h2 : i = k
    · subst h2
      rw [if_neg h1, if_pos rfl, lookupCell_cons, lookupCell_cons]
      split_ifs <;> rfl
    · rw [if_neg h1, if_neg h2, lookupCell_cons, ih, lookupCell_cons]
      by_cases h : i = j
      · subst h
        rw [if_neg (Ne.symm h2), if_pos rfl, if_pos rfl]
      · rw [if_neg h, if_neg h]

theorem mem_insertCell {i : Nat} {b : Byte} {l : List Host.Cell} {x : Host.Cell} (h : x ∈ insertCell i b l) :
    x = (i, b) ∨ x ∈ l := by
  induction l with
  | nil => simpa [insertCell] using h
  | cons c l ih =>
    obtain ⟨k, c⟩ := c
    unfold insertCell at h
    split_ifs at h with h1 h2
    · simpa using h
    · rcases List.mem_cons.1 h with h | h
      · exact .inl h
      · exact .inr (List.mem_cons_of_mem _ h)
    · rcases List.mem_cons.1 h with h | h
      · exact .inr (h ▸ List.mem_cons_self)
      · rcases ih h with h | h
        · exact .inl h
        · exact .inr (List.mem_cons_of_mem _ h)

theorem insertCell_pairwise {i : Nat} {b : Byte} {l : List Host.Cell} (h : l.Pairwise fun x y => x.1 < y.1) :
    (insertCell i b l).Pairwise fun x y => x.1 < y.1 := by
  induction l with
  | nil => simp [insertCell]
  | cons c l ih =>
    obtain ⟨k, c⟩ := c
    rw [List.pairwise_cons] at h
    unfold insertCell
    split_ifs with h1 h2
    · refine List.pairwise_cons.2 ⟨fun x hx => ?_, List.pairwise_cons.2 h⟩
      rcases List.mem_cons.1 hx with rfl | hx
      · exact h1
      · exact lt_trans h1 (h.1 x hx)
    · subst h2
      exact List.pairwise_cons.2 ⟨h.1, h.2⟩
    · refine List.pairwise_cons.2 ⟨fun x hx => ?_, ih h.2⟩
      rcases mem_insertCell hx with rfl | hx
      · exact lt_of_le_of_ne (not_lt.1 h1) (Ne.symm h2)
      · exact h.1 x hx

/-! ### One byte -/

@[simp] theorem Memory.byte?_put (m : Memory) (i j : Nat) (b : Byte) :
    (m.put i b).byte? j = if i = j then some b else m.byte? j :=
  lookupCell_insertCell i j b m.cells

@[simp] theorem Memory.put_epoch (m : Memory) (i : Nat) (b : Byte) : (m.put i b).epoch = m.epoch := rfl

@[simp] theorem Memory.byte?_forget (m : Memory) (i : Nat) : m.forget.byte? i = none := rfl

@[simp] theorem Memory.forget_cells (m : Memory) : m.forget.cells = [] := rfl

@[simp] theorem Memory.forget_epoch (m : Memory) : m.forget.epoch = m.epoch + 1 := rfl

/-! ### A byte string -/

/-- What a buffer holds after a byte string is stored: the string at its place, everything else as before. -/
theorem Memory.byte?_putBytes (m : Memory) (i a : Nat) (bs : Bytes) :
    (m.putBytes i bs).byte? a = if i ≤ a ∧ a < i + bs.length then bs[a - i]? else m.byte? a := by
  induction bs generalizing m i with
  | nil =>
    rw [Memory.putBytes, if_neg (by simp only [List.length_nil]; omega)]
  | cons b bs ih =>
    rw [Memory.putBytes, ih, Memory.byte?_put]
    by_cases h : i = a
    · subst h
      simp
    · by_cases h2 : i + 1 ≤ a ∧ a < i + 1 + bs.length
      · rw [if_pos h2, if_pos (by simp only [List.length_cons]; omega), show a - i = (a - (i + 1)) + 1 by omega,
          List.getElem?_cons_succ]
      · rw [if_neg h2, if_neg h, if_neg (by simp only [List.length_cons]; omega)]

@[simp] theorem Memory.putBytes_epoch (m : Memory) (i : Nat) (bs : Bytes) : (m.putBytes i bs).epoch = m.epoch := by
  induction bs generalizing m i with
  | nil => rfl
  | cons b bs ih => exact (ih _ _).trans rfl

/-! ### Emitted slots -/

@[simp] theorem putSlots_epoch (m : Memory) (l : List (Fin 8 × Bytes)) : (putSlots m l).epoch = m.epoch := by
  induction l generalizing m with
  | nil => rfl
  | cons x l ih => exact (ih _).trans (Memory.putBytes_epoch _ _ _)

/-- A byte outside every emitted slot is as it was. -/
theorem byte?_putSlots_outside {m : Memory} {l : List (Fin 8 × Bytes)} {a : Nat}
    (h : ∀ x ∈ l, ¬ (slotBase x.1 ≤ a ∧ a < slotBase x.1 + x.2.length)) : (putSlots m l).byte? a = m.byte? a := by
  induction l generalizing m with
  | nil => rfl
  | cons x l ih =>
    obtain ⟨j, b⟩ := x
    rw [putSlots, ih fun y hy => h y (List.mem_cons_of_mem _ hy), Memory.byte?_putBytes,
      if_neg (h _ List.mem_cons_self)]

/-- The bytes of one emitted slot, when no other slot covers them. -/
theorem byte?_putSlots_single (m : Memory) (j : Fin 8) (b : Bytes) (k : Nat) (h : k < b.length) :
    (putSlots m [(j, b)]).byte? (slotBase j + k) = some b[k] := by
  rw [putSlots, putSlots, Memory.byte?_putBytes, if_pos (by omega)]
  simp [h]

/-! ### The canonical form -/

theorem Memory.wf_iff {m : Memory} : m.wf = true ↔ m.cells.Pairwise fun x y => x.1 < y.1 := by simp [Memory.wf]

theorem Memory.below_iff {m : Memory} {n : Nat} : m.below n = true ↔ ∀ x ∈ m.cells, x.1 < n := by
  simp [Memory.below]

@[simp] theorem Memory.wf_forget (m : Memory) : m.forget.wf = true := by simp [Memory.wf]

@[simp] theorem Memory.below_forget (m : Memory) (n : Nat) : m.forget.below n = true := by simp [Memory.below]

theorem Memory.wf_put {m : Memory} (h : m.wf = true) (i : Nat) (b : Byte) : (m.put i b).wf = true :=
  Memory.wf_iff.2 (insertCell_pairwise (Memory.wf_iff.1 h))

theorem Memory.below_put {m : Memory} {n i : Nat} (h : m.below n = true) (hi : i < n) (b : Byte) :
    (m.put i b).below n = true :=
  Memory.below_iff.2 fun x hx => (mem_insertCell hx).elim (fun e => e ▸ hi) (Memory.below_iff.1 h x)

theorem Memory.wf_putBytes {m : Memory} (h : m.wf = true) (i : Nat) (bs : Bytes) : (m.putBytes i bs).wf = true := by
  induction bs generalizing m i with
  | nil => exact h
  | cons b bs ih => exact ih (Memory.wf_put h i b) _

theorem Memory.below_putBytes {m : Memory} {n i : Nat} {bs : Bytes} (h : m.below n = true) (hi : i + bs.length ≤ n) :
    (m.putBytes i bs).below n = true := by
  induction bs generalizing m i with
  | nil => exact h
  | cons b bs ih =>
    rw [List.length_cons] at hi
    exact ih (Memory.below_put h (by omega) b) (by omega)

theorem wf_putSlots {m : Memory} (h : m.wf = true) (l : List (Fin 8 × Bytes)) : (putSlots m l).wf = true := by
  induction l generalizing m with
  | nil => exact h
  | cons x l ih => exact ih (Memory.wf_putBytes h _ _)

theorem below_putSlots {m : Memory} {n : Nat} {l : List (Fin 8 × Bytes)} (h : m.below n = true)
    (hl : slotsFit n l = true) : (putSlots m l).below n = true := by
  induction l generalizing m with
  | nil => exact h
  | cons x l ih =>
    simp only [slotsFit, List.all_cons, Bool.and_eq_true, decide_eq_true_eq] at hl
    exact ih (Memory.below_putBytes h hl.1) hl.2

/-- Both buffers of the reset state have the canonical form. -/
theorem reset_buffers_wf : State.reset.ibuf.wf = true ∧ State.reset.obuf.wf = true := by decide

/-! ### Reading through the free values -/

theorem State.ibufByte_of_byte? {s : State} {i : Nat} {b : Byte} (h : s.ibuf.byte? i = some b) : s.ibufByte i = b := by
  simp [State.ibufByte, h]

theorem State.obufByte_of_byte? {s : State} {i : Nat} {b : Byte} (h : s.obuf.byte? i = some b) : s.obufByte i = b := by
  simp [State.obufByte, h]

@[simp] theorem State.ibufBytes_length (s : State) (i n : Nat) : (s.ibufBytes i n).length = n := by
  simp [State.ibufBytes]

theorem State.ibufBytes_get {s : State} {i n k : Nat} (h : k < n) :
    (s.ibufBytes i n)[k]'(by simpa using h) = s.ibufByte (i + k) := by
  simp [State.ibufBytes]

end Sys2Proof.Machine
end

