-- ==== Sys2Proof/Laws/State.lean ====
section
/-!
SUPPORT. What each update of the state leaves in each field, and what the control-bit operations are in each of their
cases: the simp set over the state, so that no proof unfolds a record update.
-/

namespace Sys2Proof.Machine

variable (s : State)

/-! ### `State.succeed` (R118) -/

@[simp] theorem State.succeed_params (o : Output) : (s.succeed o).params = s.params := rfl
@[simp] theorem State.succeed_ie (o : Output) : (s.succeed o).ie = s.ie := rfl
@[simp] theorem State.succeed_cmd (o : Output) : (s.succeed o).cmd = s.cmd := rfl
@[simp] theorem State.succeed_busy (o : Output) : (s.succeed o).busy = false := rfl
@[simp] theorem State.succeed_done (o : Output) : (s.succeed o).done = true := rfl
@[simp] theorem State.succeed_err (o : Output) : (s.succeed o).err = .ok := rfl
@[simp] theorem State.succeed_stage (o : Output) : (s.succeed o).stage = .interface := rfl
@[simp] theorem State.succeed_haz (o : Output) : (s.succeed o).haz = s.haz := rfl
@[simp] theorem State.succeed_len0 (o : Output) : (s.succeed o).len0 = s.len0 := rfl
@[simp] theorem State.succeed_len1 (o : Output) : (s.succeed o).len1 = s.len1 := rfl
@[simp] theorem State.succeed_len2 (o : Output) : (s.succeed o).len2 = s.len2 := rfl
@[simp] theorem State.succeed_result (o : Output) : (s.succeed o).result = o.result := rfl
@[simp] theorem State.succeed_olen (o : Output) : (s.succeed o).olen = olenOf o.slots := rfl
@[simp] theorem State.succeed_cur (o : Output) : (s.succeed o).cur = s.cur := rfl
@[simp] theorem State.succeed_ibuf (o : Output) : (s.succeed o).ibuf = s.ibuf := rfl
@[simp] theorem State.succeed_obuf (o : Output) : (s.succeed o).obuf = putSlots s.obuf.forget o.slots := rfl
@[simp] theorem State.succeed_draws (o : Output) : (s.succeed o).draws = s.draws := rfl
@[simp] theorem State.succeed_inputs (o : Output) : (s.succeed o).inputs = s.inputs := rfl
@[simp] theorem State.succeed_responses (o : Output) : (s.succeed o).responses = s.responses := rfl

/-! ### `State.fail` (R117) -/

@[simp] theorem State.fail_params (e : ErrCode) (st : Stage) : (s.fail e st).params = s.params := rfl
@[simp] theorem State.fail_ie (e : ErrCode) (st : Stage) : (s.fail e st).ie = s.ie := rfl
@[simp] theorem State.fail_cmd (e : ErrCode) (st : Stage) : (s.fail e st).cmd = s.cmd := rfl
@[simp] theorem State.fail_busy (e : ErrCode) (st : Stage) : (s.fail e st).busy = false := rfl
@[simp] theorem State.fail_done (e : ErrCode) (st : Stage) : (s.fail e st).done = true := rfl
@[simp] theorem State.fail_err (e : ErrCode) (st : Stage) : (s.fail e st).err = e := rfl
@[simp] theorem State.fail_stage (e : ErrCode) (st : Stage) : (s.fail e st).stage = st := rfl
@[simp] theorem State.fail_haz (e : ErrCode) (st : Stage) : (s.fail e st).haz = s.haz := rfl
@[simp] theorem State.fail_len0 (e : ErrCode) (st : Stage) : (s.fail e st).len0 = s.len0 := rfl
@[simp] theorem State.fail_len1 (e : ErrCode) (st : Stage) : (s.fail e st).len1 = s.len1 := rfl
@[simp] theorem State.fail_len2 (e : ErrCode) (st : Stage) : (s.fail e st).len2 = s.len2 := rfl
@[simp] theorem State.fail_result (e : ErrCode) (st : Stage) : (s.fail e st).result = ResultReg.zero := rfl
@[simp] theorem State.fail_olen (e : ErrCode) (st : Stage) : (s.fail e st).olen = olenZero := rfl
@[simp] theorem State.fail_cur (e : ErrCode) (st : Stage) : (s.fail e st).cur = s.cur := rfl
@[simp] theorem State.fail_ibuf (e : ErrCode) (st : Stage) : (s.fail e st).ibuf = s.ibuf := rfl
@[simp] theorem State.fail_obuf (e : ErrCode) (st : Stage) : (s.fail e st).obuf = s.obuf.forget := rfl
@[simp] theorem State.fail_draws (e : ErrCode) (st : Stage) : (s.fail e st).draws = s.draws := rfl
@[simp] theorem State.fail_inputs (e : ErrCode) (st : Stage) : (s.fail e st).inputs = s.inputs := rfl
@[simp] theorem State.fail_responses (e : ErrCode) (st : Stage) : (s.fail e st).responses = s.responses := rfl

/-! ### `State.start` (R111) -/

@[simp] theorem State.start_params : (s.start).params = s.params := rfl
@[simp] theorem State.start_ie : (s.start).ie = s.ie := rfl
@[simp] theorem State.start_cmd : (s.start).cmd = s.cmd := rfl
@[simp] theorem State.start_busy : (s.start).busy = true := rfl
@[simp] theorem State.start_done : (s.start).done = false := rfl
@[simp] theorem State.start_err : (s.start).err = .ok := rfl
@[simp] theorem State.start_stage : (s.start).stage = .interface := rfl
@[simp] theorem State.start_haz : (s.start).haz = s.haz := rfl
@[simp] theorem State.start_len0 : (s.start).len0 = s.len0 := rfl
@[simp] theorem State.start_len1 : (s.start).len1 = s.len1 := rfl
@[simp] theorem State.start_len2 : (s.start).len2 = s.len2 := rfl
@[simp] theorem State.start_result : (s.start).result = ResultReg.zero := rfl
@[simp] theorem State.start_olen : (s.start).olen = olenZero := rfl
@[simp] theorem State.start_cur : (s.start).cur = ⟨s.cmd, s.len0, s.len1, s.len2⟩ := rfl
@[simp] theorem State.start_ibuf : (s.start).ibuf = s.ibuf := rfl
@[simp] theorem State.start_obuf : (s.start).obuf = s.obuf.forget := rfl
@[simp] theorem State.start_draws : (s.start).draws = s.draws := rfl
@[simp] theorem State.start_inputs : (s.start).inputs = s.inputs := rfl
@[simp] theorem State.start_responses : (s.start).responses = s.responses := rfl

/-! ### `State.hazard` (R44) -/

@[simp] theorem State.hazard_params : (s.hazard).params = s.params := rfl
@[simp] theorem State.hazard_ie : (s.hazard).ie = s.ie := rfl
@[simp] theorem State.hazard_cmd : (s.hazard).cmd = s.cmd := rfl
@[simp] theorem State.hazard_busy : (s.hazard).busy = s.busy := rfl
@[simp] theorem State.hazard_done : (s.hazard).done = s.done := rfl
@[simp] theorem State.hazard_err : (s.hazard).err = s.err := rfl
@[simp] theorem State.hazard_stage : (s.hazard).stage = s.stage := rfl
@[simp] theorem State.hazard_haz : (s.hazard).haz = true := rfl
@[simp] theorem State.hazard_len0 : (s.hazard).len0 = s.len0 := rfl
@[simp] theorem State.hazard_len1 : (s.hazard).len1 = s.len1 := rfl
@[simp] theorem State.hazard_len2 : (s.hazard).len2 = s.len2 := rfl
@[simp] theorem State.hazard_result : (s.hazard).result = s.result := rfl
@[simp] theorem State.hazard_olen : (s.hazard).olen = s.olen := rfl
@[simp] theorem State.hazard_cur : (s.hazard).cur = s.cur := rfl
@[simp] theorem State.hazard_ibuf : (s.hazard).ibuf = s.ibuf := rfl
@[simp] theorem State.hazard_obuf : (s.hazard).obuf = s.obuf := rfl
@[simp] theorem State.hazard_draws : (s.hazard).draws = s.draws := rfl
@[simp] theorem State.hazard_inputs : (s.hazard).inputs = s.inputs := rfl
@[simp] theorem State.hazard_responses : (s.hazard).responses = s.responses := rfl

/-! ### `State.softReset` (R332) -/

@[simp] theorem State.softReset_params : (s.softReset).params = s.params := rfl
@[simp] theorem State.softReset_ie : (s.softReset).ie = false := rfl
@[simp] theorem State.softReset_cmd : (s.softReset).cmd = 0 := rfl
@[simp] theorem State.softReset_busy : (s.softReset).busy = false := rfl
@[simp] theorem State.softReset_done : (s.softReset).done = false := rfl
@[simp] theorem State.softReset_err : (s.softReset).err = .ok := rfl
@[simp] theorem State.softReset_stage : (s.softReset).stage = .interface := rfl
@[simp] theorem State.softReset_haz : (s.softReset).haz = false := rfl
@[simp] theorem State.softReset_len0 : (s.softReset).len0 = 0 := rfl
@[simp] theorem State.softReset_len1 : (s.softReset).len1 = 0 := rfl
@[simp] theorem State.softReset_len2 : (s.softReset).len2 = 0 := rfl
@[simp] theorem State.softReset_result : (s.softReset).result = ResultReg.zero := rfl
@[simp] theorem State.softReset_olen : (s.softReset).olen = olenZero := rfl
@[simp] theorem State.softReset_cur : (s.softReset).cur = freeLatch s.draws := rfl
@[simp] theorem State.softReset_ibuf : (s.softReset).ibuf = s.ibuf := rfl
@[simp] theorem State.softReset_obuf : (s.softReset).obuf = s.obuf.forget := rfl
@[simp] theorem State.softReset_draws : (s.softReset).draws = s.draws + 1 := rfl
@[simp] theorem State.softReset_inputs : (s.softReset).inputs = s.inputs := rfl
@[simp] theorem State.softReset_responses : (s.softReset).responses = s.responses := rfl

/-! ### `State.powerOnReset` (R331) -/

@[simp] theorem State.powerOnReset_params : (s.powerOnReset).params = s.params := rfl
@[simp] theorem State.powerOnReset_ie : (s.powerOnReset).ie = false := rfl
@[simp] theorem State.powerOnReset_cmd : (s.powerOnReset).cmd = 0 := rfl
@[simp] theorem State.powerOnReset_busy : (s.powerOnReset).busy = false := rfl
@[simp] theorem State.powerOnReset_done : (s.powerOnReset).done = false := rfl
@[simp] theorem State.powerOnReset_err : (s.powerOnReset).err = .ok := rfl
@[simp] theorem State.powerOnReset_stage : (s.powerOnReset).stage = .interface := rfl
@[simp] theorem State.powerOnReset_haz : (s.powerOnReset).haz = false := rfl
@[simp] theorem State.powerOnReset_len0 : (s.powerOnReset).len0 = 0 := rfl
@[simp] theorem State.powerOnReset_len1 : (s.powerOnReset).len1 = 0 := rfl
@[simp] theorem State.powerOnReset_len2 : (s.powerOnReset).len2 = 0 := rfl
@[simp] theorem State.powerOnReset_result : (s.powerOnReset).result = ResultReg.zero := rfl
@[simp] theorem State.powerOnReset_olen : (s.powerOnReset).olen = olenZero := rfl
@[simp] theorem State.powerOnReset_cur : (s.powerOnReset).cur = freeLatch s.draws := rfl
@[simp] theorem State.powerOnReset_ibuf : (s.powerOnReset).ibuf = s.ibuf.forget := rfl
@[simp] theorem State.powerOnReset_obuf : (s.powerOnReset).obuf = s.obuf.forget := rfl
@[simp] theorem State.powerOnReset_draws : (s.powerOnReset).draws = s.draws + 1 := rfl
@[simp] theorem State.powerOnReset_inputs : (s.powerOnReset).inputs = s.inputs := rfl
@[simp] theorem State.powerOnReset_responses : (s.powerOnReset).responses = s.responses := rfl

/-! ### `State.drew` (R81) -/

@[simp] theorem State.drew_params : (s.drew).params = s.params := rfl
@[simp] theorem State.drew_ie : (s.drew).ie = s.ie := rfl
@[simp] theorem State.drew_cmd : (s.drew).cmd = s.cmd := rfl
@[simp] theorem State.drew_busy : (s.drew).busy = s.busy := rfl
@[simp] theorem State.drew_done : (s.drew).done = s.done := rfl
@[simp] theorem State.drew_err : (s.drew).err = s.err := rfl
@[simp] theorem State.drew_stage : (s.drew).stage = s.stage := rfl
@[simp] theorem State.drew_haz : (s.drew).haz = s.haz := rfl
@[simp] theorem State.drew_len0 : (s.drew).len0 = s.len0 := rfl
@[simp] theorem State.drew_len1 : (s.drew).len1 = s.len1 := rfl
@[simp] theorem State.drew_len2 : (s.drew).len2 = s.len2 := rfl
@[simp] theorem State.drew_result : (s.drew).result = s.result := rfl
@[simp] theorem State.drew_olen : (s.drew).olen = s.olen := rfl
@[simp] theorem State.drew_cur : (s.drew).cur = s.cur := rfl
@[simp] theorem State.drew_ibuf : (s.drew).ibuf = s.ibuf := rfl
@[simp] theorem State.drew_obuf : (s.drew).obuf = s.obuf := rfl
@[simp] theorem State.drew_draws : (s.drew).draws = s.draws + 1 := rfl
@[simp] theorem State.drew_inputs : (s.drew).inputs = s.inputs := rfl
@[simp] theorem State.drew_responses : (s.drew).responses = s.responses := rfl

/-! ### `respond` (R75) -/

@[simp] theorem respond_params (x : State × BusResponse) : (respond x).params = x.1.params := rfl
@[simp] theorem respond_ie (x : State × BusResponse) : (respond x).ie = x.1.ie := rfl
@[simp] theorem respond_cmd (x : State × BusResponse) : (respond x).cmd = x.1.cmd := rfl
@[simp] theorem respond_busy (x : State × BusResponse) : (respond x).busy = x.1.busy := rfl
@[simp] theorem respond_done (x : State × BusResponse) : (respond x).done = x.1.done := rfl
@[simp] theorem respond_err (x : State × BusResponse) : (respond x).err = x.1.err := rfl
@[simp] theorem respond_stage (x : State × BusResponse) : (respond x).stage = x.1.stage := rfl
@[simp] theorem respond_haz (x : State × BusResponse) : (respond x).haz = x.1.haz := rfl
@[simp] theorem respond_len0 (x : State × BusResponse) : (respond x).len0 = x.1.len0 := rfl
@[simp] theorem respond_len1 (x : State × BusResponse) : (respond x).len1 = x.1.len1 := rfl
@[simp] theorem respond_len2 (x : State × BusResponse) : (respond x).len2 = x.1.len2 := rfl
@[simp] theorem respond_result (x : State × BusResponse) : (respond x).result = x.1.result := rfl
@[simp] theorem respond_olen (x : State × BusResponse) : (respond x).olen = x.1.olen := rfl
@[simp] theorem respond_cur (x : State × BusResponse) : (respond x).cur = x.1.cur := rfl
@[simp] theorem respond_ibuf (x : State × BusResponse) : (respond x).ibuf = x.1.ibuf := rfl
@[simp] theorem respond_obuf (x : State × BusResponse) : (respond x).obuf = x.1.obuf := rfl
@[simp] theorem respond_draws (x : State × BusResponse) : (respond x).draws = x.1.draws := rfl
@[simp] theorem respond_inputs (x : State × BusResponse) : (respond x).inputs = x.1.inputs := rfl
@[simp] theorem respond_responses (x : State × BusResponse) : (respond x).responses = x.2 :: x.1.responses := rfl

/-! ### The control bits, in each case -/

variable {s}

theorem State.ctrlStart_of_busy (h : s.busy = true) : s.ctrlStart = s.hazard := by simp [State.ctrlStart, h]

theorem State.ctrlStart_of_idle (h : s.busy = false) : s.ctrlStart = s.start := by simp [State.ctrlStart, h]

theorem State.ctrlClr_of_busy (h : s.busy = true) : s.ctrlClr = s.hazard := by simp [State.ctrlClr, h]

theorem State.ctrlClr_of_idle (h : s.busy = false) :
    s.ctrlClr = { s with done := false, err := .ok, stage := .interface, haz := false } := by
  simp [State.ctrlClr, h]

theorem State.unlessBusy_of_busy {t : State} (h : s.busy = true) : s.unlessBusy t = s.hazard := by
  simp [State.unlessBusy, h]

theorem State.unlessBusy_of_idle {t : State} (h : s.busy = false) : s.unlessBusy t = t := by
  simp [State.unlessBusy, h]

theorem State.writeCtrl_srst {v : Word} (h : v.getLsbD 3 = true) : s.writeCtrl v = s.softReset := by
  simp [State.writeCtrl, h]

theorem State.writeCtrl_of_not_srst {v : Word} (h : v.getLsbD 3 = false) :
    s.writeCtrl v =
      let s1 := { s with ie := v.getLsbD 1 }
      let s2 := if v.getLsbD 2 then s1.ctrlClr else s1
      if v.getLsbD 0 then s2.ctrlStart else s2 := by
  unfold State.writeCtrl
  rw [h]
  rfl

@[simp] theorem State.illegal_eq : s.illegal = s.fail .illegalCommand .interface := rfl

/-! ### RESULT and OLEN -/

@[simp] theorem olenZero_get (j : Fin 8) : olenZero[j] = 0 := by revert j; decide

@[simp] theorem ResultReg.zero_word : ResultReg.zero.word = 0 := by decide

end Sys2Proof.Machine
end

