-- ==== Sys2Proof/Laws/Ops.lean ====
section
/-!
SUPPORT. What each shared operation can do, said once: a command's completion, the meaning of any command, the bus
accesses, a step. Proofs cite these and do not unfold the operations.
-/

namespace Sys2Proof.Machine

/-! ### Completion -/

/-- A completion is a failure or a success that fits OBUF. -/
theorem State.complete_cases (s : State) (st : Stage) (r : Except ErrCode Output) :
    (∃ e, r = .error e ∧ s.complete st r = s.fail e st) ∨
    (∃ o, r = .ok o ∧ slotsFit s.params.obufSize o.slots = true ∧ s.complete st r = s.succeed o) ∨
    (∃ o, r = .ok o ∧ slotsFit s.params.obufSize o.slots = false ∧ s.complete st r = s.fail .invalidLength st) := by
  cases r with
  | error e => exact .inl ⟨e, rfl, rfl⟩
  | ok o =>
    cases h : slotsFit s.params.obufSize o.slots with
    | true => exact .inr (.inl ⟨o, rfl, h, by simp [State.complete, h]⟩)
    | false => exact .inr (.inr ⟨o, rfl, h, by simp [State.complete, h]⟩)

theorem State.complete_ok {s : State} {st : Stage} {o : Output} (h : slotsFit s.params.obufSize o.slots = true) :
    s.complete st (.ok o) = s.succeed o := by simp [State.complete, h]

theorem State.complete_error (s : State) (st : Stage) (e : ErrCode) : s.complete st (.error e) = s.fail e st := rfl

theorem State.framed_iff {s : State} {m : Nat} : s.framed m = true ↔ s.cur.offset m ≤ s.params.ibufSize := by
  simp [State.framed]

/-- A run that is not framed fails with InvalidLength at stage INTERFACE (R114). -/
theorem State.runCommand_of_not_framed {s : State} {m : Nat} (h : s.framed m = false) (st : Stage)
    (r : Except ErrCode Output) : s.runCommand st m r = s.fail .invalidLength .interface := by
  simp [State.runCommand, h]

/-- A run that is framed completes with its rule's outcome (R120). -/
theorem State.runCommand_of_framed {s : State} {m : Nat} (h : s.framed m = true) (st : Stage)
    (r : Except ErrCode Output) : s.runCommand st m r = s.complete st r := by simp [State.runCommand, h]

/-- A run is one failure or one success. -/
theorem State.runCommand_cases (s : State) (st : Stage) (m : Nat) (r : Except ErrCode Output) :
    (∃ e st', s.runCommand st m r = s.fail e st') ∨
    (∃ o, r = .ok o ∧ slotsFit s.params.obufSize o.slots = true ∧ s.runCommand st m r = s.succeed o) := by
  cases h : s.framed m with
  | false => exact .inl ⟨_, _, State.runCommand_of_not_framed h st r⟩
  | true =>
    rw [State.runCommand_of_framed h]
    rcases s.complete_cases st r with ⟨e, -, h⟩ | ⟨o, h⟩ | ⟨o, -, -, h⟩
    · exact .inl ⟨_, _, h⟩
    · exact .inr ⟨o, h⟩
    · exact .inl ⟨_, _, h⟩

/-- A rule that emits slot 0 only fits OBUF when its bytes do (R116). -/
@[simp] theorem slotsFit_single (n : Nat) (b : Bytes) :
    slotsFit n (Output.single b).slots = true ↔ b.length ≤ n := by simp [slotsFit, Output.single, slotBase]

/-! ### The meaning of a command -/

/-- Every command's answer is a next state: the completion of an illegal word, or a run of a rule (R120). -/
theorem exec_cases (i : Instr) (s : State) :
    exec i s = .next s.illegal ∨ ∃ st m r, exec i s = .next (s.runCommand st m r) := by
  have ran_case : ∀ st m r, (ran s st m r = .next s.illegal ∨ ∃ st' m' r', ran s st m r = .next (s.runCommand st' m' r')) :=
    fun st m r => .inr ⟨st, m, r, rfl⟩
  cases i with
  | nop => exact ran_case _ _ _
  | b58Encode => exact ran_case _ _ _
  | b58Decode => exact ran_case _ _ _
  | b58Checksum => exact ran_case _ _ _
  | b58checkEncode => exact ran_case _ _ _
  | b58checkDecode => exact ran_case _ _ _
  | bech32Encode ch => cases ch <;> first | exact .inl rfl | exact ran_case _ _ _
  | bech32Decode ch => cases ch <;> first | exact .inl rfl | exact ran_case _ _ _
  | compress => exact ran_case _ _ _
  | decompress => exact ran_case _ _ _
  | scalarMult c sub => cases sub <;> exact ran_case _ _ _
  | pointAdd c => exact ran_case _ _ _
  | modSqrt => exact ran_case _ _ _
  | modInv sub => exact ran_case _ _ _
  | wifEncode c => exact ran_case _ _ _
  | wifDecode => exact ran_case _ _ _
  | recover => exact ran_case _ _ _
  | verifyMessage ch n => cases ch <;> first | exact .inl rfl | exact ran_case _ _ _
  | sha256 => exact ran_case _ _ _
  | sha256d => exact ran_case _ _ _
  | ripemd160 => exact ran_case _ _ _
  | hash160 => exact ran_case _ _ _
  | keccak256 => exact ran_case _ _ _
  | msgDigest ch n => cases ch <;> first | exact .inl rfl | exact ran_case _ _ _
  | p2pkhAddr ch c => cases ch <;> first | exact .inl rfl | exact ran_case _ _ _
  | p2wpkhAddr ch => cases ch <;> first | exact .inl rfl | exact ran_case _ _ _
  | ethAddr => exact ran_case _ _ _
  | addressSet => exact ran_case _ _ _

/-- Every command's answer is a failure or a success that fits OBUF: what a completion can be (R117, R118). -/
theorem exec_completes (i : Instr) (s : State) :
    (∃ e st, exec i s = .next (s.fail e st)) ∨
    (∃ o, slotsFit s.params.obufSize o.slots = true ∧ exec i s = .next (s.succeed o)) := by
  rcases exec_cases i s with h | ⟨st, m, r, h⟩
  · exact .inl ⟨_, _, h⟩
  · rcases s.runCommand_cases st m r with ⟨e, st', h'⟩ | ⟨o, -, hf, h'⟩
    · exact .inl ⟨e, st', h.trans (by rw [h'])⟩
    · exact .inr ⟨o, hf, h.trans (by rw [h'])⟩

/-! ### Bus accesses -/

/-- A read changes nothing but the count of free values (R79). -/
theorem State.busRead_cases (s : State) (off width : Nat) :
    (s.busRead off width).1 = s ∨ (s.busy = true ∧ (s.busRead off width).1 = s.drew) := by
  unfold State.busRead
  by_cases h1 : busLegal off width = true
  · rw [if_neg (not_not.2 h1)]
    by_cases h2 : off < ibufBase
    · rw [if_pos h2]
      cases regAt off with
      | none => exact .inl rfl
      | some r =>
        by_cases h3 : (s.busy && r.isOutput) = true
        · exact .inr ⟨(Bool.and_eq_true_iff.1 h3).1, by simp only [h3, if_true]⟩
        · exact .inl (by simp only [h3]; rfl)
    · rw [if_neg h2]
      by_cases h3 : (s.busy && touches s.params off width BufferByte.isObuf) = true
      · exact .inr ⟨(Bool.and_eq_true_iff.1 h3).1, by rw [if_pos h3]⟩
      · exact .inl (by rw [if_neg h3])
  · exact .inl (by rw [if_pos h1])

/-- A buffer write changes IBUF only. -/
theorem State.writeBuffer_eq (s : State) (off : Nat) (bs : Bytes) :
    s.writeBuffer off bs = { s with ibuf := (s.writeBuffer off bs).ibuf } := by
  induction bs generalizing s off with
  | nil => rfl
  | cons b bs ih =>
    rw [State.writeBuffer, ih]
    unfold State.writeBufferByte
    split <;> rfl

/-- What a register write can do: nothing, a hazard, one input register, or a CTRL write. -/
theorem State.writeReg_cases (s : State) (r : Reg) (v : Word) :
    s.writeReg r v = s ∨ (s.busy = true ∧ s.writeReg r v = s.hazard) ∨
    (s.busy = false ∧ (s.writeReg r v = { s with cmd := v } ∨ s.writeReg r v = { s with len0 := v.setWidth 16 } ∨
      s.writeReg r v = { s with len1 := v.setWidth 16 } ∨ s.writeReg r v = { s with len2 := v.setWidth 16 })) ∨
    (r = .ctrl ∧ s.writeReg r v = s.writeCtrl v) := by
  cases hb : s.busy <;> cases r <;>
    simp [State.writeReg, State.unlessBusy_of_busy, State.unlessBusy_of_idle, hb]

/-- CTRL is at offset 4 (R32). -/
theorem regAt_ctrl {off : Nat} (h : regAt off = some .ctrl) : off / 4 = 1 := by
  unfold regAt at h
  split at h <;> simp_all

/-- What a write can do to the block: nothing, a hazard, one input register, bytes of IBUF, or a CTRL write. -/
theorem State.busWrite_cases (s : State) (off width : Nat) (v : Word) :
    (s.busWrite off width v).1 = s ∨
    (s.busy = true ∧ (s.busWrite off width v).1 = s.hazard) ∨
    (s.busy = false ∧ ((s.busWrite off width v).1 = { s with cmd := v } ∨
      (s.busWrite off width v).1 = { s with len0 := v.setWidth 16 } ∨
      (s.busWrite off width v).1 = { s with len1 := v.setWidth 16 } ∨
      (s.busWrite off width v).1 = { s with len2 := v.setWidth 16 } ∨
      (ibufBase ≤ off ∧
        (s.busWrite off width v).1 = s.writeBuffer off ((List.range width).map (busByte v))))) ∨
    (off = 4 ∧ width = 4 ∧ (s.busWrite off width v).1 = s.writeCtrl v) := by
  unfold State.busWrite
  by_cases h1 : busLegal off width = true
  · rw [if_neg (not_not.2 h1)]
    by_cases h2 : off < ibufBase
    · rw [if_pos h2]
      cases hr : regAt off with
      | none => exact .inl rfl
      | some r =>
        rcases s.writeReg_cases r v with h | h | ⟨hb, h | h | h | h⟩ | ⟨rfl, h⟩
        · exact .inl h
        · exact .inr (.inl h)
        · exact .inr (.inr (.inl ⟨hb, .inl h⟩))
        · exact .inr (.inr (.inl ⟨hb, .inr (.inl h)⟩))
        · exact .inr (.inr (.inl ⟨hb, .inr (.inr (.inl h))⟩))
        · exact .inr (.inr (.inl ⟨hb, .inr (.inr (.inr (.inl h)))⟩))
        · have h4 := regAt_ctrl hr
          rw [busLegal, if_pos h2, decide_eq_true_eq] at h1
          exact .inr (.inr (.inr ⟨by omega, h1.1, h⟩))
    · rw [if_neg h2]
      by_cases h3 : touches s.params off width BufferByte.isIbuf = true
      · rw [if_pos h3]
        cases hb : s.busy with
        | true => exact .inr (.inl ⟨rfl, State.unlessBusy_of_busy hb⟩)
        | false =>
          exact .inr (.inr (.inl ⟨rfl, .inr (.inr (.inr (.inr ⟨not_lt.1 h2, State.unlessBusy_of_idle hb⟩)))⟩))
      · exact .inl (by rw [if_neg h3])
  · exact .inl (by rw [if_pos h1])

/-! ### A step -/

/-- Which turn a step takes (R345). -/
theorem step_cases {s t : State} (h : step s = .next t) :
    (∃ rest, (s.inputs = [] ∧ rest = [] ∨ s.inputs = .engine :: rest) ∧
      ((s.busy = true ∧ engineTurn { s with inputs := rest } = .next t) ∨
        (s.busy = false ∧ t = { s with inputs := rest }))) ∨
    (∃ a rest, s.inputs = .host a :: rest ∧ hostTurn a { s with inputs := rest } = .next t) := by
  unfold step takeTurn engineTurnIfBusy at h
  cases hi : s.inputs with
  | nil =>
    refine .inl ⟨[], .inl ⟨rfl, rfl⟩, ?_⟩
    have hs : { s with inputs := [] } = s := by rw [← hi]
    rw [hi] at h
    rw [hs]
    cases hb : s.busy with
    | true => exact .inl ⟨rfl, by simpa [hb] using h⟩
    | false => exact .inr ⟨rfl, by simpa [hb, eq_comm] using h⟩
  | cons x rest =>
    rw [hi] at h
    cases x with
    | engine =>
      refine .inl ⟨rest, .inr rfl, ?_⟩
      cases hb : s.busy with
      | true => exact .inl ⟨rfl, by simpa [hb] using h⟩
      | false => exact .inr ⟨rfl, by simpa [hb, eq_comm] using h⟩
    | host a => exact .inr ⟨a, rest, rfl, h⟩

/-- What an engine turn does: it completes, with a failure or a success that fits OBUF. -/
theorem engineTurn_cases (s : State) :
    (∃ e st, engineTurn s = .next (s.fail e st)) ∨
    (∃ o, slotsFit s.params.obufSize o.slots = true ∧ engineTurn s = .next (s.succeed o)) := by
  unfold engineTurn
  split
  · exact exec_completes _ _
  · exact .inl ⟨_, _, rfl⟩

/-- What a host turn does: an access outside the window, a read, a write, or a power-on reset. -/
theorem hostTurn_cases {a : HostAction} {s t : State} (h : hostTurn a s = .next t) :
    (t = respond (s, .notReached) ∧ ((∃ addr width, a = .read addr width ∧ s.offsetOf addr = none) ∨
      ∃ addr width v, a = .write addr width v ∧ s.offsetOf addr = none)) ∨
    (∃ addr width off, a = .read addr width ∧ s.offsetOf addr = some off ∧ t = respond (s.busRead off width)) ∨
    (∃ addr width v off, a = .write addr width v ∧ s.offsetOf addr = some off ∧
      t = respond (s.busWrite off width v)) ∨
    (a = .powerOnReset ∧ t = s.powerOnReset) := by
  cases a with
  | read addr width =>
    simp only [hostTurn] at h
    cases ho : s.offsetOf addr with
    | none => exact .inl ⟨by simpa [ho, eq_comm] using h, .inl ⟨addr, width, rfl, ho⟩⟩
    | some off => exact .inr (.inl ⟨addr, width, off, rfl, ho, by simpa [ho, eq_comm] using h⟩)
  | write addr width v =>
    simp only [hostTurn] at h
    cases ho : s.offsetOf addr with
    | none => exact .inl ⟨by simpa [ho, eq_comm] using h, .inr ⟨addr, width, v, rfl, ho⟩⟩
    | some off => exact .inr (.inr (.inl ⟨addr, width, v, off, rfl, ho, by simpa [ho, eq_comm] using h⟩))
  | powerOnReset => exact .inr (.inr (.inr ⟨rfl, by simpa [hostTurn, eq_comm] using h⟩))

/-- A host turn never stops the machine (R75). -/
theorem hostTurn_next (a : HostAction) (s : State) : ∃ t, hostTurn a s = .next t := by
  cases a with
  | read addr width => simp only [hostTurn]; split <;> exact ⟨_, rfl⟩
  | write addr width v => simp only [hostTurn]; split <;> exact ⟨_, rfl⟩
  | powerOnReset => exact ⟨_, rfl⟩

/-- A step never stops the machine: every turn, of the engine or of the host, gives a next state. -/
theorem step_next (s : State) : ∃ t, step s = .next t := by
  have engine : ∀ s, ∃ t, engineTurnIfBusy s = .next t := fun s => by
    unfold engineTurnIfBusy
    split
    · rcases engineTurn_cases s with ⟨e, st, h⟩ | ⟨o, -, h⟩ <;> exact ⟨_, h⟩
    · exact ⟨_, rfl⟩
  unfold step takeTurn
  split
  · exact engine _
  · exact engine _
  · exact hostTurn_next _ _

end Sys2Proof.Machine
end

