-- ==== Sys2Proof/Laws/Bus.lean ====
section
/-!
SUPPORT. The host's accesses in the terms of the statements: what one access inside the window answers.
-/

namespace Sys2Proof.Machine

theorem State.offsetOf_add (s : State) {off : Nat} (h : off < 0x3000) :
    s.offsetOf (s.params.blockBase + off) = some off := by
  unfold State.offsetOf windowSize
  rw [if_pos ⟨Nat.le_add_right _ _, Nat.add_lt_add_left h _⟩, Nat.add_sub_cancel_left]

theorem State.offsetOf_outside (s : State) {addr : Nat}
    (h : addr < s.params.blockBase ∨ s.params.blockBase + 0x3000 ≤ addr) : s.offsetOf addr = none := by
  unfold State.offsetOf windowSize
  rw [if_neg (by omega)]

/-- A host write inside the window answers what the bus write does (R75). -/
theorem hostWrites_eq (s : State) {off : Nat} (h : off < 0x3000) (width : Nat) (v : Word) :
    hostWrites s off width v = .next (respond (s.busWrite off width v)) := by
  show hostTurn (.write (s.params.blockBase + off) width v) s = _
  unfold hostTurn
  simp only [State.offsetOf_add s h]

/-- A host read inside the window answers what the bus read does (R75). -/
theorem hostReads_eq (s : State) {off : Nat} (h : off < 0x3000) (width : Nat) :
    hostReads s off width = .next (respond (s.busRead off width)) := by
  show hostTurn (.read (s.params.blockBase + off) width) s = _
  unfold hostTurn
  simp only [State.offsetOf_add s h]

/-- A host access outside the window does not reach the block (R75). -/
theorem hostTurn_outside (s : State) {addr : Nat}
    (h : addr < s.params.blockBase ∨ s.params.blockBase + 0x3000 ≤ addr) (width : Nat) (v : Word) :
    hostTurn (.write addr width v) s = .next (respond (s, .notReached)) ∧
    hostTurn (.read addr width) s = .next (respond (s, .notReached)) := by
  unfold hostTurn
  simp only [State.offsetOf_outside s h, and_self]

/-- A host write to CTRL (R32). -/
theorem hostWrites_ctrl (s : State) (v : Word) : hostWrites s 4 4 v = .next (respond (s.writeCtrl v, .written)) := by
  rw [hostWrites_eq s (by decide)]
  rfl

/-- The bits of a CTRL write that act, one by one (R32). -/
theorem State.writeCtrl_eq (s : State) {v : Word} (h : v.getLsbD 3 = false) :
    s.writeCtrl v =
      (let s1 := { s with ie := v.getLsbD 1 }
       let s2 := if v.getLsbD 2 then s1.ctrlClr else s1
       if v.getLsbD 0 then s2.ctrlStart else s2) := by
  unfold State.writeCtrl
  rw [if_neg (by rw [h]; decide)]

end Sys2Proof.Machine
end

