-- ==== Sys2Proof/Laws/Completion.lean ====
section
/-!
SUPPORT. A command's completion in the terms of the statements: when the framed run of a rule `Succeeds` and when it
`Fails`. A proof about a command shows what its rule gives and cites these.
-/

namespace Sys2Proof.Machine

/-! ### Framing -/

theorem Latch.offset_eq_operandTotal (s : State) {m : Nat} (hm : m ≤ 3) : s.cur.offset m = s.operandTotal m := by
  have h : m = 0 ∨ m = 1 ∨ m = 2 ∨ m = 3 := by omega
  rcases h with rfl | rfl | rfl | rfl <;>
    simp [Latch.offset, Latch.len, State.operandTotal, State.operandLength, List.range_succ, Nat.add_assoc]

/-- The framing check of the model is the sum of R114. -/
theorem State.framed_iff_fits {s : State} {m : Nat} (hm : m ≤ 3) : s.framed m = true ↔ s.fits m := by
  rw [State.framed_iff, Latch.offset_eq_operandTotal s hm]

/-! ### The two completions -/

theorem SameInputs.fail (s : State) (e : ErrCode) (st : Stage) : SameInputs s (s.fail e st) := by
  constructor <;> rfl

theorem SameInputs.succeed (s : State) (o : Output) : SameInputs s (s.succeed o) := by constructor <;> rfl

/-- An error completion is what `Failed` says. -/
theorem Failed.of_fail (s : State) (e : ErrCode) (st : Stage) : Failed s (s.fail e st) e st where
  same := SameInputs.fail s e st
  busy := rfl
  done := rfl
  err := rfl
  stage := rfl
  result := rfl
  olen := olenZero_get
  obuf := fun _ => rfl
  fresh := rfl

/-- Two slots share no number and no byte. -/
def SlotsApart (x y : Fin 8 × Bytes) : Prop :=
  x.1 ≠ y.1 ∧ (128 * x.1.val + x.2.length ≤ 128 * y.1.val ∨ 128 * y.1.val + y.2.length ≤ 128 * x.1.val)

theorem olenOf_of_not_mem {l : List (Fin 8 × Bytes)} {j : Fin 8} (h : ∀ x ∈ l, x.1 ≠ j) : (olenOf l)[j] = 0 := by
  induction l with
  | nil => exact olenZero_get j
  | cons x l ih =>
    obtain ⟨i, b⟩ := x
    have hne : i.val ≠ j.val := fun he => h (i, b) (by simp) (Fin.ext he)
    have := ih fun y hy => h y (by simp [hy])
    simpa [olenOf, Vector.getElem_set, hne] using this

theorem olenOf_of_mem {l : List (Fin 8 × Bytes)} (h : l.Pairwise SlotsApart) {x : Fin 8 × Bytes} (hx : x ∈ l) :
    (olenOf l)[x.1] = BitVec.ofNat 16 x.2.length := by
  induction l with
  | nil => simp at hx
  | cons y l ih =>
    obtain ⟨i, b⟩ := y
    rcases List.mem_cons.1 hx with rfl | hx
    · simp [olenOf]
    · have hne : i.val ≠ x.1.val := fun he => ((List.pairwise_cons.1 h).1 x hx).1 (Fin.ext he)
      have := ih (List.pairwise_cons.1 h).2 hx
      simpa [olenOf, Vector.getElem_set, hne] using this

/-- The bytes of an emitted slot, when the slots are apart. -/
theorem byte?_putSlots_mem {m : Memory} {l : List (Fin 8 × Bytes)} (h : l.Pairwise SlotsApart) {x : Fin 8 × Bytes}
    (hx : x ∈ l) (k : Nat) (hk : k < x.2.length) : (putSlots m l).byte? (128 * x.1.val + k) = some x.2[k] := by
  induction l generalizing m with
  | nil => simp at hx
  | cons y l ih =>
    obtain ⟨i, b⟩ := y
    rcases List.mem_cons.1 hx with rfl | hx
    · rw [putSlots, byte?_putSlots_outside]
      · rw [Memory.byte?_putBytes]
        simp [slotBase, hk]
      · intro y hy
        have : 128 * i.val + b.length ≤ 128 * y.1.val ∨ 128 * y.1.val + y.2.length ≤ 128 * i.val :=
          ((List.pairwise_cons.1 h).1 y hy).2
        have hk : k < b.length := hk
        simp only [slotBase]
        omega
    · exact ih (List.pairwise_cons.1 h).2 hx

/-- A completion with success is what `Completed` says, when the slots are apart. -/
theorem Completed.of_succeed (s : State) (o : Output) (h : o.slots.Pairwise SlotsApart) :
    Completed s (s.succeed o) o.slots o.result where
  same := SameInputs.succeed s o
  busy := rfl
  done := rfl
  err := rfl
  stage := rfl
  result := rfl
  olen := fun _ hx => olenOf_of_mem h hx
  olenRest := fun _ hj => olenOf_of_not_mem hj
  slot := fun x hx k hk => State.obufByte_of_byte? (byte?_putSlots_mem h hx k hk)
  rest := by
    intro a ha
    rw [State.succeed_obuf, byte?_putSlots_outside]
    · rfl
    · intro x hx
      have : ¬ (128 * x.1.val ≤ a ∧ a < 128 * x.1.val + x.2.length) := fun h' => ha ⟨x, hx, h'⟩
      simp only [slotBase]
      omega
  fresh := by simp

/-! ### Runs -/

/-- A framed run whose rule raises `e` fails with `e` at the command's stage (R117). -/
theorem Fails.of_run {i : Instr} {s : State} {st : Stage} {m : Nat} {r : Except ErrCode Output} {e : ErrCode}
    (h : exec i s = ran s st m r) (hm : m ≤ 3) (hf : s.fits m) (hr : r = .error e) : Fails i s e st := by
  subst hr
  refine ⟨_, h, ?_⟩
  rw [State.runCommand_of_framed ((State.framed_iff_fits hm).2 hf)]
  exact Failed.of_fail s e st

/-- A run that is not framed fails with InvalidLength at stage INTERFACE (R114). -/
theorem Fails.of_not_fits {i : Instr} {s : State} {st : Stage} {m : Nat} {r : Except ErrCode Output}
    (h : exec i s = ran s st m r) (hm : m ≤ 3) (hf : ¬ s.fits m) : Fails i s .invalidLength .interface := by
  refine ⟨_, h, ?_⟩
  rw [State.runCommand_of_not_framed (Bool.eq_false_iff.2 fun h' => hf ((State.framed_iff_fits hm).1 h'))]
  exact Failed.of_fail s _ _

/-- A framed run whose output does not fit OBUF fails with InvalidLength at the command's stage (R116). -/
theorem Fails.of_overflow {i : Instr} {s : State} {st : Stage} {m : Nat} {r : Except ErrCode Output} {b : Bytes}
    {res : ResultReg} (h : exec i s = ran s st m r) (hm : m ≤ 3) (hf : s.fits m) (hr : r = .ok ⟨[(0, b)], res⟩)
    (hb : s.params.obufSize < b.length) : Fails i s .invalidLength st := by
  subst hr
  refine ⟨_, h, ?_⟩
  rw [State.runCommand_of_framed ((State.framed_iff_fits hm).2 hf), State.complete,
    if_neg (by simp [slotsFit, slotBase, hb])]
  exact Failed.of_fail s _ _

/-- A framed run whose rule emits slots that are apart and end within OBUF succeeds with them (R118). -/
theorem Succeeds.of_run {i : Instr} {s : State} {st : Stage} {m : Nat} {r : Except ErrCode Output}
    {slots : List (Fin 8 × Bytes)} {res : ResultReg} (h : exec i s = ran s st m r) (hm : m ≤ 3) (hf : s.fits m)
    (hr : r = .ok ⟨slots, res⟩) (ha : slots.Pairwise SlotsApart)
    (hb : ∀ x ∈ slots, 128 * x.1.val + x.2.length ≤ s.params.obufSize) : Succeeds i s slots res := by
  subst hr
  refine ⟨_, h, ?_⟩
  rw [State.runCommand_of_framed ((State.framed_iff_fits hm).2 hf), State.complete_ok]
  · exact Completed.of_succeed s ⟨slots, res⟩ ha
  · exact List.all_eq_true.2 fun x hx => decide_eq_true (hb x hx)

/-- A framed run whose rule emits slot 0 only succeeds with it, when it fits OBUF (R118). -/
theorem Succeeds.of_run_single {i : Instr} {s : State} {st : Stage} {m : Nat} {r : Except ErrCode Output} {b : Bytes}
    {res : ResultReg} (h : exec i s = ran s st m r) (hm : m ≤ 3) (hf : s.fits m) (hr : r = .ok ⟨[(0, b)], res⟩)
    (hb : b.length ≤ s.params.obufSize) : Succeeds i s [(0, b)] res :=
  Succeeds.of_run h hm hf hr (by simp) (by simpa using hb)

end Sys2Proof.Machine
end

