-- ==== Sys2Proof/Laws/Primes.lean ====
section
/-!
SUPPORT. Modular powers, and the primality of the field order p and the group order n, by Lucas's test on the complete
factorisations of p − 1 and n − 1. Inverse and square root rest on it.
-/

namespace Sys2Proof.Machine

/-! ### Modular powers -/

theorem powModAux_eq (m : Nat) (fuel b e acc : Nat) (he : e < 2 ^ fuel) (hacc : acc < m) :
    powModAux m fuel b e acc = acc * b ^ e % m := by
  induction fuel generalizing b e acc with
  | zero =>
    obtain rfl : e = 0 := by simpa using he
    simp [powModAux, Nat.mod_eq_of_lt hacc]
  | succ fuel ih =>
    rw [powModAux]
    by_cases h0 : e = 0
    · subst h0
      simp [Nat.mod_eq_of_lt hacc]
    have hm : 0 < m := lt_of_le_of_lt (Nat.zero_le _) hacc
    have hlt : e / 2 < 2 ^ fuel := by rw [pow_succ] at he; omega
    have key : ∀ c, c * (b * b % m) ^ (e / 2) % m = c * (b ^ 2) ^ (e / 2) % m := fun c => by
      rw [Nat.mul_mod, ← Nat.pow_mod, ← Nat.mul_mod, sq]
    rw [if_neg h0]
    by_cases hodd : e % 2 = 1
    · rw [if_pos hodd, ih _ _ _ hlt (Nat.mod_lt _ hm), key, Nat.mod_mul_mod, ← pow_mul, mul_assoc, ← pow_succ',
        show 2 * (e / 2) + 1 = e by omega]
    · rw [if_neg hodd, ih _ _ _ hlt hacc, key, ← pow_mul, show 2 * (e / 2) = e by omega]

/-- `powMod` is the power mod m (R18). -/
theorem powMod_eq {m : Nat} (hm : 1 < m) (b e : Nat) : powMod m b e = b ^ e % m := by
  rw [powMod, powModAux_eq _ _ _ _ _ Nat.lt_log2_self (Nat.mod_lt _ (by omega)), Nat.mod_eq_of_lt hm, one_mul,
    ← Nat.pow_mod]

/-! ### Lucas's test -/

/-- `m` is prime when `a` has order m − 1 mod m, `fs` being the prime factors of m − 1. -/
theorem prime_of_order {m : Nat} (a : Nat) (fs : List Nat) (hm : 1 < m) (hprod : fs.prod = m - 1)
    (hprime : ∀ q ∈ fs, q.Prime) (h1 : powMod m a (m - 1) = 1) (hne : ∀ q ∈ fs, powMod m a ((m - 1) / q) ≠ 1) :
    m.Prime := by
  have cast : ∀ e, ((a : ZMod m) ^ e = 1) ↔ powMod m a e = 1 := fun e => by
    rw [powMod_eq hm, ← Nat.cast_pow, ← Nat.cast_one, ZMod.natCast_eq_natCast_iff', Nat.mod_eq_of_lt hm]
  refine lucas_primality m a ((cast _).2 h1) fun q hq hdvd h => ?_
  rw [← hprod] at hdvd
  obtain ⟨r, hr, hqr⟩ := (Nat.Prime.prime hq).dvd_prod_iff.1 hdvd
  obtain rfl := (Nat.prime_dvd_prime_iff_eq hq (hprime r hr)).1 hqr
  exact hne q hr ((cast _).1 h)

/-! ### The group order n -/

theorem prime_4681609 : Nat.Prime 4681609 :=
  prime_of_order 23 [2, 2, 2, 3, 97, 2011] (by decide +kernel) (by decide +kernel)
    (by
      simp only [List.mem_cons, List.not_mem_nil, or_false, forall_eq_or_imp, forall_eq]
      refine ⟨by norm_num, by norm_num, by norm_num, by norm_num, by norm_num, by norm_num⟩)
    (by decide +kernel) (by decide +kernel)

theorem prime_107361793816595537 : Nat.Prime 107361793816595537 :=
  prime_of_order 3 [2, 2, 2, 2, 16699, 85831, 4681609] (by decide +kernel) (by decide +kernel)
    (by
      simp only [List.mem_cons, List.not_mem_nil, or_false, forall_eq_or_imp, forall_eq]
      refine ⟨by norm_num, by norm_num, by norm_num, by norm_num, by norm_num, by norm_num, prime_4681609⟩)
    (by decide +kernel) (by decide +kernel)

theorem prime_44706919 : Nat.Prime 44706919 :=
  prime_of_order 6 [2, 3, 797, 9349] (by decide +kernel) (by decide +kernel)
    (by
      simp only [List.mem_cons, List.not_mem_nil, or_false, forall_eq_or_imp, forall_eq]
      refine ⟨by norm_num, by norm_num, by norm_num, by norm_num⟩)
    (by decide +kernel) (by decide +kernel)

theorem prime_174723607534414371449 : Nat.Prime 174723607534414371449 :=
  prime_of_order 3 [2, 2, 2, 17, 59, 4051, 120233, 44706919] (by decide +kernel) (by decide +kernel)
    (by
      simp only [List.mem_cons, List.not_mem_nil, or_false, forall_eq_or_imp, forall_eq]
      refine ⟨by norm_num, by norm_num, by norm_num, by norm_num, by norm_num, by norm_num, by norm_num, prime_44706919⟩)
    (by decide +kernel) (by decide +kernel)

theorem prime_545358713 : Nat.Prime 545358713 :=
  prime_of_order 5 [2, 2, 2, 41, 59, 28181] (by decide +kernel) (by decide +kernel)
    (by
      simp only [List.mem_cons, List.not_mem_nil, or_false, forall_eq_or_imp, forall_eq]
      refine ⟨by norm_num, by norm_num, by norm_num, by norm_num, by norm_num, by norm_num⟩)
    (by decide +kernel) (by decide +kernel)

theorem prime_1627771 : Nat.Prime 1627771 :=
  prime_of_order 3 [2, 3, 5, 29, 1871] (by decide +kernel) (by decide +kernel)
    (by
      simp only [List.mem_cons, List.not_mem_nil, or_false, forall_eq_or_imp, forall_eq]
      refine ⟨by norm_num, by norm_num, by norm_num, by norm_num, by norm_num⟩)
    (by decide +kernel) (by decide +kernel)

theorem prime_297159362677 : Nat.Prime 297159362677 :=
  prime_of_order 2 [2, 2, 3, 3, 11, 461, 1627771] (by decide +kernel) (by decide +kernel)
    (by
      simp only [List.mem_cons, List.not_mem_nil, or_false, forall_eq_or_imp, forall_eq]
      refine ⟨by norm_num, by norm_num, by norm_num, by norm_num, by norm_num, by norm_num, prime_1627771⟩)
    (by decide +kernel) (by decide +kernel)

theorem prime_29047611873442575647497758179 : Nat.Prime 29047611873442575647497758179 :=
  prime_of_order 2 [2, 293, 305873, 545358713, 297159362677] (by decide +kernel) (by decide +kernel)
    (by
      simp only [List.mem_cons, List.not_mem_nil, or_false, forall_eq_or_imp, forall_eq]
      refine ⟨by norm_num, by norm_num, by norm_num, prime_545358713, prime_297159362677⟩)
    (by decide +kernel) (by decide +kernel)

theorem prime_341948486974166000522343609283189 : Nat.Prime 341948486974166000522343609283189 :=
  prime_of_order 2 [2, 2, 3, 3, 3, 109, 29047611873442575647497758179] (by decide +kernel) (by decide +kernel)
    (by
      simp only [List.mem_cons, List.not_mem_nil, or_false, forall_eq_or_imp, forall_eq]
      refine ⟨by norm_num, by norm_num, by norm_num, by norm_num, by norm_num, by norm_num, prime_29047611873442575647497758179⟩)
    (by decide +kernel) (by decide +kernel)

theorem orderN_prime : Nat.Prime orderN :=
  prime_of_order 7 [2, 2, 2, 2, 2, 2, 3, 149, 631, 107361793816595537, 174723607534414371449, 341948486974166000522343609283189] (by decide +kernel) (by decide +kernel)
    (by
      simp only [List.mem_cons, List.not_mem_nil, or_false, forall_eq_or_imp, forall_eq]
      refine ⟨by norm_num, by norm_num, by norm_num, by norm_num, by norm_num, by norm_num, by norm_num, by norm_num, by norm_num, prime_107361793816595537, prime_174723607534414371449, prime_341948486974166000522343609283189⟩)
    (by decide +kernel) (by decide +kernel)

/-! ### The field order p -/

theorem prime_13331831 : Nat.Prime 13331831 :=
  prime_of_order 13 [2, 5, 971, 1373] (by decide +kernel) (by decide +kernel)
    (by
      simp only [List.mem_cons, List.not_mem_nil, or_false, forall_eq_or_imp, forall_eq]
      refine ⟨by norm_num, by norm_num, by norm_num, by norm_num⟩)
    (by decide +kernel) (by decide +kernel)

theorem prime_173378833005251801 : Nat.Prime 173378833005251801 :=
  prime_of_order 6 [2, 2, 2, 5, 5, 2621, 24809, 13331831] (by decide +kernel) (by decide +kernel)
    (by
      simp only [List.mem_cons, List.not_mem_nil, or_false, forall_eq_or_imp, forall_eq]
      refine ⟨by norm_num, by norm_num, by norm_num, by norm_num, by norm_num, by norm_num, by norm_num, prime_13331831⟩)
    (by decide +kernel) (by decide +kernel)

theorem prime_22149492674086928081353 : Nat.Prime 22149492674086928081353 :=
  prime_of_order 5 [2, 2, 2, 3, 5323, 173378833005251801] (by decide +kernel) (by decide +kernel)
    (by
      simp only [List.mem_cons, List.not_mem_nil, or_false, forall_eq_or_imp, forall_eq]
      refine ⟨by norm_num, by norm_num, by norm_num, by norm_num, by norm_num, prime_173378833005251801⟩)
    (by decide +kernel) (by decide +kernel)

theorem prime_132896956044521568488119 : Nat.Prime 132896956044521568488119 :=
  prime_of_order 6 [2, 3, 22149492674086928081353] (by decide +kernel) (by decide +kernel)
    (by
      simp only [List.mem_cons, List.not_mem_nil, or_false, forall_eq_or_imp, forall_eq]
      refine ⟨by norm_num, by norm_num, prime_22149492674086928081353⟩)
    (by decide +kernel) (by decide +kernel)

theorem prime_1206781 : Nat.Prime 1206781 :=
  prime_of_order 10 [2, 2, 3, 5, 20113] (by decide +kernel) (by decide +kernel)
    (by
      simp only [List.mem_cons, List.not_mem_nil, or_false, forall_eq_or_imp, forall_eq]
      refine ⟨by norm_num, by norm_num, by norm_num, by norm_num, by norm_num⟩)
    (by decide +kernel) (by decide +kernel)

theorem prime_7240687 : Nat.Prime 7240687 :=
  prime_of_order 3 [2, 3, 1206781] (by decide +kernel) (by decide +kernel)
    (by
      simp only [List.mem_cons, List.not_mem_nil, or_false, forall_eq_or_imp, forall_eq]
      refine ⟨by norm_num, by norm_num, prime_1206781⟩)
    (by decide +kernel) (by decide +kernel)

theorem prime_107590001 : Nat.Prime 107590001 :=
  prime_of_order 3 [2, 2, 2, 2, 5, 5, 5, 5, 7, 29, 53] (by decide +kernel) (by decide +kernel)
    (by
      simp only [List.mem_cons, List.not_mem_nil, or_false, forall_eq_or_imp, forall_eq]
      refine ⟨by norm_num, by norm_num, by norm_num, by norm_num, by norm_num, by norm_num, by norm_num, by norm_num, by norm_num, by norm_num, by norm_num⟩)
    (by decide +kernel) (by decide +kernel)

theorem prime_255515944373312847190720520512484175977 : Nat.Prime 255515944373312847190720520512484175977 :=
  prime_of_order 3 [2, 2, 2, 7, 7, 11, 1627, 2657, 4423, 41201, 96557, 7240687, 107590001] (by decide +kernel) (by decide +kernel)
    (by
      simp only [List.mem_cons, List.not_mem_nil, or_false, forall_eq_or_imp, forall_eq]
      refine ⟨by norm_num, by norm_num, by norm_num, by norm_num, by norm_num, by norm_num, by norm_num, by norm_num, by norm_num, by norm_num, by norm_num, prime_7240687, prime_107590001⟩)
    (by decide +kernel) (by decide +kernel)

theorem prime_205115282021455665897114700593932402728804164701536103180137503955397371 : Nat.Prime 205115282021455665897114700593932402728804164701536103180137503955397371 :=
  prime_of_order 10 [2, 3, 5, 29, 29, 31, 7723, 132896956044521568488119, 255515944373312847190720520512484175977] (by decide +kernel) (by decide +kernel)
    (by
      simp only [List.mem_cons, List.not_mem_nil, or_false, forall_eq_or_imp, forall_eq]
      refine ⟨by norm_num, by norm_num, by norm_num, by norm_num, by norm_num, by norm_num, by norm_num, prime_132896956044521568488119, prime_255515944373312847190720520512484175977⟩)
    (by decide +kernel) (by decide +kernel)

theorem fieldP_prime : Nat.Prime fieldP :=
  prime_of_order 3 [2, 3, 7, 13441, 205115282021455665897114700593932402728804164701536103180137503955397371] (by decide +kernel) (by decide +kernel)
    (by
      simp only [List.mem_cons, List.not_mem_nil, or_false, forall_eq_or_imp, forall_eq]
      refine ⟨by norm_num, by norm_num, by norm_num, by norm_num, prime_205115282021455665897114700593932402728804164701536103180137503955397371⟩)
    (by decide +kernel) (by decide +kernel)

end Sys2Proof.Machine
end

