-- ==== Sys2Proof/Laws/Field.lean ====
section
/-!
SUPPORT. The modular operations as operations of the fields of p and n elements: one lemma for each, so that a proof
about field or curve arithmetic moves to `ZMod` and never unfolds them.
-/

namespace Sys2Proof.Machine

theorem fieldP_pos : 0 < fieldP := fieldP_prime.pos

theorem fieldP_gt_one : 1 < fieldP := fieldP_prime.one_lt

theorem orderN_gt_one : 1 < orderN := orderN_prime.one_lt

theorem fieldP_lt : fieldP < 2 ^ 256 := by decide +kernel

theorem orderN_lt : orderN < 2 ^ 256 := by decide +kernel

theorem fieldP_mod_four : fieldP % 4 = 3 := by decide +kernel

/-! ### Ranges -/

theorem powMod_lt {m : Nat} (hm : 1 < m) (b e : Nat) : powMod m b e < m := by
  rw [powMod_eq hm]
  exact Nat.mod_lt _ (by omega)

theorem invMod_lt {m : Nat} (hm : 1 < m) (a : Nat) : invMod m a < m := powMod_lt hm _ _

theorem subMod_lt {m : Nat} (hm : 0 < m) (a b : Nat) : subMod m a b < m := Nat.mod_lt _ hm

theorem sqrtP_lt (v : Nat) : sqrtP v < fieldP := powMod_lt fieldP_gt_one _ _

theorem curveRhs_lt (x : Nat) : curveRhs x < fieldP := Nat.mod_lt _ fieldP_pos

/-! ### Values in `ZMod` -/

/-- Two reduced numbers are equal when they are equal in `ZMod`. -/
theorem eq_of_cast_eq {m a b : Nat} (ha : a < m) (hb : b < m) (h : (a : ZMod m) = b) : a = b := by
  rwa [ZMod.natCast_eq_natCast_iff', Nat.mod_eq_of_lt ha, Nat.mod_eq_of_lt hb] at h

theorem cast_powMod {m : Nat} (hm : 1 < m) (b e : Nat) : (powMod m b e : ZMod m) = (b : ZMod m) ^ e := by
  rw [powMod_eq hm, ZMod.natCast_mod, Nat.cast_pow]

theorem cast_subMod {m : Nat} (hm : 0 < m) (a b : Nat) : (subMod m a b : ZMod m) = a - b := by
  rw [subMod, ZMod.natCast_mod, Nat.cast_add, Nat.cast_sub (Nat.mod_lt _ hm).le, ZMod.natCast_mod,
    ZMod.natCast_self]
  ring

/-- The inverse of R18 is the field's inverse. -/
theorem cast_invMod {m : Nat} (hm : m.Prime) (h2 : 2 < m) (a : Nat) : (invMod m a : ZMod m) = (a : ZMod m)⁻¹ := by
  have : Fact m.Prime := ⟨hm⟩
  rw [invMod, cast_powMod hm.one_lt]
  by_cases h : (a : ZMod m) = 0
  · rw [h, inv_zero, zero_pow (by omega)]
  · refine eq_inv_of_mul_eq_one_left ?_
    rw [← pow_succ, show m - 2 + 1 = m - 1 by omega]
    exact ZMod.pow_card_sub_one_eq_one h

/-- R18: for a not ≡ 0 (mod m), a · inv_m(a) ≡ 1 (mod m). -/
theorem invMod_spec {m : Nat} (hm : m.Prime) (h2 : 2 < m) {a : Nat} (ha : a % m ≠ 0) : a * invMod m a % m = 1 := by
  have : Fact m.Prime := ⟨hm⟩
  have h0 : (a : ZMod m) ≠ 0 := fun h => ha (Nat.mod_eq_zero_of_dvd ((ZMod.natCast_eq_zero_iff _ _).1 h))
  refine eq_of_cast_eq (Nat.mod_lt _ hm.pos) hm.one_lt ?_
  rw [ZMod.natCast_mod, Nat.cast_mul, cast_invMod hm h2, mul_inv_cancel₀ h0, Nat.cast_one]

theorem cast_curveRhs (x : Nat) : (curveRhs x : ZMod fieldP) = (x : ZMod fieldP) ^ 3 + 7 := by
  rw [curveRhs, ZMod.natCast_mod]
  push_cast
  ring

theorem cast_sqrtP (v : Nat) : (sqrtP v : ZMod fieldP) = (v : ZMod fieldP) ^ ((fieldP + 1) / 4) :=
  cast_powMod fieldP_gt_one _ _

/-- The square of `sqrt_p(w²)` is w²: the formula of R184 gives a root of every square. -/
theorem cast_sqrtP_sq {v : Nat} {w : ZMod fieldP} (h : (v : ZMod fieldP) = w ^ 2) :
    (sqrtP v : ZMod fieldP) ^ 2 = v := by
  have : Fact fieldP.Prime := ⟨fieldP_prime⟩
  have h4 : (fieldP + 1) / 4 * 2 = (fieldP - 1) / 2 + 1 := by decide +kernel
  have h5 : 2 * ((fieldP - 1) / 2) = fieldP - 1 := by decide +kernel
  rw [cast_sqrtP, ← pow_mul, h4, pow_succ, h, ← pow_mul, h5]
  by_cases hw : w = 0
  · simp [hw]
  · rw [ZMod.pow_card_sub_one_eq_one hw, one_mul]

/-- The curve equation of R21, as the operations of the model compute it and in the field. -/
theorem onCurve_iff_cast {x y : Nat} :
    y * y % fieldP = curveRhs x ↔ (y : ZMod fieldP) ^ 2 = (x : ZMod fieldP) ^ 3 + 7 := by
  rw [← cast_curveRhs, sq, ← Nat.cast_mul, ZMod.natCast_eq_natCast_iff', Nat.mod_eq_of_lt (curveRhs_lt x)]

theorem Point.onCurve_affine {x y : Nat} :
    (Point.affine x y).onCurve = true ↔ x < fieldP ∧ y < fieldP ∧ y * y % fieldP = curveRhs x := by
  simp [Point.onCurve, and_assoc]

end Sys2Proof.Machine
end

