-- ==== Sys2Proof/Laws/PerInstr.lean ====
section
/-!
SUPPORT. The per-instruction family: the reserved bits of every command word are 0 (R97), one lemma per constructor.
-/

namespace Sys2Proof.Laws.ReservedClear

/-- R97: RSV, bits 31:13 of the instruction's word, is 0. -/
def Statement (i : Sys2Proof.Instr) : Prop := Sys2Proof.fieldRsv (Sys2Proof.encode i) = 0

/-- The packed word has RSV = 0 (R91). -/
theorem packWord_rsv (op : Sys2Proof.Byte) (ch : Sys2Proof.ChSel) (c n s : Bool) :
    Sys2Proof.fieldRsv (Sys2Proof.packWord op ch c n s) = 0 := by
  revert op
  cases ch <;> cases c <;> cases n <;> cases s <;> decide +kernel

theorem nop : Statement .nop := packWord_rsv _ _ _ _ _

theorem b58Encode : Statement .b58Encode := packWord_rsv _ _ _ _ _

theorem b58Decode : Statement .b58Decode := packWord_rsv _ _ _ _ _

theorem b58Checksum : Statement .b58Checksum := packWord_rsv _ _ _ _ _

theorem b58checkEncode : Statement .b58checkEncode := packWord_rsv _ _ _ _ _

theorem b58checkDecode : Statement .b58checkDecode := packWord_rsv _ _ _ _ _

theorem bech32Encode (ch : Sys2Proof.ChSel) : Statement (.bech32Encode ch) := packWord_rsv _ _ _ _ _

theorem bech32Decode (ch : Sys2Proof.ChSel) : Statement (.bech32Decode ch) := packWord_rsv _ _ _ _ _

theorem compress : Statement .compress := packWord_rsv _ _ _ _ _

theorem decompress : Statement .decompress := packWord_rsv _ _ _ _ _

theorem scalarMult (c : Bool) (s : Bool) : Statement (.scalarMult c s) := packWord_rsv _ _ _ _ _

theorem pointAdd (c : Bool) : Statement (.pointAdd c) := packWord_rsv _ _ _ _ _

theorem modSqrt : Statement .modSqrt := packWord_rsv _ _ _ _ _

theorem modInv (s : Bool) : Statement (.modInv s) := packWord_rsv _ _ _ _ _

theorem wifEncode (c : Bool) : Statement (.wifEncode c) := packWord_rsv _ _ _ _ _

theorem wifDecode : Statement .wifDecode := packWord_rsv _ _ _ _ _

theorem recover : Statement .recover := packWord_rsv _ _ _ _ _

theorem verifyMessage (ch : Sys2Proof.ChSel) (n : Bool) : Statement (.verifyMessage ch n) := packWord_rsv _ _ _ _ _

theorem sha256 : Statement .sha256 := packWord_rsv _ _ _ _ _

theorem sha256d : Statement .sha256d := packWord_rsv _ _ _ _ _

theorem ripemd160 : Statement .ripemd160 := packWord_rsv _ _ _ _ _

theorem hash160 : Statement .hash160 := packWord_rsv _ _ _ _ _

theorem keccak256 : Statement .keccak256 := packWord_rsv _ _ _ _ _

theorem msgDigest (ch : Sys2Proof.ChSel) (n : Bool) : Statement (.msgDigest ch n) := packWord_rsv _ _ _ _ _

theorem p2pkhAddr (ch : Sys2Proof.ChSel) (c : Bool) : Statement (.p2pkhAddr ch c) := packWord_rsv _ _ _ _ _

theorem p2wpkhAddr (ch : Sys2Proof.ChSel) : Statement (.p2wpkhAddr ch) := packWord_rsv _ _ _ _ _

theorem ethAddr : Statement .ethAddr := packWord_rsv _ _ _ _ _

theorem addressSet : Statement .addressSet := packWord_rsv _ _ _ _ _

end Sys2Proof.Laws.ReservedClear
end

