-- ==== Sys2Proof/Laws/Rules.lean ====
section
/-!
SUPPORT. What the rule of each command can give: the codes it raises and the RESULT fields it writes. Proofs about all
commands cite `exec_of_wf` and `exec_of_not_wf` and do not unfold a command.
-/

namespace Sys2Proof.Machine

/-! ### The codes of the shared parsers -/

theorem b58dec_error {t : Bytes} {e : ErrCode} (h : b58dec t = .error e) : e = .malformedEncoding := by
  unfold b58dec at h
  split at h <;> simp_all

theorem scalar32_error {b : Bytes} {e : ErrCode} (h : scalar32 b = .error e) : e = .invalidLength := by
  unfold scalar32 at h
  split at h <;> simp_all

theorem liftX_error {x : Nat} {odd : Bool} {e : ErrCode} (h : liftX x odd = .error e) : e = .pointNotOnCurve := by
  unfold liftX at h
  split at h
  · simp_all
  · simp only at h
    split at h <;> simp_all

theorem checkXY_error {x y : Nat} {e : ErrCode} (h : checkXY x y = .error e) : e = .pointNotOnCurve := by
  unfold checkXY at h
  split at h
  · simp_all
  · split at h <;> simp_all

theorem parsePoint_error {b : Bytes} {allowInf : Bool} {e : ErrCode} (h : parsePoint b allowInf = .error e) :
    e ∈ pointErrors := by
  unfold parsePoint at h
  simp only [pointErrors, List.mem_cons, List.not_mem_nil, or_false]
  split at h
  · simp_all
  simp only at h
  split at h
  · split at h <;> simp_all
  split at h
  · split at h
    · simp_all
    · exact .inr (.inr (liftX_error h))
  split at h
  · split at h
    · simp_all
    · exact .inr (.inr (checkXY_error h))
  · simp_all

theorem bech32Program_error {hrp : Bytes} {d : List Nat} {e : ErrCode} (h : bech32Program hrp d = .error e) :
    e = .checksumMismatch ∨ e = .invalidWitnessProgram := by
  unfold bech32Program at h
  repeat' split at h
  all_goals simp_all

theorem bech32DecodeText_error {hrp s : Bytes} {e : ErrCode} (h : bech32DecodeText hrp s = .error e) :
    e = .malformedEncoding ∨ e = .unsupportedPrefix ∨ e = .checksumMismatch ∨ e = .invalidWitnessProgram := by
  unfold bech32DecodeText bech32Parse at h
  repeat' split at h
  all_goals first
    | exact .inr (.inr (bech32Program_error h))
    | simp_all

theorem sigHeader_error {h : Byte} {e : ErrCode} (he : sigHeader h = .error e) : e = .invalidRecoveryId := by
  unfold sigHeader at he
  split at he <;> simp_all

theorem recoverPoint_error {r s e recid : Nat} {comp : Bool} {c : ErrCode}
    (h : recoverPoint r s e recid comp = .error c) : c = .signatureMismatch := by
  unfold recoverPoint at h
  split at h
  · simp_all
  · split at h
    · simp_all
    · simp only at h
      split at h <;> simp_all

theorem recoverSig_error {dg sig : Bytes} {e : ErrCode} (h : recoverSig dg sig = .error e) :
    (dg.length ≠ 32 ∧ e = .invalidLength) ∨ e = .invalidSignatureLength ∨ e = .invalidRecoveryId ∨
      e = .signatureMismatch := by
  unfold recoverSig at h
  split at h
  · simp_all
  · split at h
    · simp_all
    · split at h
      · next he => exact .inr (.inr (.inl (by simp_all [sigHeader_error he])))
      · exact .inr (.inr (.inr (recoverPoint_error h)))

theorem sha256_length (m : Bytes) : (sha256 m).length = 32 := by simp [sha256, sha256Digest, Sha256Regs.words]

theorem msgDigest_length (m : Bytes) (ch : Chain) (n : Bool) : (msgDigest m ch n).length = 32 := sha256_length _

/-! ### What the rule of a command gives -/

/-- Who writes which field of RESULT (R49 to R54). -/
def ResultOf (i : Instr) (r : ResultReg) : Prop :=
  (r.valid = true ↔ ∃ ch n, i = .verifyMessage ch n) ∧
  (r.comp = true → i = .wifDecode ∨ i = .recover ∨ ∃ ch n, i = .verifyMessage ch n) ∧
  (r.recid ≠ 0 → i = .recover ∨ ∃ ch n, i = .verifyMessage ch n) ∧
  (r.inf = true → (∃ c sub, i = .scalarMult c sub) ∨ ∃ c, i = .pointAdd c) ∧
  (r.chain ≠ 0 → ∃ ch n, i = .verifyMessage ch n) ∧
  (r.prefixByte ≠ 0 → i = .wifDecode ∨ i = .b58checkDecode) ∧
  r.chain.toNat ≤ 1

/-- What the rule of `i` can give: one of its codes, or an output with the RESULT fields it writes. -/
def RuleOf (i : Instr) (r : Except ErrCode Output) : Prop :=
  match r with
  | .error e => e ∈ ownErrors i
  | .ok o => ResultOf i o.result

theorem ResultOf.zero {i : Instr} (h : ∀ ch n, i ≠ .verifyMessage ch n) : ResultOf i ResultReg.zero := by
  refine ⟨⟨fun hv => ?_, fun ⟨ch, n, hi⟩ => absurd hi (h ch n)⟩, ?_, ?_, ?_, ?_, ?_, ?_⟩ <;> simp_all [ResultReg.zero]

theorem RuleOf.emit0 {i : Instr} (b : Bytes) (h : ∀ ch n, i ≠ .verifyMessage ch n) : RuleOf i (emit0 b) :=
  ResultOf.zero h

/-- A rule that parses a point and emits something without RESULT fields. -/
theorem RuleOf.point {i : Instr} {b : Bytes} {allowInf : Bool} {f : Point → Except ErrCode Output}
    (hi : ownErrors i = pointErrors) (hf : ∀ p, RuleOf i (f p)) :
    RuleOf i (match parsePoint b allowInf with
      | .error e => .error e
      | .ok p => f p) := by
  cases h : parsePoint b allowInf with
  | error e =>
    have := parsePoint_error h
    simpa only [RuleOf, hi] using this
  | ok p => exact hf p

theorem ResultOf.outPoint {i : Instr} {p : Point} {c : Bool}
    (hi : (∃ c sub, i = .scalarMult c sub) ∨ ∃ c, i = .pointAdd c) : ResultOf i (outPoint p c).result := by
  refine ⟨⟨fun hv => ?_, ?_⟩, ?_, ?_, fun _ => hi, ?_, ?_, ?_⟩ <;> simp_all [Machine.outPoint, ResultReg.zero]
  rintro ch
  rcases hi with ((h | h) | h | h) | h | h <;> simp [h]

theorem RuleOf.b58Decode (t : Bytes) : RuleOf .b58Decode (b58DecodeRule t) := by
  unfold b58DecodeRule
  cases h : b58dec t with
  | error e => simp [RuleOf, ownErrors, b58dec_error h]
  | ok b => exact RuleOf.emit0 b (by simp)

theorem RuleOf.b58checkDecode (t : Bytes) : RuleOf .b58checkDecode (b58checkDecodeRule t) := by
  unfold b58checkDecodeRule
  cases h : b58dec t with
  | error e => simp [RuleOf, ownErrors, b58dec_error h]
  | ok raw =>
    simp only
    split
    · simp [RuleOf, ownErrors]
    · split
      · simp [RuleOf, ownErrors]
      · unfold prefixOf
        simp only [RuleOf, ResultOf]
        split <;> simp [ResultReg.zero]

theorem RuleOf.wifDecode (t a : Bytes) : RuleOf .wifDecode (wifDecodeRule t a) := by
  unfold wifDecodeRule
  cases h : b58dec t with
  | error e => simp [RuleOf, ownErrors, b58dec_error h]
  | ok raw =>
    simp only [wifParse]
    repeat' split
    all_goals simp [RuleOf, ownErrors, ResultOf, ResultReg.zero]

theorem RuleOf.wifEncode (c : Bool) (p k : Bytes) : RuleOf (.wifEncode c) (wifEncodeRule c p k) := by
  unfold wifEncodeRule
  split
  · simp [RuleOf, ownErrors]
  · cases h : scalar32 k with
    | error e => simp [RuleOf, ownErrors, scalar32_error h]
    | ok v =>
      simp only
      split
      · simp [RuleOf, ownErrors]
      · exact RuleOf.emit0 _ (by simp)

theorem RuleOf.modSqrt (b : Bytes) : RuleOf .modSqrt (modSqrtRule b) := by
  unfold modSqrtRule
  cases h : scalar32 b with
  | error e => simp [RuleOf, ownErrors, scalar32_error h]
  | ok v =>
    have he : RuleOf .modSqrt (Machine.emit0 (beBytes 32 (sqrtP v))) := RuleOf.emit0 _ (by simp)
    simp only
    generalize sqrtP v = y at he
    generalize fieldP = p
    split
    · simp [RuleOf, ownErrors]
    · split
      · simp [RuleOf, ownErrors]
      · exact he

theorem RuleOf.modInv (sub : Bool) (m : Nat) (b : Bytes) : RuleOf (.modInv sub) (modInvRule m b) := by
  unfold modInvRule
  cases h : scalar32 b with
  | error e => simp [RuleOf, ownErrors, scalar32_error h]
  | ok v =>
    simp only
    split
    · simp [RuleOf, ownErrors]
    · split
      · simp [RuleOf, ownErrors]
      · exact RuleOf.emit0 _ (by simp)

theorem RuleOf.scalarMultG (c : Bool) (a : Bytes) (p : Point) :
    RuleOf (.scalarMult c true) (scalarMultRule c a (.ok p)) := by
  unfold scalarMultRule
  cases h : scalar32 a with
  | error e => simp [RuleOf, ownErrors, scalar32_error h]
  | ok k => exact ResultOf.outPoint (.inl ⟨_, _, rfl⟩)

theorem RuleOf.scalarMultP (c : Bool) (a b : Bytes) :
    RuleOf (.scalarMult c false) (scalarMultRule c a (parsePoint b true)) := by
  unfold scalarMultRule
  cases h : scalar32 a with
  | error e => simp [RuleOf, ownErrors, pointErrors, scalar32_error h]
  | ok k => exact RuleOf.point rfl fun p => ResultOf.outPoint (.inl ⟨_, _, rfl⟩)

theorem RuleOf.pointAdd (c : Bool) (a b : Bytes) : RuleOf (.pointAdd c) (pointAddRule c a b) :=
  RuleOf.point rfl fun _ => RuleOf.point rfl fun _ => ResultOf.outPoint (.inr ⟨_, rfl⟩)

theorem RuleOf.bech32Encode (ch : ChSel) (c : Chain) (b : Bytes) : RuleOf (.bech32Encode ch) (bech32EncodeRule c b) := by
  unfold bech32EncodeRule
  split
  · simp [RuleOf, ownErrors]
  · exact RuleOf.emit0 _ (by simp)

theorem RuleOf.bech32Decode (ch : ChSel) (c : Chain) (b : Bytes) : RuleOf (.bech32Decode ch) (bech32DecodeRule c b) := by
  unfold bech32DecodeRule
  cases h : bech32DecodeText (hrpOf c) b with
  | error e =>
    have := bech32DecodeText_error h
    simp only [RuleOf, ownErrors, List.mem_cons, List.not_mem_nil, or_false]
    exact this
  | ok p => exact RuleOf.emit0 p (by simp)

theorem RuleOf.recover (dg sig : Bytes) : RuleOf .recover (recoverRule dg sig) := by
  unfold recoverRule
  cases h : recoverSig dg sig with
  | error e => rcases recoverSig_error h with ⟨-, rfl⟩ | rfl | rfl | rfl <;> simp [RuleOf, ownErrors]
  | ok q => simp [RuleOf, ResultOf, ResultReg.zero]

theorem RuleOf.verify (ch : ChSel) (c : Chain) (n : Bool) (a sig m : Bytes) :
    RuleOf (.verifyMessage ch n) (verifyRule c n a sig m) := by
  unfold verifyRule
  cases h : recoverSig (msgDigest m c n) sig with
  | error e =>
    rcases recoverSig_error h with ⟨h, -⟩ | rfl | rfl | rfl
    · exact absurd (msgDigest_length m c n) h
    all_goals simp [RuleOf, ownErrors]
  | ok q =>
    simp only
    split
    · simp [RuleOf, ownErrors]
    · cases c <;> simp [RuleOf, ResultOf, ResultReg.zero, chainBits]

/-- An ill-formed term completes as an illegal word (R99, R317). -/
theorem exec_of_not_wf {i : Instr} (h : i.wf = false) (s : State) : exec i s = .next s.illegal := by
  cases i with
  | bech32Encode ch => cases ch <;> first | rfl | exact absurd h (by decide)
  | bech32Decode ch => cases ch <;> first | rfl | exact absurd h (by decide)
  | verifyMessage ch n => cases ch <;> first | rfl | exact absurd h (by cases n <;> decide)
  | msgDigest ch n => cases ch <;> first | rfl | exact absurd h (by cases n <;> decide)
  | p2pkhAddr ch c => cases ch <;> first | rfl | exact absurd h (by cases c <;> decide)
  | p2wpkhAddr ch => cases ch <;> first | rfl | exact absurd h (by decide)
  | _ => simp [Instr.wf] at h

/-- A well-formed command runs its rule on its operands, at its stage; the rule raises the command's own codes only, and
writes the command's RESULT fields only. -/
theorem exec_of_wf {i : Instr} (h : i.wf = true) (s : State) :
    ∃ r, exec i s = ran s (stageOf i) (operandCount i) r ∧ RuleOf i r := by
  have hv : ∀ {j : Instr}, (∀ ch n, j ≠ .verifyMessage ch n) → ∀ b, RuleOf j (Machine.emit0 b) :=
    fun hj b => RuleOf.emit0 b hj
  cases i with
  | nop => exact ⟨_, rfl, ResultOf.zero (by simp)⟩
  | b58Encode => exact ⟨_, rfl, hv (by simp) _⟩
  | b58Decode => exact ⟨_, rfl, RuleOf.b58Decode _⟩
  | b58Checksum => exact ⟨_, rfl, hv (by simp) _⟩
  | b58checkEncode => exact ⟨_, rfl, hv (by simp) _⟩
  | b58checkDecode => exact ⟨_, rfl, RuleOf.b58checkDecode _⟩
  | bech32Encode ch =>
    cases ch with
    | btc => exact ⟨_, rfl, RuleOf.bech32Encode _ _ _⟩
    | ltc => exact ⟨_, rfl, RuleOf.bech32Encode _ _ _⟩
    | reserved => exact absurd h (by decide)
    | auto => exact absurd h (by decide)
  | bech32Decode ch =>
    cases ch with
    | btc => exact ⟨_, rfl, RuleOf.bech32Decode _ _ _⟩
    | ltc => exact ⟨_, rfl, RuleOf.bech32Decode _ _ _⟩
    | reserved => exact absurd h (by decide)
    | auto => exact absurd h (by decide)
  | compress => exact ⟨_, rfl, RuleOf.point rfl fun _ => hv (by simp) _⟩
  | decompress => exact ⟨_, rfl, RuleOf.point rfl fun _ => hv (by simp) _⟩
  | scalarMult c sub =>
    cases sub with
    | true => exact ⟨_, rfl, RuleOf.scalarMultG _ _ _⟩
    | false => exact ⟨_, rfl, RuleOf.scalarMultP _ _ _⟩
  | pointAdd c => exact ⟨_, rfl, RuleOf.pointAdd _ _ _⟩
  | modSqrt => exact ⟨_, rfl, RuleOf.modSqrt _⟩
  | modInv sub => exact ⟨_, rfl, RuleOf.modInv _ _ _⟩
  | wifEncode c => exact ⟨_, rfl, RuleOf.wifEncode _ _ _⟩
  | wifDecode => exact ⟨_, rfl, RuleOf.wifDecode _ _⟩
  | recover => exact ⟨_, rfl, RuleOf.recover _ _⟩
  | verifyMessage ch n =>
    cases ch with
    | btc => exact ⟨_, rfl, RuleOf.verify _ _ _ _ _ _⟩
    | ltc => exact ⟨_, rfl, RuleOf.verify _ _ _ _ _ _⟩
    | reserved => cases n <;> exact absurd h (by decide)
    | auto => exact ⟨_, rfl, RuleOf.verify _ _ _ _ _ _⟩
  | sha256 => exact ⟨_, rfl, hv (by simp) _⟩
  | sha256d => exact ⟨_, rfl, hv (by simp) _⟩
  | ripemd160 => exact ⟨_, rfl, hv (by simp) _⟩
  | hash160 => exact ⟨_, rfl, hv (by simp) _⟩
  | keccak256 => exact ⟨_, rfl, hv (by simp) _⟩
  | msgDigest ch n =>
    cases ch with
    | btc => exact ⟨_, rfl, hv (by simp) _⟩
    | ltc => exact ⟨_, rfl, hv (by simp) _⟩
    | reserved => cases n <;> exact absurd h (by decide)
    | auto => cases n <;> exact absurd h (by decide)
  | p2pkhAddr ch c =>
    cases ch with
    | btc => exact ⟨_, rfl, RuleOf.point rfl fun _ => hv (by simp) _⟩
    | ltc => exact ⟨_, rfl, RuleOf.point rfl fun _ => hv (by simp) _⟩
    | reserved => cases c <;> exact absurd h (by decide)
    | auto => cases c <;> exact absurd h (by decide)
  | p2wpkhAddr ch =>
    cases ch with
    | btc => exact ⟨_, rfl, RuleOf.point rfl fun _ => hv (by simp) _⟩
    | ltc => exact ⟨_, rfl, RuleOf.point rfl fun _ => hv (by simp) _⟩
    | reserved => exact absurd h (by decide)
    | auto => exact absurd h (by decide)
  | ethAddr => exact ⟨_, rfl, RuleOf.point rfl fun _ => hv (by simp) _⟩
  | addressSet => exact ⟨_, rfl, RuleOf.point rfl fun _ => ResultOf.zero (by simp)⟩

end Sys2Proof.Machine
end

