-- ==== Sys2Proof/Laws/Sha256.lean ====
section
/-!
SUPPORT. The constants of SHA-256 are what their definitions say: whole-number roots and primes.
-/

namespace Sys2Proof.Machine

/-- `rootFrom` gives the whole part of the `k`-th root, when the bits it is given can hold it. -/
theorem rootFrom_spec (k v bits r : Nat) (low : r ^ k ≤ v) (high : v < (r + 2 ^ bits) ^ k) :
    rootFrom k v bits r ^ k ≤ v ∧ v < (rootFrom k v bits r + 1) ^ k := by
  induction bits generalizing r with
  | zero => exact ⟨low, by simpa [rootFrom] using high⟩
  | succ bits ih =>
    rw [rootFrom]
    split
    · exact ih _ ‹_› (by rwa [Nat.add_assoc, ← Nat.two_mul, ← Nat.pow_succ'])
    · exact ih _ low (by omega)

/-- A fraction that `rootFraction` gives is the low 32 bits of the whole part of 2^32 times the root. -/
theorem rootFraction_spec {k p : Nat} (hk : k ≠ 0) (hp : p < 8 ^ k) :
    ∃ x, x ^ k ≤ p * 2 ^ (32 * k) ∧ p * 2 ^ (32 * k) < (x + 1) ^ k ∧ rootFraction k p = BitVec.ofNat 32 x := by
  have h : p * 2 ^ (32 * k) < (0 + 2 ^ 35) ^ k := by
    rw [Nat.zero_add, show (2 : Nat) ^ 35 = 8 * 2 ^ 32 by norm_num, Nat.mul_pow, ← Nat.pow_mul]
    exact Nat.mul_lt_mul_of_pos_right hp (by positivity)
  obtain ⟨h1, h2⟩ := rootFrom_spec k _ 35 0 (by simp [hk]) h
  exact ⟨_, h1, h2, rfl⟩

/-- The numbers whose cube roots SHA-256 takes are the primes below 312. -/
theorem sha256Primes_eq : sha256Primes = (List.range 312).filter Nat.Prime := by decide +kernel

theorem sha256K_length : sha256K.length = 64 := by decide +kernel

end Sys2Proof.Machine
end

