-- ==== Sys2Proof/Tests/Slice0.lean ====
section
/-!
SUPPORT. Tests of the model, each a named theorem whose expected result comes from the spec (the rule is named) or from
a calculation outside the model; and for every obligation with hypotheses, states and operands that meet them.
-/

set_option Elab.async false

namespace Sys2Proof.Tests

open Sys2Proof.Machine

/-! ### Helpers -/

/-- A small state: `i` latched and started on the operands `ops`, which stand in IBUF. -/
def loaded (i : Instr) (ops : List Bytes) : State :=
  let l (k : Nat) : BitVec 16 := BitVec.ofNat 16 (ops.getD k []).length
  { State.reset with
    cmd := encode i
    len0 := l 0
    len1 := l 1
    len2 := l 2
    cur := ⟨encode i, l 0, l 1, l 2⟩
    busy := true
    ibuf := ⟨0, ops.flatten.zipIdx.map fun x => (x.2, x.1)⟩ }

/-- The step completes with success, exactly these slots, each from 128·j on (R115), and this RESULT. -/
def answers (a : Answer) (slots : List (Fin 8 × Bytes)) (r : ResultReg) : Bool :=
  match a with
  | .next t =>
    t.err == .ok && t.done && !t.busy && t.result == r
      && t.obuf.cells == slots.flatMap (fun x => x.2.zipIdx.map fun y => (128 * x.1.val + y.2, y.1))
      && slots.all (fun x => t.olen[x.1] == BitVec.ofNat 16 x.2.length)
      && (List.range 8).all fun j => slots.any (fun x => x.1.val == j) || t.olen.toList.getD j 1 == 0
  | .fault _ => false
  | .refused _ => false

/-- The step completes with this error and stage. -/
def failsAs (a : Answer) (e : ErrCode) (st : Stage) : Bool :=
  match a with
  | .next t => t.err == e && t.stage == st && t.done && !t.busy && t.result == ResultReg.zero
  | .fault _ => false
  | .refused _ => false

/-- The generator, 33 and 65 bytes (R5, R127). -/
def gen33 : Bytes := 0x02 :: beBytes 32 genX

/-- The generator, 65 bytes. -/
def gen65 : Bytes := 0x04 :: (beBytes 32 genX ++ beBytes 32 genY)

/-! ### Well-formedness: an ill-formed term for each check (R99) -/

theorem test_wf_bech32Encode_reserved : (Instr.bech32Encode .reserved).wf = false := by decide

theorem test_wf_bech32Encode_auto : (Instr.bech32Encode .auto).wf = false := by decide

theorem test_wf_bech32Decode_reserved : (Instr.bech32Decode .reserved).wf = false := by decide

theorem test_wf_verifyMessage_reserved : (Instr.verifyMessage .reserved true).wf = false := by decide

theorem test_wf_verifyMessage_auto : (Instr.verifyMessage .auto true).wf = true := by decide

theorem test_wf_msgDigest_auto : (Instr.msgDigest .auto false).wf = false := by decide

theorem test_wf_p2pkhAddr_reserved : (Instr.p2pkhAddr .reserved true).wf = false := by decide

theorem test_wf_p2wpkhAddr_auto : (Instr.p2wpkhAddr .auto).wf = false := by decide

/-! ### Decoding: words written out from R91 and R100, and the examples of R105 -/

theorem test_decode_nop : decode 0x00000000 = .ok .nop := by decide

theorem test_decode_b58Encode : decode 0x00000010 = .ok .b58Encode := by decide

theorem test_decode_b58Decode : decode 0x00000011 = .ok .b58Decode := by decide

theorem test_decode_b58Checksum : decode 0x00000012 = .ok .b58Checksum := by decide

theorem test_decode_b58checkEncode : decode 0x00000013 = .ok .b58checkEncode := by decide

theorem test_decode_b58checkDecode : decode 0x00000014 = .ok .b58checkDecode := by decide

theorem test_decode_bech32Encode : decode 0x00000118 = .ok (.bech32Encode .ltc) := by decide

theorem test_decode_bech32Decode : decode 0x00000019 = .ok (.bech32Decode .btc) := by decide

theorem test_decode_compress : decode 0x00000020 = .ok .compress := by decide

theorem test_decode_decompress : decode 0x00000021 = .ok .decompress := by decide

theorem test_decode_scalarMult : decode 0x00001422 = .ok (.scalarMult true true) := by decide

theorem test_decode_scalarMult_s : decode 0x00001022 = .ok (.scalarMult false true) := by decide

theorem test_decode_pointAdd : decode 0x00000423 = .ok (.pointAdd true) := by decide

theorem test_decode_modSqrt : decode 0x00000024 = .ok .modSqrt := by decide

theorem test_decode_modInv : decode 0x00001025 = .ok (.modInv true) := by decide

theorem test_decode_wifEncode : decode 0x00000428 = .ok (.wifEncode true) := by decide

theorem test_decode_wifDecode : decode 0x00000029 = .ok .wifDecode := by decide

theorem test_decode_recover : decode 0x00000030 = .ok .recover := by decide

theorem test_decode_verifyMessage : decode 0x00000B31 = .ok (.verifyMessage .auto true) := by decide

theorem test_decode_sha256 : decode 0x00000040 = .ok .sha256 := by decide

theorem test_decode_sha256d : decode 0x00000041 = .ok .sha256d := by decide

theorem test_decode_ripemd160 : decode 0x00000042 = .ok .ripemd160 := by decide

theorem test_decode_hash160 : decode 0x00000043 = .ok .hash160 := by decide

theorem test_decode_keccak256 : decode 0x00000044 = .ok .keccak256 := by decide

theorem test_decode_msgDigest : decode 0x00000945 = .ok (.msgDigest .ltc true) := by decide

theorem test_decode_p2pkhAddr : decode 0x00000548 = .ok (.p2pkhAddr .ltc true) := by decide

theorem test_decode_p2wpkhAddr : decode 0x00000149 = .ok (.p2wpkhAddr .ltc) := by decide

theorem test_decode_ethAddr : decode 0x0000004A = .ok .ethAddr := by decide

theorem test_decode_addressSet : decode 0x0000004B = .ok .addressSet := by decide

theorem test_decode_refuses_rsv : decode 0x00002040 = .error .reservedBits := by decide

theorem test_decode_refuses_opcode : decode 0x00000026 = .error .reservedOpcode := by decide

theorem test_decode_refuses_nop_field : decode 0x00000100 = .error .unusedField := by decide

theorem test_decode_refuses_c_unused : decode 0x00000440 = .error .unusedField := by decide

theorem test_decode_refuses_ch_reserved : decode 0x00000218 = .error .illegalChain := by decide

theorem test_decode_refuses_ch_auto : decode 0x00000318 = .error .illegalChain := by decide

theorem test_decode_refuses_verify_reserved : decode 0x00000231 = .error .illegalChain := by decide

/-! ### Commands: one step each, on the worked examples of their rules unless another source is named -/

theorem test_nop :
    answers (step (loaded .nop []))
      [] ResultReg.zero = true := by
  decide +kernel

theorem test_b58Encode :
    answers (step (loaded .b58Encode [[0, 0, 1]]))
      [(0, text "112")] ResultReg.zero = true := by
  decide +kernel

theorem test_b58Decode :
    answers (step (loaded .b58Decode [text "7bWpTW"]))
      [(0, [1, 2, 3, 4, 5])] ResultReg.zero = true := by
  decide +kernel

theorem test_b58Checksum :
    answers (step (loaded .b58Checksum [[0]]))
      [(0, [0x14, 0x06, 0xE0, 0x58])] ResultReg.zero = true := by
  decide +kernel

theorem test_b58checkEncode :
    answers (step (loaded .b58checkEncode [[0]]))
      [(0, text "1Wh4bh")] ResultReg.zero = true := by
  decide +kernel

theorem test_b58checkDecode :
    answers (step (loaded .b58checkDecode [text "1BgGZ9tcN4rm9KBzDn7KprQz87SZ26SAMH"]))
      [(0, 0 :: (beBytes 20 0x751E76E8199196D454941C45D1B3A323F1433BD6))] ResultReg.zero = true := by
  decide +kernel

theorem test_bech32Encode :
    answers (step (loaded (.bech32Encode .btc) [beBytes 20 0x751E76E8199196D454941C45D1B3A323F1433BD6]))
      [(0, text "bc1qw508d6qejxtdg4y5r3zarvary0c5xw7kv8f3t4")] ResultReg.zero = true := by
  decide +kernel

theorem test_bech32Decode :
    answers (step (loaded (.bech32Decode .btc) [text "BC1QW508D6QEJXTDG4Y5R3ZARVARY0C5XW7KV8F3T4"]))
      [(0, beBytes 20 0x751E76E8199196D454941C45D1B3A323F1433BD6)] ResultReg.zero = true := by
  decide +kernel

theorem test_compress :
    answers (step (loaded .compress [gen65]))
      [(0, gen33)] ResultReg.zero = true := by
  decide +kernel

theorem test_decompress :
    answers (step (loaded .decompress [beBytes 33 0x0379BE667EF9DCBBAC55A06295CE870B07029BFCDB2DCE28D959F2815B16F81798]))
      [(0, beBytes 65 0x0479BE667EF9DCBBAC55A06295CE870B07029BFCDB2DCE28D959F2815B16F81798B7C52588D95C3B9AA25B0403F1EEF75702E84BB7597AABE663B82F6F04EF2777)] ResultReg.zero = true := by
  decide +kernel

theorem test_scalarMult_g :
    answers (step (loaded (.scalarMult true true) [beBytes 32 0x0000000000000000000000000000000000000000000000000000000000000001]))
      [(0, gen33)] ResultReg.zero = true := by
  decide +kernel

theorem test_scalarMult_zero :
    answers (step (loaded (.scalarMult true false) [beBytes 32 0x0000000000000000000000000000000000000000000000000000000000000000, gen65]))
      [(0, [0])] { ResultReg.zero with inf := true } = true := by
  decide +kernel

theorem test_pointAdd :
    answers (step (loaded (.pointAdd false) [gen33, gen65]))
      [(0, beBytes 65 0x04C6047F9441ED7D6D3045406E95C07CD85C778E4B8CEF3CA7ABAC09B95C709EE51AE168FEA63DC339A3C58419466CEAEEF7F632653266D0E1236431A950CFE52A)] ResultReg.zero = true := by
  decide +kernel

theorem test_modSqrt :
    answers (step (loaded .modSqrt [beBytes 32 0x0000000000000000000000000000000000000000000000000000000000000002]))
      [(0, beBytes 32 0x210C790573632359B1EDB4302C117D8A132654692C3FEEB7DE3A86AC3F3B53F7)] ResultReg.zero = true := by
  decide +kernel

theorem test_modInv :
    answers (step (loaded (.modInv false) [beBytes 32 0x0000000000000000000000000000000000000000000000000000000000000002]))
      [(0, beBytes 32 0x7FFFFFFFFFFFFFFFFFFFFFFFFFFFFFFFFFFFFFFFFFFFFFFFFFFFFFFF7FFFFE18)] ResultReg.zero = true := by
  decide +kernel

theorem test_wifEncode :
    answers (step (loaded (.wifEncode true) [[0x80], beBytes 32 0x0000000000000000000000000000000000000000000000000000000000000001]))
      [(0, text "KwDiBf89QgGbjEhKnhXJuH7LrciVrZi3qYjgd9M7rFU73sVHnoWn")] ResultReg.zero = true := by
  decide +kernel

theorem test_wifDecode :
    answers (step (loaded .wifDecode [text "KwDiBf89QgGbjEhKnhXJuH7LrciVrZi3qYjgd9M7rFU73sVHnoWn", [0x80, 0xB0]]))
      [(0, beBytes 32 0x0000000000000000000000000000000000000000000000000000000000000001)] { ResultReg.zero with prefixByte := 0x80, comp := true } = true := by
  decide +kernel

theorem test_sha256 :
    answers (step (loaded .sha256 [text "abc"]))
      [(0, beBytes 32 0xBA7816BF8F01CFEA414140DE5DAE2223B00361A396177A9CB410FF61F20015AD)] ResultReg.zero = true := by
  decide +kernel

theorem test_sha256d :
    answers (step (loaded .sha256d [[]]))
      [(0, beBytes 32 0x5DF6E0E2761359D30A8275058E299FCC0381534545F55CF43E41983F5D4C9456)] ResultReg.zero = true := by
  decide +kernel

theorem test_ripemd160 :
    answers (step (loaded .ripemd160 [text "abc"]))
      [(0, beBytes 20 0x8EB208F7E05D987A9B044A8E98C6B087F15A0BFC)] ResultReg.zero = true := by
  decide +kernel

theorem test_hash160 :
    answers (step (loaded .hash160 [gen33]))
      [(0, beBytes 20 0x751E76E8199196D454941C45D1B3A323F1433BD6)] ResultReg.zero = true := by
  decide +kernel

theorem test_keccak256 :
    answers (step (loaded .keccak256 [[]]))
      [(0, beBytes 32 0xC5D2460186F7233C927E7DB2DCC703C0E500B653CA82273B7BFAD8045D85A470)] ResultReg.zero = true := by
  decide +kernel

theorem test_msgDigest :
    answers (step (loaded (.msgDigest .btc false) [text "Hello World!"]))
      [(0, beBytes 32 0xDE4E9524586D6FCE45667F9FF12F661E79870C4105FA0FB58AF976619BB11432)] ResultReg.zero = true := by
  decide +kernel

theorem test_p2pkhAddr :
    answers (step (loaded (.p2pkhAddr .btc true) [gen65]))
      [(0, text "1BgGZ9tcN4rm9KBzDn7KprQz87SZ26SAMH")] ResultReg.zero = true := by
  decide +kernel

theorem test_p2wpkhAddr :
    answers (step (loaded (.p2wpkhAddr .ltc) [gen65]))
      [(0, text "ltc1qw508d6qejxtdg4y5r3zarvary0c5xw7kgmn4n9")] ResultReg.zero = true := by
  decide +kernel

theorem test_ethAddr :
    answers (step (loaded .ethAddr [gen65]))
      [(0, text "0x7E5F4552091A69125d5DfCb7b8C2659029395Bdf")] ResultReg.zero = true := by
  decide +kernel

/-- The seven slots of ADDRESS_SET for G (R266). -/
theorem test_addressSlots :
    addressSlots genG = [
      (0, text "1BgGZ9tcN4rm9KBzDn7KprQz87SZ26SAMH"),
      (1, text "1EHNa6Q4Jz2uvNExL497mE43ikXhwF6kZm"),
      (2, text "bc1qw508d6qejxtdg4y5r3zarvary0c5xw7kv8f3t4"),
      (3, text "LVuDpNCSSj6pQ7t9Pv6d6sUkLKoqDEVUnJ"),
      (4, text "LYWKqJhtPeGyBAw7WC8R3F7ovxtzAiubdM"),
      (5, text "ltc1qw508d6qejxtdg4y5r3zarvary0c5xw7kgmn4n9"),
      (6, text "0x7E5F4552091A69125d5DfCb7b8C2659029395Bdf")] := by
  decide +kernel

/-- ADDRESS_SET of the byte 00 (R266, R125). -/
theorem test_fails_addressSet : failsAs (step (loaded .addressSet [[0x00]])) .malformedEncoding .encoding = true := by
  decide +kernel

/-- A signature whose r has the inverse 2 mod n, and s = 1; recovery id 0, compressed. -/
def sigHalf : Bytes := 31 :: (beBytes 32 0x7fffffffffffffffffffffffffffffff5d576e7357a4501ddfe92f46681b20a1 ++ beBytes 32 1)

/-- The signature hash of "Hello World!" on Bitcoin (R233's worked example). -/
def digestHello : Bytes := beBytes 32 0xDE4E9524586D6FCE45667F9FF12F661E79870C4105FA0FB58AF976619BB11432

/-- The key of `sigHalf` for that digest, calculated outside the model: 2·(R + (−e)·G). -/
def keyHello : Point :=
  .affine 0x18583dc3ca2244b23bf6cd9f0fc289a1f480df7d4e7e7faf50af004fd050130d
    0xf6e79ee74a361ede957385663a9e6aab947668ca62a586e4551d926e0353691e

/-- The rule of RECOVER on the digest 0: the key is 2·R, calculated outside the model. -/
theorem test_recoverRule :
    (match recoverRule (beBytes 32 0) sigHalf with
      | .ok o => o.slots == [(0, 0x04 ::
          (beBytes 32 0x13c05010ebcd27c77b7281a566e2924920f56af05883548861a53dcfd3cc597b
            ++ beBytes 32 0xce29cbc3e19d356fe0ddc954ffad36403f15c4b57069cbff0579bef09433fd67))]
          && o.result == { ResultReg.zero with comp := true }
      | .error _ => false) = true := by
  decide +kernel

theorem test_recoverSig : recoverSig digestHello sigHalf = .ok ⟨keyHello, 0, true⟩ := by decide +kernel

/-- The address of `keyHello`, calculated outside the model. -/
theorem test_p2pkhText : p2pkhText .btc keyHello true = text "19KRKPRN3YU7w3VNmq2ZxhB1wUBHkJ7XHX" := by decide +kernel

theorem test_msgDigest_hello : msgDigest (text "Hello World!") .btc false = digestHello := by decide +kernel

/-- The rule of VERIFY_MESSAGE on that signature: the key, the address, and RESULT = 0x0003 (R236). -/
theorem test_verifyRule :
    verifyRule .btc false (text "19KRKPRN3YU7w3VNmq2ZxhB1wUBHkJ7XHX") sigHalf (text "Hello World!")
      = .ok ⟨[(0, ser keyHello false), (1, text "19KRKPRN3YU7w3VNmq2ZxhB1wUBHkJ7XHX")],
        { ResultReg.zero with valid := true, comp := true }⟩ := by
  rw [verifyRule, test_msgDigest_hello, test_recoverSig]
  simp only [test_p2pkhText]
  decide +kernel

/-! ### Failures: one step each, from the rules -/

/-- R126 -/
theorem test_fails_scalar_short : failsAs (step (loaded (.scalarMult true true) [beBytes 31 0x00000000000000000000000000000000000000000000000000000000000000])) .invalidLength .recovery = true := by
  decide +kernel

/-- R145 -/
theorem test_fails_b58Decode : failsAs (step (loaded .b58Decode [text "0"])) .malformedEncoding .codec = true := by
  decide +kernel

/-- R148 -/
theorem test_fails_b58checkDecode : failsAs (step (loaded .b58checkDecode [text "1"])) .invalidLength .codec = true := by
  decide +kernel

/-- R166 -/
theorem test_fails_bech32Encode : failsAs (step (loaded (.bech32Encode .btc) [[]])) .invalidWitnessProgram .codec = true := by
  decide +kernel

/-- R185 -/
theorem test_fails_compress : failsAs (step (loaded .compress [[0x00]])) .malformedEncoding .codec = true := by
  decide +kernel

/-- R186: x = 0 has no point -/
theorem test_fails_decompress : failsAs (step (loaded .decompress [beBytes 33 0x020000000000000000000000000000000000000000000000000000000000000000])) .pointNotOnCurve .codec = true := by
  decide +kernel

/-- R189: v = p − 1 -/
theorem test_fails_modSqrt : failsAs (step (loaded .modSqrt [beBytes 32 (fieldP - 1)])) .notQuadraticResidue .recovery = true := by
  decide +kernel

/-- R190 -/
theorem test_fails_modInv : failsAs (step (loaded (.modInv true) [beBytes 32 orderN])) .operandOutOfRange .recovery = true := by
  decide +kernel

/-- R214 -/
theorem test_fails_wifEncode : failsAs (step (loaded (.wifEncode false) [[0x80], beBytes 32 0x0000000000000000000000000000000000000000000000000000000000000000])) .operandOutOfRange .codec = true := by
  decide +kernel

/-- R215 -/
theorem test_fails_wifDecode : failsAs (step (loaded .wifDecode [text "KwDiBf89QgGbjEhKnhXJuH7LrciVrZi3qYjgd9M7rFU73sVHnoWn", []])) .unsupportedPrefix .codec = true := by
  decide +kernel

/-- R231 -/
theorem test_fails_recover : failsAs (step (loaded .recover [beBytes 32 0x0000000000000000000000000000000000000000000000000000000000000000, 26 :: beBytes 64 1])) .invalidRecoveryId .recovery = true := by
  decide +kernel

/-- R236 -/
theorem test_fails_verifyMessage : failsAs (step (loaded (.verifyMessage .btc false) [[], [], []])) .invalidSignatureLength .recovery = true := by
  decide +kernel

/-- R114: operands that do not fit IBUF. -/
theorem test_fails_framing :
    failsAs (step { loaded .sha256 [] with cur := ⟨0x40, 1025, 0, 0⟩ }) .invalidLength .interface = true := by
  decide +kernel

/-- R317: a reserved opcode. -/
theorem test_fails_illegal :
    failsAs (step { loaded .nop [] with cur := ⟨0x26, 0, 0, 0⟩ }) .illegalCommand .interface = true := by
  decide +kernel

/-- R123: NOP from reset, started by the host: STATUS = 2. -/
theorem test_nop_from_host :
    (match hostWrites State.reset 4 4 1 with
      | .next s =>
        match step s with
        | .next t => t.readReg .status
        | .fault _ => 0
        | .refused _ => 0
      | .fault _ => 0
      | .refused _ => 0) = 2 := by
  decide +kernel

/-- The fetch of an instruction that the interface places: its word runs in the very next step. -/
theorem test_withFetchWord :
    answers (step (State.reset.withFetchWord 32 0x40)) [(0, beBytes 32
      0xE3B0C44298FC1C149AFBF4C8996FB92427AE41E4649B934CA495991B7852B855)] ResultReg.zero = true := by
  decide +kernel

/-- R75: an access outside the window during a run changes nothing of the block, and the command completes after it. -/
theorem test_outside_window :
    let s := { loaded .nop [] with inputs := [.host (.write 0x3004 4 0xFFFFFFFF)] }
    step s = .next { s with inputs := [], responses := [.notReached] } ∧
    answers (step { s with inputs := [], responses := [.notReached] }) [] ResultReg.zero = true := by
  exact ⟨rfl, by decide +kernel⟩

/-- R84, R115: once a command has completed, a host read of OLEN0 answers the length of slot 0. -/
theorem test_olen_read :
    (match step (loaded .b58Encode [[0x00, 0x00, 0x01]]) with
      | .next t => (t.busRead 0x20 4).2
      | .fault _ => .busError
      | .refused _ => .busError) = .data 3 := by
  decide +kernel

/-- R76: a 32-bit write stores its lowest byte at the lowest offset. -/
theorem test_ibuf_write :
    (match hostWrites State.reset 0x1000 4 0x04030201 with
      | .next t => (List.range 4).map t.ibuf.byte?
      | .fault _ => []
      | .refused _ => []) = [some 1, some 2, some 3, some 4] := by
  decide +kernel

/-! ### Witnesses: states and operands that meet the hypotheses of the obligations -/

/-- The OP of a command's word. -/
theorem encode_op_ne (i : Instr) : (encode i).extractLsb' 0 8 ≠ 0x26 := by
  rcases i with _ | _ | _ | _ | _ | _ | ch | ch | _ | _ | ⟨c, s⟩ | c | _ | s | c | _ | _ | ⟨ch, n⟩ | _ | _ | _ | _ | _ |
    ⟨ch, n⟩ | ⟨ch, c⟩ | ch | _ | _
  all_goals (try cases ch) <;> (try cases c) <;> (try cases n) <;> (try cases s) <;> decide

theorem witness_IllegalWords_command : (Instr.verifyMessage .auto true).wf = true := by decide

theorem witness_IllegalWords_step :
    ∃ s : State, s.busy = true ∧ engineNext s ∧ ¬ ∃ i : Instr, i.wf = true ∧ encode i = s.cur.cmd := by
  refine ⟨{ loaded .nop [] with cur := ⟨0x26, 0, 0, 0⟩ }, rfl, .inl rfl, ?_⟩
  rintro ⟨i, -, h⟩
  exact encode_op_ne i (by rw [h]; decide)

theorem witness_StepRunsDecoded :
    (loaded .sha256 []).busy = true ∧ engineNext (loaded .sha256 []) ∧
    decode (loaded .sha256 []).cur.cmd = .ok .sha256 ∧ Instr.sha256.wf = true ∧
    engineNext { loaded .sha256 [] with inputs := [.engine, .host .powerOnReset] } := by
  decide

/-- The invariant holds of a state with a command running, and that state steps. -/
theorem witness_StepKeepsInv : ∃ s t : State, Inv s ∧ step s = .next t := by
  refine ⟨loaded .nop [], _, ?_, rfl⟩
  constructor <;> decide

theorem witness_StartedCommandEnds_idle : State.reset.busy = false ∧ engineNext State.reset := by decide

theorem witness_StartedCommandEnds_busy :
    let s := { loaded .nop [] with inputs := [.host (.read 0x2FFC 4), .host (.read 0x3000 4), .host (.write 4 4 1), .engine] }
    s.busy = true ∧ ∀ x ∈ s.inputs, x.resets s = false := by
  decide

theorem witness_Resets : (0xF : Word).getLsbD 3 = true ∧ (0x8 : Word).getLsbD 3 = true := by decide

/-- A host write of `v` to CTRL is the next turn of `s`. -/
def withCtrl (s : State) (v : Word) : State := { s with inputs := [.host (.write 4 4 v)] }

/-- BUSY rises at a START, and falls at a completion and at a reset. -/
theorem witness_BusyAndDoneChanges_busy :
    (∃ t, step (withCtrl State.reset 1) = .next t ∧ State.reset.busy = false ∧ t.busy = true) ∧
    (∃ t, step (loaded .nop []) = .next t ∧ (loaded .nop []).busy = true ∧ t.busy = false ∧
      (loaded .nop []).done = false ∧ t.done = true) ∧
    (∃ t, step (withCtrl (loaded .nop []) 8) = .next t ∧ (loaded .nop []).busy = true ∧ t.busy = false) :=
  ⟨⟨_, rfl, by decide, by decide⟩, ⟨_, rfl, by decide, by decide, by decide, by decide⟩, ⟨_, rfl, by decide, by decide⟩⟩

/-- DONE falls at a START and at a CLR. -/
theorem witness_BusyAndDoneChanges_done :
    (∃ t, step (withCtrl { State.reset with done := true } 1) = .next t ∧ t.done = false) ∧
    (∃ t, step (withCtrl { State.reset with done := true } 4) = .next t ∧ t.done = false) ∧
    ¬ (State.reset.busy = true ∧ State.reset.done = true) :=
  ⟨⟨_, rfl, by decide⟩, ⟨_, rfl, by decide⟩, by decide⟩

theorem witness_HazardFlag :
    (∃ t, step (withCtrl (loaded .nop []) 1) = .next t ∧ (loaded .nop []).haz = false ∧ t.haz = true) ∧
    (∃ t, step (withCtrl { State.reset with haz := true } 4) = .next t ∧ t.haz = false) ∧
    (∃ t, step (withCtrl { loaded .nop [] with haz := true } 8) = .next t ∧ t.haz = false) ∧
    ∃ t, exec .nop (loaded .nop []) = .next t :=
  ⟨⟨_, rfl, by decide, by decide⟩, ⟨_, rfl, by decide⟩, ⟨_, rfl, by decide⟩, ⟨_, rfl⟩⟩

theorem witness_InterruptLevel :
    (∃ t, step { loaded .nop [] with ie := true } = .next t ∧ { loaded .nop [] with ie := true }.irq = false ∧
      t.irq = true) ∧
    (∃ t, step (withCtrl { State.reset with done := true } 2) = .next t ∧
      { State.reset with done := true }.irq = false ∧ t.irq = true) :=
  ⟨⟨_, rfl, by decide, by decide⟩, ⟨_, rfl, by decide, by decide⟩⟩

theorem witness_StartAccepted :
    State.reset.busy = false ∧ (0x5 : Word).getLsbD 3 = false ∧ (0x5 : Word).getLsbD 0 = true := by decide

theorem witness_CtrlWriteWhileBusy : (loaded .nop []).busy = true ∧ (0x5 : Word).getLsbD 3 = false := by decide

theorem witness_ClearStatus :
    (0x4 : Word).getLsbD 3 = false ∧ (0x4 : Word).getLsbD 0 = false ∧ (0x4 : Word).getLsbD 2 = true ∧
    State.reset.busy = false ∧ (loaded .nop []).busy = true ∧
    (0x4 : Word).getLsbD 1 = (loaded .nop []).ie ∧
    (0x2 : Word).getLsbD 3 = false ∧ (0x2 : Word).getLsbD 0 = false ∧ (0x2 : Word).getLsbD 2 = false := by decide

theorem witness_CtrlWriteOrder : (0xF : Word).getLsbD 3 = true ∧ (0x7 : Word).getLsbD 3 = false := by decide

theorem witness_InputRegisters : State.reset.busy = false ∧ (loaded .nop []).busy = true := by decide

/-- The last byte of IBUF, and the last register of the four. -/
theorem witness_InputWritesWhileBusyDropped :
    let s := loaded .nop []
    s.params.wf ∧ s.busy = true ∧ aligned 0x18 4 ∧ aligned 0x13FF 1 ∧ aligned 0x1000 4 ∧
    ((0x13FF : Nat) ≤ 0x13FF ∧ 0x13FF < 0x13FF + 1 ∧ 0x1000 ≤ 0x13FF ∧ 0x13FF < 0x1000 + s.params.ibufSize) := by
  decide

theorem witness_IbufAccess :
    State.reset.params.wf ∧ State.reset.busy = false ∧ aligned 0x1000 1 ∧ State.reset.inIbuf 0x1000 1 ∧
    aligned 0x13FC 4 ∧ State.reset.inIbuf 0x13FC 4 := by decide

theorem witness_ObufAccess :
    State.reset.params.wf ∧ State.reset.busy = false ∧ aligned 0x2000 2 ∧ State.reset.inObuf 0x2000 2 ∧
    aligned 0x27FC 4 ∧ State.reset.inObuf 0x27FC 4 := by decide

theorem witness_ReadsWhileBusy :
    let s := loaded .nop []
    s.params.wf ∧ s.busy = true ∧ aligned 0x27FF 1 ∧ s.inObuf 0x27FF 1 ∧ aligned 0x1C 4 ∧ aligned 0x3C 4 ∧
    aligned 0x13FC 4 ∧ s.inIbuf 0x13FC 4 := by decide

theorem witness_ReservedOffsets_low :
    let s := State.reset
    s.params.wf ∧ aligned 0x44 4 ∧ s.inReserved 0x44 4 ∧ aligned 0xFFC 4 ∧ s.inReserved 0xFFC 4 := by decide

theorem witness_ReservedOffsets_mid :
    let s := State.reset
    aligned 0x1400 1 ∧ s.inReserved 0x1400 1 ∧ aligned 0x1FFC 4 ∧ s.inReserved 0x1FFC 4 := by decide

theorem witness_ReservedOffsets_high :
    let s := State.reset
    aligned 0x2800 2 ∧ s.inReserved 0x2800 2 ∧ aligned 0x2FFF 1 ∧ s.inReserved 0x2FFF 1 := by decide

theorem witness_BusErrors :
    ¬ aligned 0x2 4 ∧ ¬ aligned 0xFFC 2 ∧ ¬ aligned 0x1002 4 ∧ ¬ aligned 0x2FFF 2 ∧ ¬ aligned 0x1000 8 ∧
    aligned 0xFFC 4 ∧ aligned 0x2FFF 1 ∧ State.reset.params.blockBase + 0x3000 ≤ 0x3000 ∧
    (0xFFF : Nat) < { State.reset with params := ⟨1024, 2048, 0x1000⟩ }.params.blockBase := by
  decide

theorem witness_RegisterLayout : State.reset.params.wf ∧ State.reset.busy = false := by decide

/-- Three operands that fill IBUF fit; one byte more does not. -/
theorem witness_OperandFraming :
    (Instr.verifyMessage .btc false).wf = true ∧
    { loaded .nop [] with cur := ⟨0, 34, 65, 925⟩ }.fits (operandCount (.verifyMessage .btc false)) ∧
    ¬ { loaded .nop [] with cur := ⟨0, 34, 65, 926⟩ }.fits (operandCount (.verifyMessage .btc false)) ∧
    ¬ { loaded .nop [] with cur := ⟨0, 1025, 0, 0⟩ }.fits (operandCount .sha256) := by decide

/-- A failing command, framed, not framed, and ill formed. -/
theorem witness_StageTable :
    (∃ t, exec .modSqrt (loaded .modSqrt [[]]) = .next t ∧ t.err ≠ .ok) ∧
    (∃ t, exec .sha256 { loaded .sha256 [] with cur := ⟨0x40, 1025, 0, 0⟩ } = .next t ∧ t.err ≠ .ok) ∧
    (∃ t, exec (.bech32Encode .auto) State.reset = .next t ∧ t.err ≠ .ok) :=
  ⟨⟨_, rfl, by decide +kernel⟩, ⟨_, rfl, by decide +kernel⟩, ⟨_, rfl, by decide⟩⟩

theorem witness_ErrorCodesByCommand :
    ∃ t, (loaded .modSqrt [[]]).params.wf ∧ Instr.modSqrt.wf = true ∧
      (loaded .modSqrt [[]]).fits (operandCount .modSqrt) ∧ exec .modSqrt (loaded .modSqrt [[]]) = .next t :=
  ⟨_, by decide, by decide, by decide, rfl⟩

/-- Two different states that agree on what a command may depend on. -/
theorem witness_CommandsArePure :
    let s := loaded .b58Checksum [[0x00]]
    let s' := { loaded .b58Checksum [[0x00, 0x01]] with cur := ⟨0x12, 1, 77, 0⟩, haz := true, ie := true }
    s.params.ibufSize = s'.params.ibufSize ∧ s.params.obufSize = s'.params.obufSize ∧ s ≠ s' ∧
    (∀ k, k < operandCount .b58Checksum → s.operandLength k = s'.operandLength k ∧ s.opnd k = s'.opnd k) ∧
    (∃ t, exec .b58Checksum s = .next t) ∧ ∃ t, exec .b58Checksum s' = .next t :=
  ⟨rfl, rfl, by decide, by decide, ⟨_, rfl⟩, ⟨_, rfl⟩⟩

theorem witness_ResultWriters : ∃ t, exec .nop State.reset = .next t := ⟨_, rfl⟩

theorem witness_NopCompletes :
    ∃ t, exec .nop State.reset = .next t ∧ State.reset.ie = false ∧ State.reset.haz = false :=
  ⟨_, rfl, by decide, by decide⟩

/-- One operand, framed: the hypotheses of `HashCommands`, `MsgDigestCompletes` and `B58EncodeCommands`. -/
theorem witness_one_operand :
    (loaded .sha256 [text "abc"]).params.wf ∧ (loaded .sha256 [text "abc"]).fits 1 ∧
    { loaded .sha256 [] with cur := ⟨0x40, 1024, 0, 0⟩ }.fits 1 := by decide

theorem witness_NormaliseLines :
    (0x0D : Byte) ≠ 0x0A ∧ ¬ ((0x0D : Byte) = 0x0D ∧ ([0x0D, 0x0A] : Bytes).head? = some 0x0A) := by decide

theorem witness_B58EncodeCommands_fits :
    let s := loaded .b58Encode [[0x00]]
    s.params.wf ∧ s.fits 1 ∧ (b58enc (s.opnd 0)).length ≤ s.params.obufSize ∧
    (b58enc (s.opnd 0 ++ (sha256 (sha256 (s.opnd 0))).take 4)).length ≤ s.params.obufSize := by
  decide +kernel

/-- A lookup in a list of bytes numbered from `n`. -/
theorem lookupCell_zipIdx (b : Bytes) (n k : Nat) :
    lookupCell (n + k) ((b.zipIdx n).map fun x => (x.2, x.1)) = b[k]? := by
  induction b generalizing n k with
  | nil => rfl
  | cons a b ih =>
    rw [List.zipIdx_cons, List.map_cons, lookupCell]
    cases k with
    | zero => simp
    | succ k =>
      rw [if_neg (by omega), show n + (k + 1) = n + 1 + k by omega, ih, List.getElem?_cons_succ]

/-- A small state with one operand, on the instance with the largest IBUF and the smallest OBUF (R12). -/
def loadedBig (i : Instr) (b : Bytes) : State := { loaded i [b] with params := ⟨4096, 1024, 0⟩ }

theorem loadedBig_opnd (i : Instr) (b : Bytes) (h : b.length < 65536) : (loadedBig i b).opnd 0 = b := by
  apply List.ext_getElem?
  intro k
  have hl : (loadedBig i b).cur.len 0 = b.length := by
    simp [loadedBig, loaded, Latch.len]
    omega
  have hc : (loadedBig i b).ibuf.byte? k = b[k]? := by
    have := lookupCell_zipIdx b 0 k
    simpa [Memory.byte?, loadedBig, loaded] using this
  simp only [State.opnd, hl, Latch.offset, State.ibufBytes, List.getElem?_map, State.ibufByte, Nat.zero_add]
  by_cases hk : k < b.length
  · simp [hk, hc]
  · simp [hk]

theorem loadedBig_fits (i : Instr) (b : Bytes) (h : b.length ≤ 4096) :
    (loadedBig i b).params.wf ∧ (loadedBig i b).fits 1 := by
  refine ⟨(by decide : (⟨4096, 1024, 0⟩ : Config.Params).wf), ?_⟩
  simp [State.fits, State.operandTotal, State.operandLength, loadedBig, loaded]
  omega

/-- 1025 zero bytes. -/
def manyZeros : Bytes := List.replicate 1025 0x00

theorem manyZeros_length : (b58enc manyZeros).length = 1025 := by decide +kernel

/-- 1025 zero bytes give 1025 characters, which do not fit an OBUF of 1024 bytes. -/
theorem witness_B58EncodeCommands_overflow :
    let s := loadedBig .b58Encode manyZeros
    s.params.wf ∧ s.fits 1 ∧ s.params.obufSize < (b58enc (s.opnd 0)).length := by
  refine ⟨(loadedBig_fits _ _ (by decide +kernel)).1, (loadedBig_fits _ _ (by decide +kernel)).2, ?_⟩
  rw [loadedBig_opnd _ _ (by decide +kernel), manyZeros_length]
  decide

/-- The text that B58CHECK_ENCODE makes of 1025 zero bytes. -/
def manyZerosChecked : Bytes := b58enc (manyZeros ++ (sha256 (sha256 manyZeros)).take 4)

theorem manyZerosChecked_length : 1024 < manyZerosChecked.length ∧ manyZerosChecked.length ≤ 1035 := by decide +kernel

theorem witness_B58EncodeCommands_checked_overflow :
    let s := loadedBig .b58checkEncode manyZeros
    s.params.wf ∧ s.fits 1 ∧
      s.params.obufSize < (b58enc (s.opnd 0 ++ (sha256 (sha256 (s.opnd 0))).take 4)).length := by
  refine ⟨(loadedBig_fits _ _ (by decide +kernel)).1, (loadedBig_fits _ _ (by decide +kernel)).2, ?_⟩
  rw [loadedBig_opnd _ _ (by decide +kernel)]
  exact manyZerosChecked_length.1

theorem witness_B58DecodeCommand :
    let s := loaded .b58Decode [text "112"]
    s.params.wf ∧ s.fits 1 ∧ s.opnd 0 = b58enc [0, 0, 1] ∧ ([0, 0, 1] : Bytes).length ≤ s.params.obufSize := by
  decide +kernel

theorem witness_B58DecodeCommand_malformed :
    let s := loaded .b58Decode [text "10"]
    s.params.wf ∧ s.fits 1 ∧
      ∃ c ∈ s.opnd 0, c ∉ text "123456789ABCDEFGHJKLMNPQRSTUVWXYZabcdefghijkmnopqrstuvwxyz" := by
  decide +kernel

theorem witness_B58DecodeCommand_overflow :
    let s := loadedBig .b58Decode (b58enc manyZeros)
    s.params.wf ∧ s.fits 1 ∧ s.opnd 0 = b58enc manyZeros ∧ s.params.obufSize < manyZeros.length := by
  have h := manyZeros_length
  exact ⟨(loadedBig_fits _ _ (by omega)).1, (loadedBig_fits _ _ (by omega)).2, loadedBig_opnd _ _ (by omega),
    by decide +kernel⟩

/-- The text of the body 00 with its checksum, with another one, and a text of no byte. -/
theorem witness_B58checkDecodeCommand :
    let s := loaded .b58checkDecode [text "1Wh4bh"]
    let w := loaded .b58checkDecode [text "11111"]
    let e := loaded .b58checkDecode [[]]
    s.params.wf ∧ s.fits 1 ∧ s.opnd 0 = b58enc ([0] ++ (sha256 (sha256 [0])).take 4) ∧
    ((sha256 (sha256 [0])).take 4).length = 4 ∧ ([0] : Bytes).length ≤ s.params.obufSize ∧
    w.fits 1 ∧ w.opnd 0 = b58enc ([0] ++ [0, 0, 0, 0]) ∧ [0, 0, 0, 0] ≠ (sha256 (sha256 [0])).take 4 ∧
    e.fits 1 ∧ e.opnd 0 = b58enc [] := by
  decide +kernel

theorem witness_B58checkDecodeCommand_overflow :
    let s := loadedBig .b58checkDecode manyZerosChecked
    s.params.wf ∧ s.fits 1 ∧ s.opnd 0 = b58enc (manyZeros ++ (sha256 (sha256 manyZeros)).take 4) ∧
      s.params.obufSize < manyZeros.length := by
  have h := manyZerosChecked_length.2
  exact ⟨(loadedBig_fits _ _ (by omega)).1, (loadedBig_fits _ _ (by omega)).2, loadedBig_opnd _ _ (by omega),
    by decide +kernel⟩

theorem witness_Base58RoundTrips :
    ∀ c ∈ text "1z", c ∈ text "123456789ABCDEFGHJKLMNPQRSTUVWXYZabcdefghijkmnopqrstuvwxyz" := by decide

theorem witness_Bech32EncodeCommand :
    let s := loaded (.bech32Encode .btc) [List.replicate 20 0x00]
    let e := loaded (.bech32Encode .ltc) [List.replicate 21 0x00]
    s.params.wf ∧ s.fits 1 ∧ (s.opnd 0).length = 20 ∧ e.fits 1 ∧ (e.opnd 0).length ≠ 20 := by decide +kernel

/-- A Bech32 text of the prefix `h` and the data values `d`, with their checksum (R164, for any data). -/
def bechText (h : Bytes) (d : List Nat) : Bytes :=
  h ++ 0x31 :: (d ++ bech32Checksum h d).map (byteAt (text "qpzry9x8gf2tvdw0s3jn54khce6mua7l"))

/-- `b` is a text that R167 splits into the prefix `pre` and the data values `d`: the hypotheses of the last clauses of
Bech32DecodeCommand. -/
def splitsAs (b pre : Bytes) (d : List Nat) : Bool := decide <|
  8 ≤ b.length ∧ b.length ≤ 90 ∧ (∀ c ∈ b, 0x21 ≤ c.toNat ∧ c.toNat ≤ 0x7E) ∧
  ((∀ c ∈ b, ¬ (0x61 ≤ c.toNat ∧ c.toNat ≤ 0x7A)) ∨ ∀ c ∈ b, ¬ (0x41 ≤ c.toNat ∧ c.toNat ≤ 0x5A)) ∧
  (∀ v ∈ d, v < 32) ∧
  (b.map fun c => if 0x41 ≤ c.toNat ∧ c.toNat ≤ 0x5A then c + 0x20 else c) =
    pre ++ 0x31 :: d.map (byteAt (text "qpzry9x8gf2tvdw0s3jn54khce6mua7l")) ∧
  pre ≠ [] ∧ 6 ≤ d.length

/-- `bechText` of `d` splits as its own prefix and values, its checksum holds (`expanded` is the prefix of R162), it fits
IBUF as operand 0, and after the version stand `n` values of the number `v`. -/
def readsAs (h : Bytes) (expanded d : List Nat) (n v : Nat) : Bool :=
  let all := d ++ bech32Checksum h d
  let s := loaded (.bech32Decode .btc) [bechText h d]
  splitsAs (bechText h d) h all && decide (polymod (expanded ++ all) = 1 ∧ s.fits 1 ∧ s.opnd 0 = bechText h d ∧
    all.length - 7 = n ∧ ofDigits 32 ((all.drop 1).take (all.length - 7)) = v)

theorem witness_Bech32DecodeCommand :
    let s := loaded (.bech32Decode .btc) [text "bc1qw508d6qejxtdg4y5r3zarvary0c5xw7kv8f3t4"]
    let e := loaded (.bech32Decode .ltc) [[]]
    s.params.wf ∧ s.fits 1 ∧
    bech32DecodeText (text "bc") (s.opnd 0) = .ok (beBytes 20 0x751E76E8199196D454941C45D1B3A323F1433BD6) ∧
    e.fits 1 ∧ bech32DecodeText (text "ltc") (e.opnd 0) = .error .malformedEncoding := by
  decide +kernel

/-- The malformed texts of R167, each at a boundary: 7 and 91 bytes; 0x20 and 0x7F; mixed case; no separator; nothing
before it; five characters after it; `b` and `B`, which are not in the alphabet. -/
theorem witness_Bech32DecodeCommand_malformed :
    let b (t : Bytes) := (loaded (.bech32Decode .btc) [t]).opnd 0
    let badRest (t : Bytes) := b (text "bc1" ++ t) = text "bc" ++ 0x31 :: t ∧ 0x31 ∉ t
    (b (text "bc1qqqq")).length = 7 ∧ (b (text "bc1" ++ List.replicate 88 0x71)).length = 91 ∧
    (∃ c ∈ b (0x20 :: text "bc1qqqqqq"), c.toNat < 0x21) ∧ (∃ c ∈ b (text "bc1qqqqqq" ++ [0x7F]), 0x7E < c.toNat) ∧
    (∃ c ∈ b (text "bc1qqqqqZ"), 0x61 ≤ c.toNat ∧ c.toNat ≤ 0x7A) ∧
    (∃ c ∈ b (text "bc1qqqqqZ"), 0x41 ≤ c.toNat ∧ c.toNat ≤ 0x5A) ∧
    0x31 ∉ b (text "bcqqqqqqq") ∧
    b (text "1qqqqqqqq") = [] ++ 0x31 :: text "qqqqqqqq" ∧ 0x31 ∉ text "qqqqqqqq" ∧
    badRest (text "qqqqq") ∧ (text "qqqqq").length < 6 ∧
    badRest (text "qqqqqb") ∧ badRest (text "QQQQQB") ∧ 0x62 ∉ text "qpzry9x8gf2tvdw0s3jn54khce6mua7l" := by
  decide +kernel

/-- Texts of the least and the greatest length that R167 splits, with a prefix that is no chain's; and one that spells the
prefix of the other chain. -/
theorem witness_Bech32DecodeCommand_prefix :
    splitsAs (text "b1qqqqqq") (text "b") [0, 0, 0, 0, 0, 0] ∧ (text "b1qqqqqq").length = 8 ∧
    splitsAs (text "B1" ++ List.replicate 88 0x51) (text "b") (List.replicate 88 0) ∧
    splitsAs (bechText (text "ltc") [0]) (text "ltc") (0 :: bech32Checksum (text "ltc") [0]) ∧
    text "b" ≠ text "bc" ∧ text "ltc" ≠ text "bc" := by decide +kernel

theorem witness_Bech32DecodeCommand_checksum :
    splitsAs (text "bc1qqqqqq") (text "bc") [0, 0, 0, 0, 0, 0] ∧ polymod ([3, 3, 0, 2, 3] ++ [0, 0, 0, 0, 0, 0]) ≠ 1 := by
  decide +kernel

/-- No version; version 1; and after version 0: five bits left over (33 values), left-over bits that are not 0 (2 values),
no byte (no value), 19 bytes (31 values), 20 bytes (32 values). -/
theorem witness_Bech32DecodeCommand_program :
    let bc := text "bc"
    let ex := [3, 3, 0, 2, 3]
    let zeros (n : Nat) : List Nat := 0 :: List.replicate n 0
    splitsAs (bechText bc []) bc (bech32Checksum bc []) ∧ polymod (ex ++ bech32Checksum bc []) = 1 ∧
    readsAs bc ex [1] 0 0 ∧ readsAs bc ex (zeros 33) 33 0 ∧ 5 * 33 % 8 = 5 ∧ readsAs bc ex [0, 0, 1] 2 1 ∧
    1 % 2 ^ (5 * 2 % 8) ≠ 0 ∧ readsAs bc ex [0] 0 0 ∧ readsAs bc ex (zeros 31) 31 0 ∧ 5 * 31 % 8 < 5 ∧
    5 * 31 / 8 = 19 ∧ readsAs bc ex (zeros 32) 32 0 ∧ 5 * 32 % 8 = 0 ∧ 5 * 32 / 8 = 20 ∧
    readsAs (text "ltc") [3, 3, 3, 0, 12, 20, 3] (zeros 32) 32 0 := by decide +kernel

theorem witness_Bech32RoundTrip : (List.replicate 20 0xFF : Bytes).length = 20 ∧ Chain.ltc ≠ .btc := by decide

theorem witness_ParsePointExact_encodes :
    EncodesPoint gen33 genG ∧ EncodesPoint gen65 genG ∧ EncodesPoint [0x00] .infinity := by decide +kernel

/-- A coordinate of p is no coordinate of a point. -/
theorem no_point_at_p : ¬ ∃ q, EncodesPoint (0x02 :: beBytes 32 fieldP) q := by
  rintro ⟨q, hq, he⟩
  cases q with
  | infinity => rcases he with h | h <;> simp [ser] at h
  | affine x y =>
    rcases he with h | h
    · have hb : beBytes 32 fieldP = beBytes 32 x := (List.cons.inj h).2
      have hx : x < fieldP := (Point.onCurve_affine.1 hq).1
      have h1 := intBE_beBytes (k := 32) (v := fieldP) (by decide +kernel)
      have h2 := intBE_beBytes (k := 32) (v := x) (lt_trans hx (by decide +kernel))
      rw [hb, h2] at h1
      exact absurd h1 (Nat.ne_of_lt hx)
    · exact absurd (List.cons.inj h).1 (by decide)

theorem witness_ParsePointExact_errors :
    (List.replicate 31 0x00 : Bytes).length ≠ 32 ∧ (List.replicate 33 0x00 : Bytes).length ≠ 32 ∧
    (List.replicate 63 0x00 : Bytes).length ≠ 64 ∧ ([0x00] : Bytes) ≠ [] ∧ (beBytes 32 fieldP).length = 32 ∧
    ((0x05 : Byte) ≠ 0x02 ∧ (0x05 : Byte) ≠ 0x03 ∧ (0x05 : Byte) ≠ 0x04 ∧ ¬ ((0x05 : Byte) = 0x00 ∧ true = true)) ∧
    ((0x00 : Byte) ≠ 0x02 ∧ (0x00 : Byte) ≠ 0x03 ∧ (0x00 : Byte) ≠ 0x04 ∧
      ¬ ((0x00 : Byte) = 0x00 ∧ false = true)) := by
  decide +kernel

/-- The hypotheses of `CompressDecompress`, `AddressCommands` and `AddressSetCommand`. -/
theorem witness_point_operand :
    let s := loaded .compress [gen33]
    let e := loaded .compress [[]]
    s.params.wf ∧ s.fits 1 ∧ EncodesXY (s.opnd 0) genX genY ∧ e.params.wf ∧ e.fits 1 ∧
    parsePoint (e.opnd 0) false = .error .invalidLength := by
  decide +kernel

theorem witness_ScalarMultCommand_g :
    let s := loaded (.scalarMult true true) [beBytes 32 1]
    let e := loaded (.scalarMult true true) [beBytes 31 1]
    s.params.wf ∧ s.fits 1 ∧ (s.opnd 0).length = 32 ∧ e.fits 1 ∧ e.fits 2 ∧ (e.opnd 0).length ≠ 32 := by decide +kernel

theorem witness_ScalarMultCommand_p :
    let s := loaded (.scalarMult true false) [beBytes 32 1, [0x00]]
    let e := loaded (.scalarMult true false) [beBytes 32 1, []]
    s.params.wf ∧ s.fits 2 ∧ (s.opnd 0).length = 32 ∧ EncodesPoint (s.opnd 1) .infinity ∧ e.fits 2 ∧
    (e.opnd 0).length = 32 ∧ parsePoint (e.opnd 1) true = .error .invalidLength := by
  decide +kernel

theorem witness_PointAddCommand :
    let s := loaded (.pointAdd true) [gen33, [0x00]]
    let e := loaded (.pointAdd true) [[0x05], gen33]
    let f := loaded (.pointAdd true) [[0x00], []]
    s.params.wf ∧ s.fits 2 ∧ EncodesPoint (s.opnd 0) genG ∧ EncodesPoint (s.opnd 1) .infinity ∧
    e.fits 2 ∧ parsePoint (e.opnd 0) true = .error .malformedEncoding ∧
    f.fits 2 ∧ EncodesPoint (f.opnd 0) .infinity ∧ parsePoint (f.opnd 1) true = .error .invalidLength := by
  decide +kernel

/-- G and −G, G and G, G and 2·G (the worked example of R188). -/
theorem witness_PointAddFormula :
    (Point.affine genX genY).onCurve = true ∧ (Point.affine genX (fieldP - genY)).onCurve = true ∧
    (genX = genX ∧ (genY + (fieldP - genY)) % fieldP = 0) ∧ ¬ (genX = genX ∧ (genY + genY) % fieldP = 0) ∧
    (Point.affine 0xC6047F9441ED7D6D3045406E95C07CD85C778E4B8CEF3CA7ABAC09B95C709EE5
      0x1AE168FEA63DC339A3C58419466CEAEEF7F632653266D0E1236431A950CFE52A).onCurve = true ∧
    genX ≠ 0xC6047F9441ED7D6D3045406E95C07CD85C778E4B8CEF3CA7ABAC09B95C709EE5 := by
  decide +kernel

/-- The hypotheses of `PointGroupLaws` and `ScalarMultIsRepeatedAddition`. -/
theorem witness_points : genG.onCurve = true ∧ Point.infinity.onCurve = true := by decide +kernel

theorem witness_ModSqrtCommand :
    let s := loaded .modSqrt [beBytes 32 4]
    let e := loaded .modSqrt [[]]
    let f := loaded .modSqrt [beBytes 32 fieldP]
    s.params.wf ∧ s.fits 1 ∧ (s.opnd 0).length = 32 ∧ intBE (s.opnd 0) < fieldP ∧
    2 * 2 % fieldP = intBE (s.opnd 0) ∧ e.fits 1 ∧ (e.opnd 0).length ≠ 32 ∧ f.fits 1 ∧ (f.opnd 0).length = 32 ∧
    fieldP ≤ intBE (f.opnd 0) := by
  decide +kernel

/-- p − 1 has no square root (R189). -/
theorem no_root_of_minus_one : ¬ ∃ y, y * y % fieldP = fieldP - 1 := by
  rintro ⟨y, hy⟩
  have h1 : ((fieldP - 1 : Nat) : ZMod fieldP) = (y : ZMod fieldP) ^ 2 := by
    rw [← hy, ZMod.natCast_mod]
    push_cast
    ring
  have h2 := cast_sqrtP_sq h1
  have h3 : sqrtP (fieldP - 1) * sqrtP (fieldP - 1) % fieldP = (fieldP - 1) % fieldP := by
    have h4 : ((sqrtP (fieldP - 1) * sqrtP (fieldP - 1) : Nat) : ZMod fieldP) = ((fieldP - 1 : Nat) : ZMod fieldP) := by
      rw [Nat.cast_mul, ← h2]
      ring
    exact (ZMod.natCast_eq_natCast_iff' _ _ _).1 h4
  exact absurd h3 (by decide +kernel)

theorem witness_ModSqrtCommand_no_root :
    let s := loaded .modSqrt [beBytes 32 (fieldP - 1)]
    (s.params.wf ∧ s.fits 1 ∧ (s.opnd 0).length = 32 ∧ intBE (s.opnd 0) < fieldP) ∧
    ¬ ∃ y, y * y % fieldP = intBE (s.opnd 0) := by
  refine ⟨by decide +kernel, ?_⟩
  rw [show intBE ((loaded .modSqrt [beBytes 32 (fieldP - 1)]).opnd 0) = fieldP - 1 by decide +kernel]
  exact no_root_of_minus_one

theorem witness_ModInvCommand :
    let s := loaded (.modInv true) [beBytes 32 (orderN - 1)]
    let e := loaded (.modInv true) [[]]
    let f := loaded (.modInv true) [beBytes 32 orderN]
    let g := loaded (.modInv true) [beBytes 32 0]
    s.params.wf ∧ s.fits 1 ∧ (s.opnd 0).length = 32 ∧ 0 < intBE (s.opnd 0) ∧ intBE (s.opnd 0) < orderN ∧
    e.fits 1 ∧ (e.opnd 0).length ≠ 32 ∧ f.fits 1 ∧ (f.opnd 0).length = 32 ∧ orderN ≤ intBE (f.opnd 0) ∧
    g.fits 1 ∧ (g.opnd 0).length = 32 ∧ intBE (g.opnd 0) = 0 := by
  decide +kernel

/-- The least and the greatest scalar, and the two just outside. -/
theorem witness_WifEncodeCommand :
    let s := loaded (.wifEncode true) [[0xB0], beBytes 32 (orderN - 1)]
    let e := loaded (.wifEncode true) [[], beBytes 32 1]
    let f := loaded (.wifEncode true) [[0x80], beBytes 31 1]
    let g := loaded (.wifEncode true) [[0x80], beBytes 32 orderN]
    s.params.wf ∧ s.fits 2 ∧ (s.opnd 0).length = 1 ∧ (s.opnd 1).length = 32 ∧ 1 ≤ intBE (s.opnd 1) ∧
    intBE (s.opnd 1) < orderN ∧ s.opnd 0 = [0xB0] ∧ e.fits 2 ∧ (e.opnd 0).length ≠ 1 ∧ f.fits 2 ∧
    (f.opnd 0).length = 1 ∧ (f.opnd 1).length ≠ 32 ∧ g.fits 2 ∧ (g.opnd 0).length = 1 ∧ (g.opnd 1).length = 32 ∧
    orderN ≤ intBE (g.opnd 1) := by
  decide +kernel

/-- The scalar 1 with the prefix 80, compressed: both hypotheses of `WifRoundTrip`. -/
theorem witness_WifRoundTrip :
    let scalar := beBytes 32 1
    let body : Bytes := 0x80 :: (scalar ++ [0x01])
    let s := loaded (.wifEncode true) [[0x80], scalar]
    let u := loaded .wifDecode [text "KwDiBf89QgGbjEhKnhXJuH7LrciVrZi3qYjgd9M7rFU73sVHnoWn", [0xB0, 0x80]]
    scalar.length = 32 ∧ 1 ≤ intBE scalar ∧ intBE scalar < orderN ∧ s.params.wf ∧ s.fits 2 ∧ s.opnd 0 = [0x80] ∧
    s.opnd 1 = scalar ∧ u.params.wf ∧ u.fits 2 ∧ u.opnd 0 = b58enc (body ++ (sha256 (sha256 body)).take 4) ∧
    0x80 ∈ u.opnd 1 := by
  decide +kernel

/-- The Base58 text of a body with its checksum. -/
def checked (body : Bytes) : Bytes := b58enc (body ++ (sha256 (sha256 body)).take 4)

theorem witness_WifDecodeFailures_text :
    let s := loaded .wifDecode [text "l", [0x80]]
    let e := loaded .wifDecode [text "1111", [0x80]]
    let f := loaded .wifDecode [text "11111", [0x80]]
    s.params.wf ∧ s.fits 2 ∧
    (∃ c ∈ s.opnd 0, c ∉ text "123456789ABCDEFGHJKLMNPQRSTUVWXYZabcdefghijkmnopqrstuvwxyz") ∧
    e.fits 2 ∧ e.opnd 0 = b58enc [0, 0, 0, 0] ∧ f.fits 2 ∧ f.opnd 0 = b58enc (0x00 :: [] ++ [0, 0, 0, 0]) ∧
    [0, 0, 0, 0] ≠ (sha256 (sha256 [0x00])).take 4 := by
  decide +kernel

/-- A prefix not accepted; a body of one byte; a flag of 02; the scalar 0. -/
theorem witness_WifDecodeFailures_body :
    let s := loaded .wifDecode [checked [0x80], [0xB0]]
    let e := loaded .wifDecode [checked [0x80], [0x80]]
    let f := loaded .wifDecode [checked (0x80 :: (beBytes 32 1 ++ [0x02])), [0x80]]
    let g := loaded .wifDecode [checked (0x80 :: beBytes 32 0), [0x80]]
    s.fits 2 ∧ s.opnd 0 = checked [0x80] ∧ 0x80 ∉ s.opnd 1 ∧ e.fits 2 ∧ e.opnd 0 = checked [0x80] ∧ 0x80 ∈ e.opnd 1 ∧
    f.fits 2 ∧ f.opnd 0 = checked (0x80 :: (beBytes 32 1 ++ [0x02])) ∧ (beBytes 32 1 ++ [0x02])[32]? = some 0x02 ∧
    g.fits 2 ∧ g.opnd 0 = checked (0x80 :: beBytes 32 0) ∧ intBE ((beBytes 32 0).take 32) = 0 := by
  decide +kernel

/-- The signature `sigHalf` on the digest 0: r, s, the point, the inverse 2, and a key that is not O. -/
theorem witness_RecoverCommand :
    let s := loaded .recover [beBytes 32 0, sigHalf]
    let r := 0x7fffffffffffffffffffffffffffffff5d576e7357a4501ddfe92f46681b20a1
    let y := 0x3a53db6929bff75456584e314611ab583023835d15d9a01a517b369b2b6f66e4
    s.params.wf ∧ s.fits 2 ∧ (s.opnd 0).length = 32 ∧ 1 ≤ r ∧ r < orderN ∧
    s.opnd 1 = BitVec.ofNat 8 (27 + 0 + if true = true then 4 else 0) :: (beBytes 32 r ++ beBytes 32 1) ∧
    r = r + 0 / 2 * orderN ∧ (Point.affine r y).onCurve = true ∧ y % 2 = 0 % 2 ∧ r * 2 % orderN = 1 ∧
    pointMul 2 (pointAdd (pointMul 1 (.affine r y))
      (pointMul ((orderN - intBE (s.opnd 0) % orderN) % orderN) genG)) ≠ .infinity := by
  decide +kernel

/-- The key is O when R = −G, s = 1 and e = n − 1. -/
theorem witness_RecoverCommand_infinity :
    let s := loaded .recover [beBytes 32 (orderN - 1), 28 :: (beBytes 32 genX ++ beBytes 32 1)]
    s.params.wf ∧ s.fits 2 ∧ (s.opnd 0).length = 32 ∧ genX < orderN ∧
    s.opnd 1 = BitVec.ofNat 8 (27 + 1 + if false = true then 4 else 0) :: (beBytes 32 genX ++ beBytes 32 1) ∧
    genX = genX + 1 / 2 * orderN ∧ (Point.affine genX (fieldP - genY)).onCurve = true ∧
    (fieldP - genY) % 2 = 1 % 2 ∧ invMod orderN genX < orderN ∧ genX * invMod orderN genX % orderN = 1 ∧
    pointMul (invMod orderN genX) (pointAdd (pointMul 1 (.affine genX (fieldP - genY)))
      (pointMul ((orderN - intBE (s.opnd 0) % orderN) % orderN) genG)) = .infinity := by
  decide +kernel

theorem witness_RecoverFailures :
    let s := loaded .recover [beBytes 31 0, sigHalf]
    let e := loaded .recover [beBytes 32 0, beBytes 64 0]
    let f := loaded .recover [beBytes 32 0, 35 :: (beBytes 32 1 ++ beBytes 32 1)]
    let g := loaded .recover [beBytes 32 0, 34 :: (beBytes 32 0 ++ beBytes 32 1)]
    s.params.wf ∧ s.fits 2 ∧ (s.opnd 0).length ≠ 32 ∧ e.fits 2 ∧ (e.opnd 0).length = 32 ∧ (e.opnd 1).length ≠ 65 ∧
    f.fits 2 ∧ (f.opnd 0).length = 32 ∧ f.opnd 1 = 35 :: (beBytes 32 1 ++ beBytes 32 1) ∧ 34 < (35 : Byte).toNat ∧
    g.fits 2 ∧ (g.opnd 0).length = 32 ∧ g.opnd 1 = 34 :: (beBytes 32 0 ++ beBytes 32 1) ∧
    (beBytes 32 0).length = 32 ∧ (beBytes 32 1).length = 32 ∧ intBE (beBytes 32 0) = 0 ∧ (34 : Byte).toNat ≤ 34 := by
  decide +kernel

/-- Recovery ids 2 and 3 of an r of n − 1: no point has that x. -/
theorem witness_RecoverFailures_no_point (y : Nat) :
    (Point.affine (intBE (beBytes 32 (orderN - 1)) + ((29 : Byte).toNat - 27) % 4 / 2 * orderN) y).onCurve = false := by
  rw [Bool.eq_false_iff]
  intro h
  exact absurd (Point.onCurve_affine.1 h).1 (by decide +kernel)

theorem witness_VerifyMessageCommand :
    let s := loaded (.verifyMessage .btc false)
      [text "19KRKPRN3YU7w3VNmq2ZxhB1wUBHkJ7XHX", sigHalf, text "Hello World!"]
    (s.params.wf ∧ s.fits 3) ∧ recoverSig (msgDigest (s.opnd 2) .btc false) (s.opnd 1) = .ok ⟨keyHello, 0, true⟩ ∧
    s.opnd 0 = p2pkhText .btc keyHello true := by
  refine ⟨by decide, ?_, ?_⟩
  · rw [show State.opnd _ 2 = text "Hello World!" by decide +kernel, show State.opnd _ 1 = sigHalf by decide +kernel,
      test_msgDigest_hello]
    exact test_recoverSig
  · rw [test_p2pkhText]
    decide +kernel

/-- An address that differs, a signature that recovers nothing, and AUTO on the first byte `L`. -/
theorem witness_VerifyMessageCommand_failures :
    let s := loaded (.verifyMessage .auto false) [[], sigHalf, text "Hello World!"]
    let e := loaded (.verifyMessage .auto false) [text "L", [], []]
    (s.params.wf ∧ s.fits 3 ∧ Chain.btc = if (s.opnd 0).head? = some 0x4C then .ltc else .btc) ∧
    (recoverSig (msgDigest (s.opnd 2) .btc false) (s.opnd 1) = .ok ⟨keyHello, 0, true⟩ ∧
      s.opnd 0 ≠ p2pkhText .btc keyHello true) ∧
    (e.fits 3 ∧ (Chain.ltc = if (e.opnd 0).head? = some 0x4C then .ltc else .btc) ∧
      recoverSig (msgDigest (e.opnd 2) .ltc false) (e.opnd 1) = .error .invalidSignatureLength) := by
  refine ⟨by decide +kernel, ⟨?_, ?_⟩, by decide +kernel⟩
  · rw [show State.opnd _ 2 = text "Hello World!" by decide +kernel, show State.opnd _ 1 = sigHalf by decide +kernel,
      test_msgDigest_hello]
    exact test_recoverSig
  · rw [test_p2pkhText]
    decide +kernel

end Sys2Proof.Tests
end

/-!
SUPPORT. What one write to CTRL does in each case of its bits, and what one 32-bit access to a register does: the
rules that the statements about the register half of the window (R32 to R56) cite.
-/

namespace Sys2Proof.Machine

/-! ### A write to CTRL, by its bits (R32) -/

section WriteCtrl

variable {s : State} {v : Word}

/-- Only bits 3:0 of a write act (R37). -/
theorem State.writeCtrl_congr {w : Word} (h : ∀ k < 4, v.getLsbD k = w.getLsbD k) :
    s.writeCtrl v = s.writeCtrl w := by
  unfold State.writeCtrl
  rw [h 0 (by decide), h 1 (by decide), h 2 (by decide), h 3 (by decide)]

/-- During a run a write stores IE, and its START and its CLR only raise HAZ (R34, R337, R342). -/
theorem State.writeCtrl_of_busy (hb : s.busy = true) (h3 : v.getLsbD 3 = false) :
    s.writeCtrl v = { s with ie := v.getLsbD 1, haz := s.haz || v.getLsbD 0 || v.getLsbD 2 } := by
  rw [State.writeCtrl_of_not_srst h3]
  generalize v.getLsbD 2 = clr
  generalize v.getLsbD 0 = start
  cases clr <;> cases start <;> simp [State.ctrlClr_of_busy, State.ctrlStart_of_busy, State.hazard, hb]

/-- A write with neither SRST, CLR nor START only stores IE (R34). -/
theorem State.writeCtrl_ie (h3 : v.getLsbD 3 = false) (h2 : v.getLsbD 2 = false) (h0 : v.getLsbD 0 = false) :
    s.writeCtrl v = { s with ie := v.getLsbD 1 } := by
  rw [State.writeCtrl_of_not_srst h3, h2, h0]
  rfl

/-- CLR alone, while idle (R35). -/
theorem State.writeCtrl_clr (hb : s.busy = false) (h3 : v.getLsbD 3 = false) (h2 : v.getLsbD 2 = true)
    (h0 : v.getLsbD 0 = false) :
    s.writeCtrl v = { s with ie := v.getLsbD 1, done := false, err := .ok, stage := .interface, haz := false } := by
  rw [State.writeCtrl_of_not_srst h3, h2, h0]
  exact State.ctrlClr_of_idle hb

/-- START while idle: an accepted start, after IE is stored and after the CLR of the same write, of which only the
clearing of HAZ is left (R32, R111). -/
theorem State.writeCtrl_start (hb : s.busy = false) (h3 : v.getLsbD 3 = false) (h0 : v.getLsbD 0 = true) :
    s.writeCtrl v = { s with ie := v.getLsbD 1, haz := s.haz && !v.getLsbD 2 }.start := by
  rw [State.writeCtrl_of_not_srst h3, h0]
  generalize v.getLsbD 2 = clr
  cases clr <;> simp [State.ctrlClr_of_idle, State.ctrlStart_of_idle, State.start, hb]

@[simp] theorem State.ctrlClr_ie : s.ctrlClr.ie = s.ie := by
  cases hb : s.busy <;> simp [State.ctrlClr_of_busy, State.ctrlClr_of_idle, hb]

@[simp] theorem State.ctrlClr_responses : s.ctrlClr.responses = s.responses := by
  cases hb : s.busy <;> simp [State.ctrlClr_of_busy, State.ctrlClr_of_idle, hb]

@[simp] theorem State.ctrlStart_responses : s.ctrlStart.responses = s.responses := by
  cases hb : s.busy <;> simp [State.ctrlStart_of_busy, State.ctrlStart_of_idle, hb]

@[simp] theorem State.writeCtrl_responses : (s.writeCtrl v).responses = s.responses := by
  cases h3 : v.getLsbD 3 with
  | true => rw [State.writeCtrl_srst h3, State.softReset_responses]
  | false =>
    rw [State.writeCtrl_of_not_srst h3]
    generalize v.getLsbD 2 = clr
    generalize v.getLsbD 0 = start
    cases clr <;> cases start <;> simp

/-- A write of START or CLR alone, with IE as it stands (R32). -/
theorem State.writeCtrl_clr_only (h3 : v.getLsbD 3 = false) (h2 : v.getLsbD 2 = true) (h1 : v.getLsbD 1 = s.ie)
    (h0 : v.getLsbD 0 = false) : s.writeCtrl v = s.ctrlClr := by
  rw [State.writeCtrl_of_not_srst h3, h2, h1, h0]
  rfl

theorem State.writeCtrl_start_only (h3 : v.getLsbD 3 = false) (h2 : v.getLsbD 2 = false) (h1 : v.getLsbD 1 = s.ie)
    (h0 : v.getLsbD 0 = true) : s.writeCtrl v = s.ctrlStart := by
  rw [State.writeCtrl_of_not_srst h3, h2, h1, h0]
  rfl

end WriteCtrl

/-! ### A 32-bit access to a register (R73, R79) -/

section RegisterAccess

variable {s : State} {off : Nat} {r : Reg}

/-- A register stands at `off`, where the bus takes an aligned 32-bit access (R71, R73). -/
abbrev RegisterAt (off : Nat) (r : Reg) : Prop := off < ibufBase ∧ off % 4 = 0 ∧ regAt off = some r

theorem RegisterAt.busLegal (h : RegisterAt off r) : busLegal off 4 = true := by
  obtain ⟨hlt, hmod, -⟩ := h
  simp [Machine.busLegal, hlt, hmod]

theorem RegisterAt.lt_window (h : RegisterAt off r) : off < 0x3000 := lt_trans h.1 (by decide)

/-- A host write to a register. -/
theorem RegisterAt.hostWrites (h : RegisterAt off r) (s : State) (v : Word) :
    hostWrites s off 4 v = .next (respond (s.writeReg r v, .written)) := by
  have ⟨hlt, _, hr⟩ := h
  rw [hostWrites_eq s h.lt_window, State.busWrite, if_neg (not_not.2 h.busLegal), if_pos hlt, hr]

/-- A host read of a register answers its word, but for an output register during a run (R79, R81). -/
theorem RegisterAt.hostReads (h : RegisterAt off r) (ho : (s.busy && r.isOutput) = false) :
    hostReads s off 4 = .next { s with responses := .data (s.readReg r) :: s.responses } := by
  have ⟨hlt, _, hr⟩ := h
  rw [hostReads_eq s h.lt_window, State.busRead, if_neg (not_not.2 h.busLegal), if_pos hlt, hr]
  simp [ho, respond]

/-- The registers that ignore a write (R31, R39, R48, R55, R56). -/
def Reg.isReadOnly (r : Reg) : Bool := r.isOutput || r == .id || r == .status || r == .caps

theorem State.writeReg_of_isReadOnly (h : r.isReadOnly = true) (s : State) (v : Word) : s.writeReg r v = s := by
  cases r with
  | ctrl | cmd | len0 | len1 | len2 => exact absurd h (by decide)
  | id | status | result | olen _ | caps => rfl

end RegisterAccess

/-! ### The words of the registers -/

/-- The fields of a register word add up, each at its bit position. -/
theorem toNat_append_eq_add {m n : Nat} (x : BitVec m) (y : BitVec n) :
    (x ++ y).toNat = x.toNat * 2 ^ n + y.toNat := by
  rw [BitVec.toNat_append, Nat.shiftLeft_eq, Nat.mul_comm, Nat.two_pow_add_eq_or_of_lt y.isLt]

theorem lenWord_eq_setWidth (n : BitVec 16) : lenWord n = n.setWidth 32 :=
  (BitVec.setWidth_eq_append (by decide)).symm

theorem lenWord_toNat (n : BitVec 16) : (lenWord n).toNat = n.toNat :=
  (toNat_append_eq_add 0 n).trans (by simp)

theorem State.ctrlWord_eq (s : State) : s.ctrlWord = if s.ie = true then 2 else 0 := by
  unfold State.ctrlWord
  cases s.ie <;> decide

theorem State.ctrlWord_toNat (s : State) : s.ctrlWord.toNat = 2 * s.ie.toNat := by
  rw [State.ctrlWord_eq]
  cases s.ie <;> decide

theorem State.statusWord_toNat (s : State) :
    s.statusWord.toNat = s.busy.toNat + 2 * s.done.toNat + 2 ^ 4 * s.err.bits.toNat + 2 ^ 8 * s.stage.bits.toNat
      + 2 ^ 10 * s.haz.toNat + 2 ^ 11 * s.irq.toNat := by
  simp only [State.statusWord, toNat_append_eq_add, BitVec.toNat_ofBool, BitVec.ofNat_eq_ofNat, BitVec.toNat_ofNat]
  omega

theorem ResultReg.word_toNat (r : ResultReg) :
    r.word.toNat = r.valid.toNat + 2 * r.comp.toNat + 2 ^ 2 * r.recid.toNat + 2 ^ 4 * r.inf.toNat
      + 2 ^ 5 * r.chain.toNat + 2 ^ 8 * r.prefixByte.toNat := by
  simp only [ResultReg.word, toNat_append_eq_add, BitVec.toNat_ofBool, BitVec.ofNat_eq_ofNat, BitVec.toNat_ofNat]
  omega

/-- The sizes fit the halves of CAPS (R12, R56). -/
theorem State.capsWord_toNat {s : State} (h : s.params.wf) :
    s.capsWord.toNat = s.params.ibufSize + 2 ^ 16 * s.params.obufSize := by
  obtain ⟨-, hi, -, ho⟩ := h
  rw [State.capsWord, toNat_append_eq_add, BitVec.toNat_ofNat, BitVec.toNat_ofNat, Nat.mod_eq_of_lt (by omega),
    Nat.mod_eq_of_lt (by omega)]
  omega

end Sys2Proof.Machine

/-!
SUPPORT. How a command ends, and every effect one step can have on the block: the case analysis that the statements
over every step cite.
-/

namespace Sys2Proof.Machine

/-! ### How a command ends (R117, R118) -/

/-- No command has the code 0 or 9 among its own (R301, R311). -/
theorem ownErrors_ne {i : Instr} {e : ErrCode} (h : e ∈ ownErrors i) : e ≠ .ok ∧ e ≠ .addressMismatch := by
  constructor <;> rintro rfl <;> cases i with
  | scalarMult c sub => cases sub <;> exact absurd h (by simp [ownErrors, pointErrors])
  | _ => simp [ownErrors, pointErrors] at h

/-- Every command ends in a failure with a code other than 0 and 9, or in a success whose slots fit OBUF and whose
RESULT holds only the fields the command writes. -/
theorem exec_ends (i : Instr) (s : State) :
    (∃ e st, e ≠ .ok ∧ e ≠ .addressMismatch ∧ exec i s = .next (s.fail e st)) ∨
    (∃ o, slotsFit s.params.obufSize o.slots = true ∧ ResultOf i o.result ∧ exec i s = .next (s.succeed o)) := by
  cases hw : i.wf with
  | false => exact .inl ⟨.illegalCommand, _, by decide, by decide, exec_of_not_wf hw s⟩
  | true =>
    obtain ⟨r, hr, hrule⟩ := exec_of_wf hw s
    rw [hr, ran]
    cases hf : s.framed (operandCount i) with
    | false => exact .inl ⟨.invalidLength, _, by decide, by decide, by rw [State.runCommand_of_not_framed hf]⟩
    | true =>
      rw [State.runCommand_of_framed hf]
      rcases s.complete_cases (stageOf i) r with ⟨e, rfl, h⟩ | ⟨o, rfl, hfit, h⟩ | ⟨o, rfl, -, h⟩
      · exact .inl ⟨e, _, (ownErrors_ne hrule).1, (ownErrors_ne hrule).2, by rw [h]⟩
      · exact .inr ⟨o, hfit, hrule, by rw [h]⟩
      · exact .inl ⟨.invalidLength, _, by decide, by decide, by rw [h]⟩

/-- The engine's turn ends the run in the same two ways, and writes 0 or 1 to RESULT.CHAIN (R53). -/
theorem engineTurn_ends (s : State) :
    (∃ e st, e ≠ .ok ∧ e ≠ .addressMismatch ∧ engineTurn s = .next (s.fail e st)) ∨
    (∃ o, slotsFit s.params.obufSize o.slots = true ∧ o.result.chain.toNat ≤ 1 ∧
      engineTurn s = .next (s.succeed o)) := by
  unfold engineTurn
  split
  · next i _ =>
    rcases exec_ends i s with h | ⟨o, hfit, ⟨-, -, -, -, -, -, hchain⟩, h⟩
    · exact .inl h
    · exact .inr ⟨o, hfit, hchain, h⟩
  · exact .inl ⟨.illegalCommand, _, by decide, by decide, rfl⟩

/-! ### A command's run and HAZ (R44) -/

/-- A completion carries HAZ along. -/
theorem State.runCommand_haz (s : State) (h : Bool) (st : Stage) (m : Nat) (r : Except ErrCode Output) :
    { s with haz := h }.runCommand st m r = { s.runCommand st m r with haz := h } := by
  cases hf : s.framed m with
  | false => rw [State.runCommand_of_not_framed hf, State.runCommand_of_not_framed (s := { s with haz := h }) hf]; rfl
  | true =>
    rw [State.runCommand_of_framed hf, State.runCommand_of_framed (s := { s with haz := h }) hf]
    cases r with
    | error e => rfl
    | ok o =>
      cases hfit : slotsFit s.params.obufSize o.slots with
      | false => simp only [State.complete, hfit]; rfl
      | true => simp only [State.complete, hfit]; rfl

/-- The answer `a` of a command at `s` and its answer `a'` at `s` with another HAZ differ in nothing else. -/
def SameButHaz (h : Bool) (a a' : Answer) : Prop := ∀ t, a = .next t → a' = .next { t with haz := h }

theorem SameButHaz.illegal (s : State) (h : Bool) :
    SameButHaz h (.next s.illegal) (.next { s with haz := h }.illegal) := by
  intro t ht
  rw [← Host.Outcome.next.inj ht]
  rfl

theorem SameButHaz.ran (s : State) (h : Bool) (st : Stage) (m : Nat) (r : Except ErrCode Output) :
    SameButHaz h (ran s st m r) (ran { s with haz := h } st m r) := by
  intro t ht
  rw [Machine.ran, State.runCommand_haz, Host.Outcome.next.inj ht]

/-- No rule looks at HAZ: every command runs the same rule on the same operands. -/
theorem exec_sameButHaz (i : Instr) (s : State) (h : Bool) : SameButHaz h (exec i s) (exec i { s with haz := h }) := by
  cases i with
  | bech32Encode ch | bech32Decode ch | msgDigest ch _ | p2pkhAddr ch _ | p2wpkhAddr ch =>
    cases ch with
    | reserved | auto => exact SameButHaz.illegal s h
    | btc | ltc => exact SameButHaz.ran s h _ _ _
  | verifyMessage ch _ =>
    cases ch with
    | reserved => exact SameButHaz.illegal s h
    | btc | ltc | auto => exact SameButHaz.ran s h _ _ _
  | scalarMult c sub => cases sub <;> exact SameButHaz.ran s h _ _ _
  | _ => exact SameButHaz.ran s h _ _ _

/-! ### A write to the buffer half (R76) -/

theorem bufferByteAt_ibuf {p : Config.Params} {off k : Nat} (h : bufferByteAt p off = .ibuf k) : k < p.ibufSize := by
  unfold bufferByteAt at h
  split at h
  · next hi =>
    obtain rfl := BufferByte.ibuf.inj h
    omega
  · split at h <;> exact nomatch h

/-- A property of IBUF that storing a byte within its size keeps is kept by a buffer write. -/
theorem State.writeBuffer_ibuf_induction {P : Memory → Prop} (s : State)
    (hput : ∀ (m : Memory) k b, k < s.params.ibufSize → P m → P (m.put k b)) (hs : P s.ibuf) (off : Nat)
    (bs : Bytes) : P (s.writeBuffer off bs).ibuf := by
  induction bs generalizing s off with
  | nil => exact hs
  | cons b bs ih =>
    rw [State.writeBuffer]
    unfold State.writeBufferByte
    split
    · next k hk => exact ih { s with ibuf := s.ibuf.put k b } hput (hput _ _ _ (bufferByteAt_ibuf hk) hs) _
    · exact ih s hput hs _
    · exact ih s hput hs _

/-! ### The effects of a step -/

/-- `u` is `s` after an effect one turn can have on the block, `inputs` and `responses` aside, with what the turn at
`s` then is. -/
inductive Effect (s : State) : State → Prop
  /-- an idle engine's turn, a read, a bus error, an ignored write -/
  | nothing : Effect s s
  /-- a read of an output during a run (R81) -/
  | draw : s.busy = true → Effect s s.drew
  /-- an error completion (R117) -/
  | fail (e : ErrCode) (st : Stage) : s.busy = true → engineNext s → e ≠ .ok → e ≠ .addressMismatch →
      Effect s (s.fail e st)
  /-- a completion with success (R118) -/
  | succeed (o : Output) : s.busy = true → engineNext s → slotsFit s.params.obufSize o.slots = true →
      o.result.chain.toNat ≤ 1 → Effect s (s.succeed o)
  /-- a write to an input register or to IBUF, dropped during a run (R335) -/
  | dropped : s.busy = true → (∃ addr width v rest, s.inputs = .host (.write addr width v) :: rest) →
      Effect s s.hazard
  /-- a write to an input register or to IBUF, idle (R38, R47, R57) -/
  | store (c : Word) (l0 l1 l2 : BitVec 16) (m : Memory) : s.busy = false → (s.ibuf.wf = true → m.wf = true) →
      (s.ibuf.below s.params.ibufSize = true → m.below s.params.ibufSize = true) →
      Effect s { s with cmd := c, len0 := l0, len1 := l1, len2 := l2, ibuf := m }
  /-- a CTRL write that only stores IE (R34) -/
  | storeIe (v : Word) : ctrlWriteNext s v → Effect s { s with ie := v.getLsbD 1 }
  /-- START or CLR during a run (R337, R342) -/
  | ctrlBusy (v : Word) : s.busy = true → ctrlWriteNext s v → v.getLsbD 3 = false →
      Effect s { s with ie := v.getLsbD 1, haz := s.haz || v.getLsbD 0 || v.getLsbD 2 }
  /-- CLR without START, idle (R35) -/
  | clear (v : Word) : s.busy = false → ctrlWriteNext s v → v.getLsbD 3 = false → v.getLsbD 2 = true →
      Effect s { s with ie := v.getLsbD 1, done := false, err := .ok, stage := .interface, haz := false }
  /-- an accepted START (R111) -/
  | start (v : Word) : s.busy = false → ctrlWriteNext s v → v.getLsbD 3 = false → v.getLsbD 0 = true →
      Effect s { s with ie := v.getLsbD 1, haz := s.haz && !v.getLsbD 2 }.start
  /-- soft reset (R332) -/
  | softReset : resetNext s → Effect s s.softReset
  /-- power-on reset (R331) -/
  | powerOn : resetNext s → Effect s s.powerOnReset

/-- `t` is `s` after an effect, with some turns to come and some answers given. -/
def Moves (s t : State) : Prop := ∃ u rest rs, Effect s u ∧ t = { u with inputs := rest, responses := rs }

theorem Effect.moves {s u : State} (h : Effect s u) (rest : List Turn) (rs : List BusResponse) :
    Moves s { u with inputs := rest, responses := rs } := ⟨u, rest, rs, h, rfl⟩

/-- A CTRL write has one of its effects. -/
theorem writeCtrl_moves {s : State} {v : Word} (h : ctrlWriteNext s v) (rest : List Turn) (x : BusResponse) :
    Moves s (respond ({ s with inputs := rest }.writeCtrl v, x)) := by
  have moves {u u' : State} (he : Effect s u) (hu : { s with inputs := rest }.writeCtrl v = u')
      (hr : respond (u', x) = { u with inputs := rest, responses := x :: s.responses }) :
      Moves s (respond ({ s with inputs := rest }.writeCtrl v, x)) := by
    rw [hu, hr]
    exact he.moves _ _
  cases h3 : v.getLsbD 3 with
  | true => exact moves (.softReset (.inr ⟨v, h, h3⟩)) (State.writeCtrl_srst h3) rfl
  | false =>
    rcases Bool.eq_false_or_eq_true s.busy with hb | hb
    · exact moves (.ctrlBusy v hb h h3) (State.writeCtrl_of_busy hb h3) rfl
    · cases h0 : v.getLsbD 0 with
      | true => exact moves (.start v hb h h3 h0) (State.writeCtrl_start hb h3 h0) rfl
      | false =>
        cases h2 : v.getLsbD 2 with
        | true => exact moves (.clear v hb h h3 h2) (State.writeCtrl_clr hb h3 h2 h0) rfl
        | false => exact moves (.storeIe v h) (State.writeCtrl_ie h3 h2 h0) rfl

/-- A host write inside the window has one of its effects. -/
theorem busWrite_moves {s : State} {addr width off : Nat} {v : Word} {rest : List Turn}
    (hi : s.inputs = .host (.write addr width v) :: rest) (ho : s.offsetOf addr = some off) :
    Moves s (respond ({ s with inputs := rest }.busWrite off width v)) := by
  have moves {u : State} (he : Effect s u)
      (hu : ({ s with inputs := rest }.busWrite off width v).1 = { u with inputs := rest, responses := s.responses }) :
      Moves s (respond ({ s with inputs := rest }.busWrite off width v)) := by
    rw [respond, hu]
    exact he.moves _ _
  rcases State.busWrite_cases { s with inputs := rest } off width v with
    h | ⟨hb, h⟩ | ⟨hb, h | h | h | h | ⟨-, h⟩⟩ | ⟨rfl, rfl, h⟩
  · exact moves .nothing h
  · exact moves (.dropped hb ⟨addr, width, v, rest, hi⟩) h
  · exact moves (.store v s.len0 s.len1 s.len2 s.ibuf hb id id) h
  · exact moves (.store s.cmd (v.setWidth 16) s.len1 s.len2 s.ibuf hb id id) h
  · exact moves (.store s.cmd s.len0 (v.setWidth 16) s.len2 s.ibuf hb id id) h
  · exact moves (.store s.cmd s.len0 s.len1 (v.setWidth 16) s.ibuf hb id id) h
  · refine moves (.store s.cmd s.len0 s.len1 s.len2 _ hb (fun hw => ?_) fun hl => ?_)
      (h.trans (State.writeBuffer_eq _ _ _))
    · exact State.writeBuffer_ibuf_induction { s with inputs := rest } (P := fun m => m.wf = true)
        (fun _ k b _ hm => Memory.wf_put hm k b) hw _ _
    · exact State.writeBuffer_ibuf_induction { s with inputs := rest } (P := fun m => m.below s.params.ibufSize = true)
        (fun _ _ b hk hm => Memory.below_put hm hk b) hl _ _
  · have hc := writeCtrl_moves (s := s) (v := v) ⟨addr, rest, hi, ho⟩ rest
      ({ s with inputs := rest }.busWrite 4 4 v).2
    rwa [← h] at hc

/-- Every step has one of the effects (R345). -/
theorem step_moves {s t : State} (h : step s = .next t) : Moves s t := by
  rcases step_cases h with ⟨rest, hi, ⟨hb, he⟩ | ⟨-, rfl⟩⟩ | ⟨a, rest, hi, ha⟩
  · have hn : engineNext s := hi.imp And.left fun hi => by rw [hi]; rfl
    rcases engineTurn_ends { s with inputs := rest } with ⟨e, st, hok, h9, hf⟩ | ⟨o, hfit, hc, hs⟩
    · obtain rfl := Host.Outcome.next.inj (he.symm.trans hf)
      exact (Effect.fail e st hb hn hok h9).moves rest s.responses
    · obtain rfl := Host.Outcome.next.inj (he.symm.trans hs)
      exact (Effect.succeed o hb hn hfit hc).moves rest s.responses
  · exact Effect.nothing.moves rest s.responses
  · rcases hostTurn_cases ha with ⟨rfl, -⟩ | ⟨addr, width, off, rfl, -, rfl⟩ | ⟨addr, width, v, off, rfl, ho, rfl⟩ |
      ⟨rfl, rfl⟩
    · exact Effect.nothing.moves rest _
    · rcases State.busRead_cases { s with inputs := rest } off width with hr | ⟨hb, hr⟩
      · rw [respond, hr]
        exact Effect.nothing.moves rest _
      · rw [respond, hr]
        exact (Effect.draw (s := s) hb).moves rest _
    · exact busWrite_moves hi ho
    · exact (Effect.powerOn (.inl ⟨rest, hi⟩)).moves rest s.responses

end Sys2Proof.Machine

/-!
OBLIGATIONS. The statements about the block's state: the invariant, the flags, CTRL, the registers, RESULT.
-/

namespace Sys2Proof.Machine

/-! ### The invariant -/

section Invariant

variable {s : State}

/-- The model's own fields, IE and HAZ are no part of the invariant. -/
theorem Inv.withHost (h : Inv s) (ie haz : Bool) (draws : Nat) (rest : List Turn) (rs : List BusResponse) :
    Inv { s with ie := ie, haz := haz, draws := draws, inputs := rest, responses := rs } := { h with }

/-- A state that shows no result meets the invariant when its flags and its latch agree. -/
theorem Inv.of_blank (hp : s.params.wf) (hw : s.ibuf.wf = true) (hl : s.ibuf.below s.params.ibufSize = true)
    (hresult : s.result = ResultReg.zero) (holen : s.olen = olenZero) (hcells : s.obuf.cells = [])
    (hboth : ¬ (s.busy = true ∧ s.done = true))
    (hcur : s.busy = true → s.cur = ⟨s.cmd, s.len0, s.len1, s.len2⟩)
    (herr : s.done = false → s.err = .ok) (hstage : s.err = .ok → s.stage = .interface)
    (h9 : s.err ≠ .addressMismatch) : Inv s where
  paramsWf := hp
  ibufWf := hw
  ibufBelow := hl
  obufWf := by simp [Memory.wf, hcells]
  obufBelow := by simp [Memory.below, hcells]
  notBoth := hboth
  latched := hcur
  running := fun hb => ⟨herr (Bool.eq_false_iff.2 fun hd => hboth ⟨hb, hd⟩), hresult, holen, hcells⟩
  errDone := herr
  okStage := hstage
  noPartial := fun _ => ⟨hresult, holen, hcells⟩
  noCode9 := h9
  slotsFit := fun j => by
    obtain ⟨-, -, ho, -⟩ := hp
    rw [holen, olenZero_get]
    change 128 * j.val + 0 ≤ _
    omega
  chain := by simp [hresult, ResultReg.zero]

theorem Inv.start (h : Inv s) : Inv s.start :=
  .of_blank h.paramsWf h.ibufWf h.ibufBelow rfl rfl rfl (by simp) (fun _ => rfl) (fun _ => rfl) (fun _ => rfl) (by simp)

theorem Inv.softReset (h : Inv s) : Inv s.softReset :=
  .of_blank h.paramsWf h.ibufWf h.ibufBelow rfl rfl rfl (by simp) (by simp) (fun _ => rfl) (fun _ => rfl) (by simp)

theorem Inv.powerOnReset (h : Inv s) : Inv s.powerOnReset :=
  .of_blank h.paramsWf (by simp) (by simp) rfl rfl rfl (by simp) (by simp) (fun _ => rfl) (fun _ => rfl) (by simp)

theorem Inv.fail (h : Inv s) {e : ErrCode} (hok : e ≠ .ok) (h9 : e ≠ .addressMismatch) (st : Stage) :
    Inv (s.fail e st) :=
  .of_blank h.paramsWf h.ibufWf h.ibufBelow rfl rfl rfl (by simp) (by simp) (by simp) (fun he => absurd he hok) h9

/-- CLR while idle (R35). -/
theorem Inv.clear (h : Inv s) (hb : s.busy = false) :
    Inv { s with done := false, err := .ok, stage := .interface } :=
  { h with
    notBoth := by simp
    running := by simp [hb]
    errDone := fun _ => rfl
    okStage := fun _ => rfl
    noPartial := by simp
    noCode9 := by simp }

/-- The host's writes to its own registers and to IBUF while idle (R38, R47, R57). -/
theorem Inv.store (h : Inv s) (hb : s.busy = false) (c : Word) (l0 l1 l2 : BitVec 16) {m : Memory} (hw : m.wf = true)
    (hl : m.below s.params.ibufSize = true) :
    Inv { s with cmd := c, len0 := l0, len1 := l1, len2 := l2, ibuf := m } :=
  { h with
    ibufWf := hw
    ibufBelow := hl
    latched := by simp [hb] }

/-- OLENj does not go past the end of OBUF, when the emitted slots do not (R116). -/
theorem slot_end_le_of_slotsFit {n : Nat} (hn : 1024 ≤ n) {l : List (Fin 8 × Bytes)} (h : slotsFit n l = true)
    (j : Fin 8) : 128 * j.val + (olenOf l)[j].toNat ≤ n := by
  induction l with
  | nil =>
    rw [olenOf, olenZero_get]
    change 128 * j.val + 0 ≤ n
    omega
  | cons x l ih =>
    obtain ⟨i, b⟩ := x
    simp only [Machine.slotsFit, List.all_cons, Bool.and_eq_true, decide_eq_true_eq] at h
    obtain ⟨hx, hl⟩ := h
    by_cases hij : i.val = j.val
    · have hlen : (BitVec.ofNat 16 b.length).toNat ≤ b.length := Nat.mod_le _ _
      have hget : (olenOf ((i, b) :: l))[j] = BitVec.ofNat 16 b.length := by simp [olenOf, hij]
      rw [slotBase] at hx
      rw [hget]
      omega
    · have hget : (olenOf ((i, b) :: l))[j] = (olenOf l)[j] := by simp [olenOf, hij]
      rw [hget]
      exact ih hl

theorem Inv.succeed (h : Inv s) {o : Output} (hfit : Machine.slotsFit s.params.obufSize o.slots = true)
    (hc : o.result.chain.toNat ≤ 1) : Inv (s.succeed o) where
  paramsWf := h.paramsWf
  ibufWf := h.ibufWf
  ibufBelow := h.ibufBelow
  obufWf := wf_putSlots (by simp) _
  obufBelow := below_putSlots (by simp) hfit
  notBoth := by simp
  latched := by simp
  running := by simp
  errDone := by simp
  okStage := by simp
  noPartial := by simp
  noCode9 := by simp
  slotsFit :=
    have ⟨_, _, ho, _⟩ := h.paramsWf
    slot_end_le_of_slotsFit ho hfit
  chain := hc

theorem Effect.inv {u : State} (he : Effect s u) (h : Inv s) : Inv u := by
  cases he with
  | nothing => exact h
  | draw => exact h.withHost s.ie s.haz (s.draws + 1) s.inputs s.responses
  | fail e st _ _ hok h9 => exact h.fail hok h9 st
  | succeed o _ _ hfit hc => exact h.succeed hfit hc
  | dropped => exact h.withHost s.ie true s.draws s.inputs s.responses
  | store c l0 l1 l2 m hb hw hl => exact h.store hb c l0 l1 l2 (hw h.ibufWf) (hl h.ibufBelow)
  | storeIe v => exact h.withHost _ s.haz s.draws s.inputs s.responses
  | ctrlBusy v => exact h.withHost _ _ s.draws s.inputs s.responses
  | clear v hb => exact (h.clear hb).withHost _ false s.draws s.inputs s.responses
  | start v => exact (h.withHost _ _ s.draws s.inputs s.responses).start
  | softReset => exact h.softReset
  | powerOn => exact h.powerOnReset

end Invariant

/-- Settles O6: each effect a step can have keeps the invariant. -/
theorem stepKeepsInv : Obligations.StepKeepsInv := fun s t h hstep => by
  obtain ⟨u, rest, rs, he, rfl⟩ := step_moves hstep
  exact (he.inv h).withHost u.ie u.haz u.draws rest rs

/-- Settles O5: the reset state shows no result and runs nothing. -/
theorem resetInv : Obligations.ResetInv :=
  .of_blank (by decide) rfl rfl rfl rfl rfl (by decide) (by decide) (fun _ => rfl) (fun _ => rfl) (by decide)

/-! ### BUSY, DONE and HAZ -/

section Flags

variable {s u : State}

/-- BUSY rises at an accepted START only (R40). -/
theorem Effect.busy_rises (he : Effect s u) (hs : s.busy = false) (hu : u.busy = true) :
    u.cur = ⟨s.cmd, s.len0, s.len1, s.len2⟩ ∧
      ∃ v : Word, ctrlWriteNext s v ∧ v.getLsbD 0 = true ∧ v.getLsbD 3 = false := by
  cases he with
  | start v _ hc h3 h0 => exact ⟨rfl, v, hc, h0, h3⟩
  | nothing | draw | dropped | store | storeIe | ctrlBusy | clear => exact absurd (hs.symm.trans hu) (by decide)
  | fail | succeed | softReset | powerOn => exact absurd hu (by simp)

/-- BUSY falls at a completion, which sets DONE, or at a reset (R40, R41). -/
theorem Effect.busy_falls (he : Effect s u) (hs : s.busy = true) (hu : u.busy = false) :
    (u.done = true ∧ engineNext s) ∨ resetNext s := by
  cases he with
  | fail e st _ hn => exact .inl ⟨rfl, hn⟩
  | succeed o _ hn => exact .inl ⟨rfl, hn⟩
  | softReset hr | powerOn hr => exact .inr hr
  | nothing | draw | dropped | store | storeIe | ctrlBusy | clear => exact absurd (hs.symm.trans hu) (by decide)
  | start => exact absurd hu (by simp)

/-- DONE rises at a completion only (R41). -/
theorem Effect.done_rises (he : Effect s u) (hs : s.done = false) (hu : u.done = true) :
    s.busy = true ∧ u.busy = false ∧ engineNext s := by
  cases he with
  | fail e st hb hn => exact ⟨hb, rfl, hn⟩
  | succeed o hb hn => exact ⟨hb, rfl, hn⟩
  | nothing | draw | dropped | store | storeIe | ctrlBusy => exact absurd (hs.symm.trans hu) (by decide)
  | clear | start | softReset | powerOn => exact absurd hu (by simp)

/-- DONE falls at a CTRL write with START, CLR or SRST, or at power-on reset, only (R41). -/
theorem Effect.done_falls (he : Effect s u) (hs : s.done = true) (hu : u.done = false) :
    resetNext s ∨ ∃ v : Word, ctrlWriteNext s v ∧ (v.getLsbD 0 = true ∨ v.getLsbD 2 = true) := by
  cases he with
  | clear v _ hc _ h2 => exact .inr ⟨v, hc, .inr h2⟩
  | start v _ hc _ h0 => exact .inr ⟨v, hc, .inl h0⟩
  | softReset hr | powerOn hr => exact .inl hr
  | nothing | draw | dropped | store | storeIe | ctrlBusy => exact absurd (hs.symm.trans hu) (by decide)
  | fail | succeed => exact absurd hu (by simp)

/-- No effect sets BUSY and DONE both (R41). -/
theorem Effect.busy_done_apart (he : Effect s u) (hs : ¬ (s.busy = true ∧ s.done = true)) :
    ¬ (u.busy = true ∧ u.done = true) := by
  cases he with
  | nothing | draw | dropped | store | storeIe | ctrlBusy => exact hs
  | fail | succeed | clear | start | softReset | powerOn => simp

/-- HAZ rises at a write during a run, which leaves the run's inputs alone (R44). -/
theorem Effect.haz_rises (he : Effect s u) (hs : s.haz = false) (hu : u.haz = true) :
    s.busy = true ∧ u.busy = true ∧ u.cmd = s.cmd ∧ u.len0 = s.len0 ∧ u.len1 = s.len1 ∧ u.len2 = s.len2 ∧
      u.cur = s.cur ∧ u.ibuf = s.ibuf ∧ ∃ addr width v rest, s.inputs = .host (.write addr width v) :: rest := by
  cases he with
  | dropped hb hi => exact ⟨hb, hb, rfl, rfl, rfl, rfl, rfl, rfl, hi⟩
  | ctrlBusy v hb hc =>
    obtain ⟨addr, rest, hi, -⟩ := hc
    exact ⟨hb, hb, rfl, rfl, rfl, rfl, rfl, rfl, addr, 4, v, rest, hi⟩
  | nothing | draw | fail | succeed | store | storeIe => exact absurd (hs.symm.trans hu) (by decide)
  | clear | start | softReset | powerOn => simp [hs] at hu

/-- HAZ falls at a CLR while idle or at a reset only (R44). -/
theorem Effect.haz_falls (he : Effect s u) (hs : s.haz = true) (hu : u.haz = false) :
    resetNext s ∨ (s.busy = false ∧ ∃ v : Word, ctrlWriteNext s v ∧ v.getLsbD 2 = true) := by
  cases he with
  | clear v hb hc _ h2 => exact .inr ⟨hb, v, hc, h2⟩
  | start v hb hc =>
    have h2 : v.getLsbD 2 = true := by simpa only [State.start_haz, hs, Bool.true_and, Bool.not_eq_false'] using hu
    exact .inr ⟨hb, v, hc, h2⟩
  | softReset hr | powerOn hr => exact .inl hr
  | nothing | draw | fail | succeed | store | storeIe => exact absurd (hs.symm.trans hu) (by decide)
  | dropped | ctrlBusy => simp [hs] at hu

end Flags

/-- Settles O10, a clause per lemma about the effects. -/
theorem busyAndDoneChanges : Obligations.BusyAndDoneChanges := fun s t hstep => by
  obtain ⟨u, rest, rs, he, rfl⟩ := step_moves hstep
  exact ⟨he.busy_rises, he.busy_falls, he.done_rises, he.done_falls, he.busy_done_apart⟩

/-- Settles O11: the first two clauses from the effects, the third because no rule looks at HAZ. -/
theorem hazardFlag : Obligations.HazardFlag := by
  refine ⟨fun s t hstep => ?_, fun s t hstep => ?_, fun i s t h => exec_sameButHaz i s h t⟩
  · obtain ⟨u, rest, rs, he, rfl⟩ := step_moves hstep
    exact he.haz_rises
  · obtain ⟨u, rest, rs, he, rfl⟩ := step_moves hstep
    exact he.haz_falls

/-! ### CTRL -/

/-- Settles O15, by the cases of a CTRL write. -/
theorem clearStatus : Obligations.ClearStatus := by
  intro s v h3 h0
  simp only [hostWrites_ctrl]
  refine ⟨?_, fun h2 hb => ?_, fun h2 hb h1 => ?_, fun h2 => ?_⟩
  · change s.ctrlWord.getLsbD 2 = false
    rw [State.ctrlWord_eq]
    split <;> decide
  · rw [State.writeCtrl_clr hb h3 h2 h0]
    rfl
  · rw [State.writeCtrl_of_busy hb h3, h0, h1, h2, Bool.or_true]
    rfl
  · rw [State.writeCtrl_ie h3 h2 h0]
    rfl

/-- A CTRL write without SRST is three writes in turn, each with the IE of the first (R32). -/
theorem State.writeCtrl_eq_three (s : State) {v : Word} (h3 : v.getLsbD 3 = false) :
    s.writeCtrl v =
      let t1 := s.writeCtrl (v &&& 2)
      let t2 := if v.getLsbD 2 = true then t1.writeCtrl ((v &&& 2) ||| 4) else t1
      if v.getLsbD 0 = true then t2.writeCtrl ((v &&& 2) ||| 1) else t2 := by
  have hie : s.writeCtrl (v &&& 2) = { s with ie := v.getLsbD 1 } := by
    rw [State.writeCtrl_ie (by simp) (by simp) (by simp)]
    simp
  have hclr {t : State} (ht : t.ie = v.getLsbD 1) : t.writeCtrl ((v &&& 2) ||| 4) = t.ctrlClr :=
    State.writeCtrl_clr_only (by simp) (by simp) (by simp [ht]) (by simp)
  have hstart {t : State} (ht : t.ie = v.getLsbD 1) : t.writeCtrl ((v &&& 2) ||| 1) = t.ctrlStart :=
    State.writeCtrl_start_only (by simp) (by simp) (by simp [ht]) (by simp)
  rw [State.writeCtrl_of_not_srst h3, hie]
  simp only
  rw [hclr rfl, hstart]
  split
  · exact State.ctrlClr_ie
  · rfl

/-- Settles O16: only bits 3:0 act, SRST alone, or the other three as three writes. -/
theorem ctrlWriteOrder : Obligations.CtrlWriteOrder := by
  intro s v
  have hbus : ∀ (t : State) (w : Word), (t.busWrite 4 4 w).1 = t.writeCtrl w := fun _ _ => rfl
  simp only [hostWrites_ctrl, hbus]
  refine ⟨s.ctrlWord_eq, ?_, fun h3 => ?_, fun h3 => ?_⟩
  · rw [State.writeCtrl_congr (w := v &&& 15)]
    intro k hk
    have h15 : ∀ k < 4, (15 : Word).getLsbD k = true := by decide
    rw [BitVec.getLsbD_and, h15 k hk, Bool.and_true]
  · rw [State.writeCtrl_srst h3, State.writeCtrl_srst (v := 8) (by decide)]
  · rw [← State.writeCtrl_eq_three s h3, respond, State.writeCtrl_responses]

/-! ### The registers -/

/-- Settles O7: the reset state, evaluated. -/
theorem resetValues : Obligations.ResetValues :=
  ⟨by decide, by decide, by decide, by decide, by decide, by decide, by decide, by decide, by decide, by decide,
    rfl, fun _ => ⟨rfl, rfl⟩⟩

/-- Settles O17: the four input registers, each by its place in the register map. -/
theorem inputRegisters : Obligations.InputRegisters := by
  refine ⟨⟨rfl, rfl, rfl, rfl⟩, fun s v => ?_⟩
  have hcmd : RegisterAt 0x08 .cmd := by decide
  have hlen0 : RegisterAt 0x10 .len0 := by decide
  have hlen1 : RegisterAt 0x14 .len1 := by decide
  have hlen2 : RegisterAt 0x18 .len2 := by decide
  refine ⟨fun hb => ?_, fun hb off hoff => ?_, ?_, ?_, ?_, ?_⟩
  · simp only [hcmd.hostWrites, hlen0.hostWrites, hlen1.hostWrites, hlen2.hostWrites, State.writeReg,
      State.unlessBusy_of_idle hb]
    exact ⟨rfl, rfl, rfl, rfl⟩
  · simp only [List.mem_cons, List.not_mem_nil, or_false] at hoff
    rcases hoff with rfl | rfl | rfl | rfl
    all_goals simp only [hcmd.hostWrites, hlen0.hostWrites, hlen1.hostWrites, hlen2.hostWrites, State.writeReg,
        State.unlessBusy_of_busy hb]
    all_goals rfl
  · exact hcmd.hostReads (Bool.and_false _)
  · rw [← lenWord_eq_setWidth]
    exact hlen0.hostReads (Bool.and_false _)
  · rw [← lenWord_eq_setWidth]
    exact hlen1.hostReads (Bool.and_false _)
  · rw [← lenWord_eq_setWidth]
    exact hlen2.hostReads (Bool.and_false _)

/-- The offsets of the read-only registers (the register map). -/
theorem registerAt_readOnly :
    ∀ off ∈ [0x00, 0x0C, 0x1C, 0x20, 0x24, 0x28, 0x2C, 0x30, 0x34, 0x38, 0x3C, 0x40],
      ∃ r, RegisterAt off r ∧ r.isReadOnly = true := by
  have h : ∀ off ∈ [0x00, 0x0C, 0x1C, 0x20, 0x24, 0x28, 0x2C, 0x30, 0x34, 0x38, 0x3C, 0x40],
      ∃ r ∈ regAt off, RegisterAt off r ∧ r.isReadOnly = true := by decide
  exact fun off hoff => (h off hoff).imp fun _ => And.right

/-- Settles O24: each register by its place in the register map and by its word. -/
theorem registerLayout : Obligations.RegisterLayout := by
  intro s hp
  refine ⟨rfl, State.capsWord_toNat hp, fun hb x hx => ?_, s.ctrlWord_toNat, rfl, lenWord_toNat _, lenWord_toNat _,
    lenWord_toNat _, fun off v hoff => ?_, s.statusWord_toNat, s.result.word_toNat, fun j => lenWord_toNat _,
    by decide, by decide⟩
  · have hr : RegisterAt x.1 x.2 := by
      revert x
      decide
    exact hr.hostReads (by rw [hb, Bool.false_and])
  · obtain ⟨r, hr, hro⟩ := registerAt_readOnly off hoff
    rw [hr.hostWrites, State.writeReg_of_isReadOnly hro]
    rfl

/-! ### RESULT -/

/-- Settles O30: an error leaves RESULT 0, a success leaves what the command writes. -/
theorem resultWriters : Obligations.ResultWriters := by
  intro i s t ht
  rcases exec_ends i s with ⟨e, st, hok, -, hf⟩ | ⟨o, -, ⟨hvalid, hcomp, hrecid, hinf, hchain, hpre, -⟩, hs⟩
  · obtain rfl := Host.Outcome.next.inj (ht.symm.trans hf)
    simp [ResultReg.zero, hok]
  · obtain rfl := Host.Outcome.next.inj (ht.symm.trans hs)
    exact ⟨hvalid.trans (by simp), hcomp, hrecid, hinf, hchain, hpre⟩

end Sys2Proof.Machine

/-!
SUPPORT. Host accesses to the buffer half and to reserved offsets (R70 to R76): which bytes an access covers, what it
reads and what it stores.
-/

namespace Sys2Proof.Machine

/-! ### Widths and alignment (R73, R74) -/

section Alignment

variable {s : State} {off width : Nat} {v : Word}

theorem busLegal_iff_aligned : busLegal off width = true ↔ aligned off width := by
  unfold busLegal aligned ibufBase
  split_ifs <;> exact decide_eq_true_iff

theorem aligned_pos (h : aligned off width) : 0 < width := by
  unfold aligned at h
  split_ifs at h <;> omega

theorem State.busWrite_of_not_aligned (h : ¬ aligned off width) : s.busWrite off width v = (s, .busError) :=
  if_pos (mt busLegal_iff_aligned.1 h)

theorem State.busRead_of_not_aligned (h : ¬ aligned off width) : s.busRead off width = (s, .busError) :=
  if_pos (mt busLegal_iff_aligned.1 h)

/-- An accepted write to the register half (R73). -/
theorem State.busWrite_register (ha : aligned off width) (h : off < ibufBase) :
    s.busWrite off width v = (((regAt off).elim s fun r => s.writeReg r v), .written) := by
  rw [State.busWrite, if_neg (not_not.2 (busLegal_iff_aligned.2 ha)), if_pos h]
  cases regAt off <;> rfl

/-- An accepted read of the register half (R73). -/
theorem State.busRead_register (ha : aligned off width) (h : off < ibufBase) :
    s.busRead off width = (regAt off).elim (s, .data 0) fun r =>
      if (s.busy && r.isOutput) = true then (s.drew, .data (Config.busyRead s.draws)) else (s, .data (s.readReg r)) := by
  rw [State.busRead, if_neg (not_not.2 (busLegal_iff_aligned.2 ha)), if_pos h]
  cases regAt off <;> rfl

/-- An accepted write to the buffer half (R74). -/
theorem State.busWrite_buffer (ha : aligned off width) (h : ibufBase ≤ off) :
    s.busWrite off width v =
      (if touches s.params off width BufferByte.isIbuf = true
        then s.unlessBusy (s.writeBuffer off ((List.range width).map (busByte v))) else s, .written) := by
  rw [State.busWrite, if_neg (not_not.2 (busLegal_iff_aligned.2 ha)), if_neg (not_lt.2 h)]
  split_ifs <;> rfl

/-- An accepted read of the buffer half (R74). -/
theorem State.busRead_buffer (ha : aligned off width) (h : ibufBase ≤ off) :
    s.busRead off width =
      (if (s.busy && touches s.params off width BufferByte.isObuf) = true then s.drew else s,
        .data (s.readBuffer off width)) := by
  rw [State.busRead, if_neg (not_not.2 (busLegal_iff_aligned.2 ha)), if_neg (not_lt.2 h)]
  split_ifs <;> rfl

/-- A write of a right width and alignment is accepted (R75). -/
theorem State.busWrite_written (ha : aligned off width) : (s.busWrite off width v).2 = .written := by
  rcases lt_or_ge off ibufBase with h | h
  · rw [State.busWrite_register ha h]
  · rw [State.busWrite_buffer ha h]

/-- A read of a right width and alignment answers data (R75). -/
theorem State.busRead_data (ha : aligned off width) : ∃ w, (s.busRead off width).2 = .data w := by
  rcases lt_or_ge off ibufBase with h | h
  · rw [State.busRead_register ha h]
    cases regAt off with
    | none => exact ⟨_, rfl⟩
    | some r => cases h : s.busy && r.isOutput <;> exact ⟨_, by rw [Option.elim, h]; rfl⟩
  · rw [State.busRead_buffer ha h]
    exact ⟨_, rfl⟩

/-- No write touches the answers given before. -/
theorem State.busWrite_responses : (s.busWrite off width v).1.responses = s.responses := by
  rcases s.busWrite_cases off width v with h | ⟨-, h⟩ | ⟨-, h | h | h | h | ⟨-, h⟩⟩ | ⟨-, -, h⟩
  case inr.inl => rw [h, State.hazard_responses]
  case inr.inr.inl.inr.inr.inr.inr => rw [h, State.writeBuffer_eq]
  case inr.inr.inr => rw [h, State.writeCtrl_responses]
  all_goals rw [h]

/-- No read touches the answers given before. -/
theorem State.busRead_responses : (s.busRead off width).1.responses = s.responses := by
  rcases s.busRead_cases off width with h | ⟨-, h⟩
  · rw [h]
  · rw [h, State.drew_responses]

end Alignment

/-! ### The bytes of the buffer half (R71) -/

section BufferBytes

variable {p : Config.Params} {off width : Nat}

theorem bufferByteAt_of_ibuf (h : 0x1000 ≤ off) (hlt : off < 0x1000 + p.ibufSize) :
    bufferByteAt p off = .ibuf (off - 0x1000) :=
  if_pos ⟨h, hlt⟩

theorem bufferByteAt_of_obuf (hp : p.wf) (h : 0x2000 ≤ off) (hlt : off < 0x2000 + p.obufSize) :
    bufferByteAt p off = .obuf (off - 0x2000) := by
  obtain ⟨-, hi, -, -⟩ := hp
  unfold bufferByteAt ibufBase obufBase
  rw [if_neg (by omega), if_pos ⟨h, hlt⟩]

/-- The rest of the buffer half: between the end of IBUF and OBUF, and past the end of OBUF. -/
theorem bufferByteAt_of_reserved (hp : p.wf)
    (h : (0x1000 + p.ibufSize ≤ off ∧ off < 0x2000) ∨ 0x2000 + p.obufSize ≤ off) :
    bufferByteAt p off = .reserved := by
  obtain ⟨-, hi, -, -⟩ := hp
  unfold bufferByteAt ibufBase obufBase
  rw [if_neg (by omega), if_neg (by omega)]

theorem touches_of_forall {f : BufferByte → Bool} (hw : 0 < width)
    (h : ∀ i < width, f (bufferByteAt p (off + i)) = true) : touches p off width f = true :=
  List.any_eq_true.2 ⟨0, List.mem_range.2 hw, h 0 hw⟩

theorem not_touches_of_forall {f : BufferByte → Bool} (h : ∀ i < width, f (bufferByteAt p (off + i)) = false) :
    touches p off width f = false :=
  List.any_eq_false.2 fun i hi => Bool.eq_false_iff.1 (h i (List.mem_range.1 hi))

end BufferBytes

/-! ### Bytes read, little-endian (R76) -/

section Read

theorem littleEndian_succ (n : Nat) (f : Nat → Byte) :
    littleEndian (n + 1) f = littleEndian n f + (f n).toNat * 256 ^ n := by
  simp [littleEndian, List.range_succ]

theorem littleEndian_congr {n : Nat} {f g : Nat → Byte} (h : ∀ i < n, f i = g i) :
    littleEndian n f = littleEndian n g := by
  unfold littleEndian
  rw [List.map_congr_left fun i hi => by rw [h i (List.mem_range.1 hi)]]

theorem littleEndian_zero_bytes (n : Nat) : littleEndian n (fun _ => 0) = 0 := by
  simp [littleEndian]

theorem intBE_reverse_range (n : Nat) (f : Nat → Byte) :
    intBE ((List.range n).map f).reverse = littleEndian n f := by
  induction n with
  | zero => rfl
  | succ n ih =>
    rw [List.range_succ, List.map_append, List.reverse_append, intBE_append, ih, littleEndian_succ, List.map_singleton,
      List.reverse_singleton, intBE_single, List.length_reverse, List.length_map, List.length_range, Nat.add_comm]

variable {s : State} {off width : Nat}

/-- A read of the buffer half, from its bytes one by one. -/
theorem State.readBuffer_eq {f : Nat → Byte} (h : ∀ i < width, s.readBufferByte (off + i) i = f i) :
    s.readBuffer off width = BitVec.ofNat 32 (littleEndian width f) := by
  rw [State.readBuffer, busValue, intBE_reverse_range, littleEndian_congr h]

theorem State.readBufferByte_of_ibuf {k i : Nat} (h : bufferByteAt s.params off = .ibuf k) :
    s.readBufferByte off i = s.ibufByte k := by
  simp only [State.readBufferByte, h]

theorem State.readBufferByte_of_obuf {k i : Nat} (h : bufferByteAt s.params off = .obuf k) (hb : s.busy = false) :
    s.readBufferByte off i = s.obufByte k := by
  simp [State.readBufferByte, h, hb]

theorem State.readBufferByte_of_reserved {i : Nat} (h : bufferByteAt s.params off = .reserved) :
    s.readBufferByte off i = 0 := by
  simp only [State.readBufferByte, h]

/-- A host read of the buffer half draws no free value unless it touches OBUF during a run. -/
theorem hostReads_buffer {f : Nat → Byte} (hoff : off < 0x3000) (ha : aligned off width) (h : 0x1000 ≤ off)
    (hd : s.busy = true → ∀ i < width, (bufferByteAt s.params (off + i)).isObuf = false)
    (hf : ∀ i < width, s.readBufferByte (off + i) i = f i) :
    hostReads s off width =
      .next { s with responses := .data (BitVec.ofNat 32 (littleEndian width f)) :: s.responses } := by
  have hdraw : (s.busy && touches s.params off width BufferByte.isObuf) = false := by
    cases hb : s.busy with
    | false => rfl
    | true => exact not_touches_of_forall (hd hb)
  rw [hostReads_eq s hoff, State.busRead_buffer ha h, hdraw, State.readBuffer_eq hf]
  rfl

end Read

/-! ### Bytes stored (R76) -/

section Write

variable {s : State} {off width : Nat} {v : Word}

/-- A write that covers no IBUF byte is ignored (R72, R81). -/
theorem hostWrites_buffer_ignored (hoff : off < 0x3000) (ha : aligned off width) (h : 0x1000 ≤ off)
    (hk : ∀ i < width, (bufferByteAt s.params (off + i)).isIbuf = false) :
    hostWrites s off width v = .next { s with responses := .written :: s.responses } := by
  rw [hostWrites_eq s hoff, State.busWrite_buffer ha h, not_touches_of_forall hk]
  rfl

/-- A buffer write within IBUF is one byte string stored. -/
theorem State.writeBuffer_ibuf {bs : Bytes} (h : 0x1000 ≤ off) (hlt : off + bs.length ≤ 0x1000 + s.params.ibufSize) :
    s.writeBuffer off bs = { s with ibuf := s.ibuf.putBytes (off - 0x1000) bs } := by
  induction bs generalizing s off with
  | nil => rfl
  | cons b bs ih =>
    rw [List.length_cons] at hlt
    have hput : s.writeBufferByte off b = { s with ibuf := s.ibuf.put (off - 0x1000) b } := by
      simp only [State.writeBufferByte, bufferByteAt_of_ibuf h (show off < 0x1000 + s.params.ibufSize by omega)]
    rw [State.writeBuffer, hput, ih (by omega) (by change off + 1 + bs.length ≤ 0x1000 + s.params.ibufSize; omega),
      Nat.sub_add_comm h]
    rfl

/-- An idle host write within IBUF stores the bytes of its value, lowest first (R57, R76). -/
theorem hostWrites_ibuf (hoff : off < 0x3000) (ha : aligned off width) (hin : s.inIbuf off width)
    (hb : s.busy = false) :
    hostWrites s off width v = .next { s with
      ibuf := s.ibuf.putBytes (off - 0x1000) ((List.range width).map (busByte v))
      responses := .written :: s.responses } := by
  obtain ⟨h, hend⟩ := hin
  have ht : touches s.params off width BufferByte.isIbuf = true :=
    touches_of_forall (aligned_pos ha) fun i hi => by rw [bufferByteAt_of_ibuf (by omega) (by omega)]; rfl
  rw [hostWrites_eq s hoff, State.busWrite_buffer ha h, ht, if_pos rfl, State.unlessBusy_of_idle hb,
    State.writeBuffer_ibuf h (by simpa using hend)]
  rfl

/-- The IBUF bytes after a byte string is stored: the string at its place. -/
theorem State.ibufByte_putBytes_inside {t : State} {i k : Nat} {bs : Bytes} (ht : t.ibuf = s.ibuf.putBytes i bs)
    (hk : k < bs.length) : t.ibufByte (i + k) = bs[k] := by
  refine State.ibufByte_of_byte? ?_
  rw [ht, Memory.byte?_putBytes, if_pos (by omega), Nat.add_sub_cancel_left, List.getElem?_eq_getElem hk]

/-- Every other IBUF byte stays, those with free values included. -/
theorem State.ibufByte_putBytes_outside {t : State} {i a : Nat} {bs : Bytes} (ht : t.ibuf = s.ibuf.putBytes i bs)
    (h : a < i ∨ i + bs.length ≤ a) : t.ibufByte a = s.ibufByte a := by
  rw [State.ibufByte, State.ibufByte, ht, Memory.byte?_putBytes, if_neg (by omega), Memory.putBytes_epoch]

end Write

/-! ### Reserved offsets and fields (R72, R37, R46) -/

section Reserved

variable {s : State} {off width : Nat}

/-- CAPS is the last register (R71). -/
theorem regAt_of_reserved (h : 0x44 ≤ off) : regAt off = none := by
  obtain ⟨k, hk⟩ := Nat.exists_eq_add_of_le' (show 17 ≤ off / 4 by omega)
  rw [regAt, hk]
  rfl

theorem hostWrites_register_reserved (ha : aligned off width) (h : 0x44 ≤ off) (hlt : off < 0x1000) (v : Word) :
    hostWrites s off width v = .next { s with responses := .written :: s.responses } := by
  rw [hostWrites_eq s (by omega), State.busWrite_register ha hlt, regAt_of_reserved h]
  rfl

theorem hostReads_register_reserved (ha : aligned off width) (h : 0x44 ≤ off) (hlt : off < 0x1000) :
    hostReads s off width = .next { s with responses := .data 0 :: s.responses } := by
  rw [hostReads_eq s (by omega), State.busRead_register ha hlt, regAt_of_reserved h]
  rfl

/-- An access to reserved offsets lies in the register half, or covers reserved bytes of the buffer half only. -/
theorem State.inReserved_cases (hp : s.params.wf) (ha : aligned off width) (h : s.inReserved off width) :
    (0x44 ≤ off ∧ off < 0x1000) ∨
    (0x1000 ≤ off ∧ off < 0x3000 ∧ ∀ i < width, bufferByteAt s.params (off + i) = .reserved) := by
  have hpos := aligned_pos ha
  rcases h with h | h | h
  · exact .inl (by omega)
  · exact .inr ⟨by omega, by omega, fun i hi => bufferByteAt_of_reserved hp (by omega)⟩
  · exact .inr ⟨by omega, by omega, fun i hi => bufferByteAt_of_reserved hp (by omega)⟩

theorem State.ctrlWord_reserved (s : State) : s.ctrlWord &&& 0xFFFFFFF0 = 0 := by
  rw [State.ctrlWord_eq]
  cases s.ie <;> decide

/-- Bits 3:2 and 31:12 of STATUS (R46), as the layout of R39 has them. -/
theorem State.statusWord_reserved (s : State) : s.statusWord &&& 0xFFFFF00C = 0 := by
  have hmask : (0xFFFFF00C : Word) = BitVec.allOnes 20 ++ (0 : BitVec 1) ++ (0 : BitVec 1) ++ (0 : BitVec 2)
      ++ (0 : BitVec 4) ++ (3 : BitVec 2) ++ (0 : BitVec 1) ++ (0 : BitVec 1) := by decide
  rw [hmask, State.statusWord]
  iterate 7 rw [BitVec.and_append]
  simp

/-- Bits 7 and 31:16 of RESULT, as the layout of R48 has them. -/
theorem ResultReg.word_reserved (r : ResultReg) : r.word &&& 0xFFFF0080 = 0 := by
  have hmask : (0xFFFF0080 : Word) = BitVec.allOnes 16 ++ (0 : BitVec 8) ++ (1 : BitVec 1) ++ (0 : BitVec 2)
      ++ (0 : BitVec 1) ++ (0 : BitVec 2) ++ (0 : BitVec 1) ++ (0 : BitVec 1) := by decide
  rw [hmask, ResultReg.word]
  iterate 7 rw [BitVec.and_append]
  simp

theorem lenWord_reserved (n : BitVec 16) : lenWord n &&& 0xFFFF0000 = 0 := by
  have hmask : (0xFFFF0000 : Word) = BitVec.allOnes 16 ++ (0 : BitVec 16) := by decide
  rw [hmask, lenWord, BitVec.and_append]
  simp

end Reserved

/-! ### The statements -/

/-- Settles O19: a write within IBUF is one byte string stored, a read takes its bytes one by one. -/
theorem ibufAccess : Obligations.IbufAccess := by
  intro s off width hp ha hin
  obtain ⟨hlo, hhi⟩ := hin
  have hpos := aligned_pos ha
  have ⟨_, hsize, _, _⟩ := hp
  have hoff : off < 0x3000 := by omega
  have hbyte : ∀ i < width, bufferByteAt s.params (off + i) = .ibuf (off - 0x1000 + i) := fun i hi => by
    rw [bufferByteAt_of_ibuf (by omega) (by omega), Nat.sub_add_comm hlo]
  refine ⟨fun v hb => ⟨_, hostWrites_ibuf hoff ha ⟨hlo, hhi⟩ hb, rfl, fun i hi => ?_, fun a hout => ?_⟩, ?_⟩
  · rw [State.ibufByte_putBytes_inside (s := s) rfl (by simpa using hi)]
    simp [busByte]
  · exact State.ibufByte_putBytes_outside (s := s) rfl (by simpa using hout)
  · exact hostReads_buffer hoff ha hlo (fun _ i hi => by rw [hbyte i hi]; rfl) fun i hi =>
      State.readBufferByte_of_ibuf (hbyte i hi)

/-- Settles O20: a write within OBUF covers no IBUF byte, an idle read takes its bytes one by one. -/
theorem obufAccess : Obligations.ObufAccess := by
  intro s off width hp ha hin
  obtain ⟨hlo, hhi⟩ := hin
  have hpos := aligned_pos ha
  have ⟨_, _, _, hsize⟩ := hp
  have hoff : off < 0x3000 := by omega
  have hbuffer : 0x1000 ≤ off := by omega
  have hbyte : ∀ i < width, bufferByteAt s.params (off + i) = .obuf (off - 0x2000 + i) := fun i hi => by
    rw [bufferByteAt_of_obuf hp (by omega) (by omega), Nat.sub_add_comm hlo]
  refine ⟨fun v => hostWrites_buffer_ignored hoff ha hbuffer fun i hi => by rw [hbyte i hi]; rfl, fun hb => ?_⟩
  exact hostReads_buffer hoff ha hbuffer (fun h => absurd (hb.symm.trans h) (by decide)) fun i hi =>
    State.readBufferByte_of_obuf (hbyte i hi) hb

/-- Settles O22: no register, or reserved bytes only; and the zero fields of the register words. -/
theorem reservedOffsets : Obligations.ReservedOffsets := by
  intro s hp
  refine ⟨fun off width v ha hr => ?_, s.ctrlWord_reserved, s.statusWord_reserved, s.result.word_reserved,
    lenWord_reserved _, lenWord_reserved _, lenWord_reserved _, fun j => lenWord_reserved _⟩
  rcases State.inReserved_cases hp ha hr with ⟨hlo, hlt⟩ | ⟨hbuffer, hoff, hbyte⟩
  · exact ⟨hostReads_register_reserved ha hlo hlt, hostWrites_register_reserved ha hlo hlt v⟩
  · constructor
    · rw [hostReads_buffer hoff ha hbuffer (fun _ i hi => by rw [hbyte i hi]; rfl) fun i hi =>
        State.readBufferByte_of_reserved (hbyte i hi), littleEndian_zero_bytes]
      rfl
    · exact hostWrites_buffer_ignored hoff ha hbuffer fun i hi => by rw [hbyte i hi]; rfl

/-- Settles O23: the error response, the answers of an accepted access, and the access that does not reach the block. -/
theorem busErrors : Obligations.BusErrors := by
  refine ⟨fun s off width v hoff hna => ?_, fun s off width v hoff ha => ?_, fun s addr width v rest hout => ?_⟩
  · rw [hostWrites_eq s hoff, hostReads_eq s hoff, State.busWrite_of_not_aligned hna, State.busRead_of_not_aligned hna]
    exact ⟨rfl, rfl⟩
  · obtain ⟨w, hw⟩ := s.busRead_data ha
    refine ⟨⟨_, hostWrites_eq s hoff width v, ?_⟩, _, w, hostReads_eq s hoff width, ?_⟩
    · rw [respond, State.busWrite_written ha, State.busWrite_responses]
    · rw [respond, hw, State.busRead_responses]
  · exact hostTurn_outside { s with inputs := rest } hout width v

end Sys2Proof.Machine

/-!
SUPPORT. The command word: a word with RSV = 0 is its fields (R91), what a row of the opcode map accepts (R100), and what
the decoder's answer says of the word (R102).
-/

namespace Sys2Proof

/-! ### The fields of a word (R91) -/

theorem chSelOf_bits (b : BitVec 2) : (chSelOf b).bits = b := by
  revert b
  decide

theorem ChSel.bits_toNat_eq_two {ch : ChSel} : ch.bits.toNat = 2 ↔ ch = .reserved := by cases ch <;> decide

theorem ChSel.bits_toNat_eq_three {ch : ChSel} : ch.bits.toNat = 3 ↔ ch = .auto := by cases ch <;> decide

/-- A flag of a word is its one-bit field. -/
theorem ofBool_getLsbD (w : Word) (k : Nat) : BitVec.ofBool (w.getLsbD k) = w.extractLsb' k 1 := by
  rw [BitVec.getLsbD_eq_extractLsb']
  generalize w.extractLsb' k 1 = b
  revert b
  decide

/-- A word with RSV = 0 is packed from its own fields: each field is a slice of the word, and neighbouring slices join. -/
theorem packWord_fields {w : Word} (h : fieldRsv w = 0) :
    packWord (fieldOp w) (fieldCh w) (fieldC w) (fieldN w) (fieldS w) = w := by
  simp only [packWord, ← h, fieldS, fieldN, fieldC, fieldCh, chSelOf_bits, ofBool_getLsbD, fieldRsv, fieldOp,
    BitVec.extractLsb'_append_extractLsb'_eq_extractLsb', BitVec.extractLsb'_eq_self]

/-- The fields of a packed word add up, each at its bit position. -/
theorem packWord_toNat (op : Byte) (ch : ChSel) (c n s : Bool) :
    (packWord op ch c n s).toNat =
      op.toNat + 2 ^ 8 * ch.bits.toNat + 2 ^ 10 * c.toNat + 2 ^ 11 * n.toNat + 2 ^ 12 * s.toNat := by
  simp only [packWord, Machine.toNat_append_eq_add, BitVec.toNat_ofBool, BitVec.ofNat_eq_ofNat, BitVec.toNat_ofNat]
  omega

theorem packWord_toNat_op (op : Byte) (ch : ChSel) (c n s : Bool) : (packWord op ch c n s).toNat % 256 = op.toNat := by
  rw [packWord_toNat]
  omega

theorem packWord_toNat_ch (op : Byte) (ch : ChSel) (c n s : Bool) :
    (packWord op ch c n s).toNat / 256 % 4 = ch.bits.toNat := by
  rw [packWord_toNat]
  omega

/-! ### The rows of the opcode map (R100) -/

/-- The row `r` takes the word with its OP and these fields: the word matches under the mask, and CH is legal where the
command uses it (R98, R99). -/
abbrev OpRow.Accepts (r : OpRow) (ch : ChSel) (c n s : Bool) : Prop :=
  packWord r.op ch c n s &&& r.mask = r.pattern ∧ (r.legalCh = [] ∨ ch ∈ r.legalCh)

/-- What a row accepts, it builds a well-formed command from, whose word is the accepted one: the table is checked row by
row, at every value of the fields. -/
theorem opRows_exact {r : OpRow} (hr : r ∈ opRows) {ch : ChSel} {c n s : Bool} (h : r.Accepts ch c n s) :
    (r.build ch c n s).wf = true ∧ encode (r.build ch c n s) = packWord r.op ch c n s := by
  revert r c n s
  cases ch <;> decide +kernel

/-- CH = 2 is legal in no row, CH = 3 in the row of VERIFY_MESSAGE alone (R99). -/
theorem opRows_ch {r : OpRow} (hr : r ∈ opRows) {ch : ChSel} {c n s : Bool} (h : r.Accepts ch c n s) :
    ch ≠ .reserved ∧ (ch = .auto → r.op = 0x31) := by
  revert r c n s
  cases ch <;> decide +kernel

/-- The OP values that have no row (R101). -/
abbrev ReservedOp (op : Nat) : Prop :=
  (0x01 ≤ op ∧ op ≤ 0x0F) ∨ (0x15 ≤ op ∧ op ≤ 0x17) ∨ (0x1A ≤ op ∧ op ≤ 0x1F) ∨ (0x26 ≤ op ∧ op ≤ 0x27) ∨
    (0x2A ≤ op ∧ op ≤ 0x2F) ∨ (0x32 ≤ op ∧ op ≤ 0x3F) ∨ (0x46 ≤ op ∧ op ≤ 0x47) ∨ 0x4C ≤ op

theorem opRows_op : ∀ r ∈ opRows, ¬ ReservedOp r.op.toNat := by decide

/-! ### The decoder (R102) -/

/-- A row's answer is what it builds from the word's fields, when it accepts them. -/
theorem decodeRow_ok {r : OpRow} {w : Word} {i : Instr} (h : decodeRow r w = .ok i) :
    w &&& r.mask = r.pattern ∧ (r.legalCh = [] ∨ fieldCh w ∈ r.legalCh) ∧
      r.build (fieldCh w) (fieldC w) (fieldN w) (fieldS w) = i := by
  unfold decodeRow at h
  split_ifs at h with hmask hch
  refine ⟨not_not.1 hmask, ?_, Except.ok.inj h⟩
  rwa [List.isEmpty_iff, not_and_or, not_not, not_not] at hch

/-- A word that decodes is the word of fields that a row accepts, and decodes to what the row builds from them. -/
theorem decode_ok {w : Word} {i : Instr} (h : decode w = .ok i) :
    ∃ r ∈ opRows, ∃ ch c n s, r.Accepts ch c n s ∧ w = packWord r.op ch c n s ∧ i = r.build ch c n s := by
  unfold decode at h
  split_ifs at h with hrsv
  split at h
  · exact nomatch h
  · next r hfind =>
    obtain ⟨hmask, hch, hbuild⟩ := decodeRow_ok h
    have hop : r.op = fieldOp w := by simpa using List.find?_some hfind
    have hw : packWord r.op (fieldCh w) (fieldC w) (fieldN w) (fieldS w) = w := by
      rw [hop, packWord_fields (not_not.1 hrsv)]
    exact ⟨r, List.mem_of_find?_eq_some hfind, _, _, _, _, ⟨by rwa [hw], hch⟩, hw.symm, hbuild.symm⟩

/-- Every well-formed command decodes from its own word. -/
theorem decode_encode {i : Instr} (h : i.wf = true) : decode (encode i) = .ok i := by
  cases i with
  | bech32Encode ch | bech32Decode ch | p2wpkhAddr ch =>
    cases ch with
    | btc | ltc => rfl
    | reserved | auto => exact nomatch h
  | msgDigest ch b | p2pkhAddr ch b =>
    cases ch with
    | btc | ltc => cases b <;> rfl
    | reserved | auto => exact nomatch h
  | verifyMessage ch n =>
    cases ch with
    | btc | ltc | auto => cases n <;> rfl
    | reserved => exact nomatch h
  | scalarMult c s => cases c <;> cases s <;> rfl
  | pointAdd b | modInv b | wifEncode b => cases b <;> rfl
  | _ => rfl

end Sys2Proof

/-!
OBLIGATIONS. The statements about the command word: decoding and encoding, reserved words, the rows of the opcode map.
-/

namespace Sys2Proof.Machine

/-- Settles O1: what a row accepts is the word of what it builds; and each command's word decodes back. -/
theorem decodeEncodeAgree : Obligations.DecodeEncodeAgree := by
  intro w i
  constructor
  · intro h
    obtain ⟨r, hr, ch, c, n, s, haccepts, rfl, rfl⟩ := decode_ok h
    exact opRows_exact hr haccepts
  · rintro ⟨hwf, rfl⟩
    exact decode_encode hwf

/-- While BUSY = 1, a step on the engine's turn is the engine's run of its latch, the turn taken from the list (R345). -/
theorem step_of_engineNext {s : State} (hb : s.busy = true) (hn : engineNext s) :
    step s = engineTurn { s with inputs := s.inputs.tail } := by
  unfold step takeTurn engineTurnIfBusy
  rcases hn with hi | hi
  · have hs : { s with inputs := [] } = s := by rw [← hi]
    rw [hi, List.tail_nil, hs]
    exact if_pos hb
  · obtain ⟨rest, hrest⟩ := List.head?_eq_some_iff.1 hi
    rw [hrest]
    exact if_pos hb

/-- A latched word that is no command completes with IllegalCommand (R102, R317). -/
theorem engineTurn_of_not_command {s : State} (h : ¬ ∃ i : Instr, i.wf = true ∧ encode i = s.cur.cmd) :
    engineTurn s = .next s.illegal := by
  unfold engineTurn
  split
  · next i hi => exact absurd ⟨i, (decodeEncodeAgree _ _).1 hi⟩ h
  · rfl

/-- Settles O3: the word of a command is one that a row accepts; and no other word decodes. -/
theorem illegalWords : Obligations.IllegalWords := by
  refine ⟨fun w i hwf henc => ?_, fun s hb hn hnone => ?_⟩
  · obtain ⟨r, hr, ch, c, n, s, haccepts, rfl, -⟩ := decode_ok ((decodeEncodeAgree w i).2 ⟨hwf, henc⟩)
    obtain ⟨hreserved, hauto⟩ := opRows_ch hr haccepts
    rw [packWord_toNat_op, packWord_toNat_ch]
    exact ⟨Laws.ReservedClear.packWord_rsv _ _ _ _ _, opRows_op r hr, mt ChSel.bits_toNat_eq_two.1 hreserved,
      fun h3 => congrArg BitVec.toNat (hauto (ChSel.bits_toNat_eq_three.1 h3))⟩
  · exact ⟨_, (step_of_engineNext hb hn).trans (engineTurn_of_not_command hnone), Failed.of_fail _ _ _⟩

/-- Settles O2: each word is the word of its command. -/
theorem specWordsDecode : Obligations.SpecWordsDecode := by
  have decodes {w : Word} {i : Instr} (h : i.wf = true ∧ encode i = w) : decode w = .ok i := (decodeEncodeAgree w i).2 h
  refine ⟨decodes (by decide), decodes (by decide), decodes (by decide), decodes (by decide), decodes (by decide),
    decodes (by decide), decodes (by decide), decodes (by decide), decodes (by decide), decodes (by decide),
    fun x hx => decodes ?_⟩
  revert x
  decide

end Sys2Proof.Machine

/-!
SUPPORT. Facts about every command and about every turn: how a command's operands enter its run, what the runs of one
command at two states have in common, what a turn takes from the list, how a run of the two agents goes on.
-/

namespace Sys2Proof.Machine

/-! ### Operands (R113, R114) -/

/-- No command takes more than three operands (R113). -/
theorem operandCount_le_three (i : Instr) : operandCount i ≤ 3 := by
  cases i with
  | scalarMult c sub => cases sub <;> simp [operandCount]
  | _ => simp [operandCount]

theorem State.not_framed_of_not_fits {s : State} {m : Nat} (hm : m ≤ 3) (hf : ¬ s.fits m) : s.framed m = false :=
  Bool.eq_false_iff.2 (mt (State.framed_iff_fits hm).1 hf)

/-- The bytes of an operand are the IBUF bytes at its place (R113). -/
theorem State.opnd_get (s : State) (n : Nat) {k : Nat} (h : k < (s.opnd n).length) :
    (s.opnd n)[k] = s.ibufByte (s.cur.offset n + k) :=
  State.ibufBytes_get (by rwa [State.opnd, State.ibufBytes_length] at h)

/-- A well-formed command whose operands do not fit fails the framing check, whatever its rule (R114). -/
theorem exec_of_not_fits {i : Instr} {s : State} (hw : i.wf = true) (hf : ¬ s.fits (operandCount i)) :
    exec i s = .next (s.fail .invalidLength .interface) := by
  obtain ⟨r, hr, -⟩ := exec_of_wf hw s
  rw [hr, ran, State.runCommand_of_not_framed (State.not_framed_of_not_fits (operandCount_le_three i) hf)]

/-- A well-formed command whose operands fit completes at its own stage (R120, R122). -/
theorem exec_of_fits {i : Instr} {s : State} (hw : i.wf = true) (hf : s.fits (operandCount i)) :
    ∃ r, exec i s = .next (s.complete (stageOf i) r) := by
  obtain ⟨r, hr, -⟩ := exec_of_wf hw s
  refine ⟨r, ?_⟩
  rw [hr, ran, State.runCommand_of_framed ((State.framed_iff_fits (operandCount_le_three i)).2 hf)]

/-- An error of a completion has the completion's stage. -/
theorem State.complete_stage {s : State} {st : Stage} {r : Except ErrCode Output} (h : (s.complete st r).err ≠ .ok) :
    (s.complete st r).stage = st := by
  rcases s.complete_cases st r with ⟨e, -, hc⟩ | ⟨o, -, -, hc⟩ | ⟨o, -, -, hc⟩
  · rw [hc, State.fail_stage]
  · exact absurd (hc ▸ State.succeed_err s o) h
  · rw [hc, State.fail_stage]

/-! ### One command at two states (R124) -/

section TwoStates

variable {s s' : State} {m : Nat} {st : Stage} {r r' : Except ErrCode Output}

/-- What a command with `m` operands may depend on is the same at `s` and `s'`: the two buffer sizes, the operands'
lengths, and, when they fit IBUF, their bytes. -/
structure SameOperands (m : Nat) (s s' : State) : Prop where
  ibufSize : s.params.ibufSize = s'.params.ibufSize
  obufSize : s.params.obufSize = s'.params.obufSize
  lengths : ∀ k < m, s.operandLength k = s'.operandLength k
  bytes : s.fits m → ∀ k < m, s.opnd k = s'.opnd k

theorem SameOperands.fits_iff (h : SameOperands m s s') : s.fits m ↔ s'.fits m := by
  have htotal : s.operandTotal m = s'.operandTotal m :=
    congrArg List.sum (List.map_congr_left fun k hk => h.lengths k (List.mem_range.1 hk))
  rw [State.fits, State.fits, htotal, h.ibufSize]

/-- `t` and `t'` show the host the same outcome: the status, RESULT, every OLENj and the known OBUF bytes. -/
def SameOutcome (t t' : State) : Prop :=
  t.err = t'.err ∧ t.stage = t'.stage ∧ t.result = t'.result ∧ t.olen = t'.olen ∧ t.busy = t'.busy ∧
    t.done = t'.done ∧ ∀ a, t.obuf.byte? a = t'.obuf.byte? a

theorem SameOutcome.fail (s s' : State) (e : ErrCode) (st : Stage) : SameOutcome (s.fail e st) (s'.fail e st) :=
  ⟨rfl, rfl, rfl, rfl, rfl, rfl, fun _ => rfl⟩

/-- The emitted slots give the same known bytes in any two buffers of the same known bytes. -/
theorem byte?_putSlots_congr {m m' : Memory} (l : List (Fin 8 × Bytes)) (h : ∀ a, m.byte? a = m'.byte? a) (a : Nat) :
    (putSlots m l).byte? a = (putSlots m' l).byte? a := by
  induction l generalizing m m' with
  | nil => exact h a
  | cons x l ih =>
    refine ih fun a => ?_
    rw [Memory.byte?_putBytes, Memory.byte?_putBytes, h a]

theorem SameOutcome.succeed (s s' : State) (o : Output) : SameOutcome (s.succeed o) (s'.succeed o) :=
  ⟨rfl, rfl, rfl, rfl, rfl, rfl, byte?_putSlots_congr o.slots fun _ => rfl⟩

/-- The completion looks at nothing of the state but OBUF_SIZE (R116). -/
theorem SameOutcome.complete (h : s.params.obufSize = s'.params.obufSize) (st : Stage) (r : Except ErrCode Output) :
    SameOutcome (s.complete st r) (s'.complete st r) := by
  cases r with
  | error e => exact SameOutcome.fail s s' e st
  | ok o =>
    rw [State.complete, State.complete, h]
    split
    · exact SameOutcome.succeed s s' o
    · exact SameOutcome.fail s s' _ st

/-- The answers of one command at two states, when both are next states, show the same outcome. -/
def SameAnswer (a a' : Answer) : Prop := ∀ t t', a = .next t → a' = .next t' → SameOutcome t t'

theorem SameAnswer.next {t t' : State} (h : SameOutcome t t') : SameAnswer (.next t) (.next t') := by
  rintro _ _ ⟨⟩ ⟨⟩
  exact h

/-- Two runs whose rules give the same on the same operands have the same outcome: a run that does not fit IBUF reads
no operand. -/
theorem SameAnswer.ran (h : SameOperands m s s') (hm : m ≤ 3)
    (hr : (∀ k < m, s.opnd k = s'.opnd k) → r = r') : SameAnswer (ran s st m r) (ran s' st m r') := by
  refine SameAnswer.next ?_
  by_cases hf : s.fits m
  · obtain rfl := hr (h.bytes hf)
    rw [State.runCommand_of_framed ((State.framed_iff_fits hm).2 hf),
      State.runCommand_of_framed ((State.framed_iff_fits hm).2 (h.fits_iff.1 hf))]
    exact SameOutcome.complete h.obufSize st r
  · rw [State.runCommand_of_not_framed (State.not_framed_of_not_fits hm hf),
      State.runCommand_of_not_framed (State.not_framed_of_not_fits hm (mt h.fits_iff.2 hf))]
    exact SameOutcome.fail s s' _ _

theorem SameAnswer.ran_one (h : SameOperands 1 s s') (hr : s.opnd 0 = s'.opnd 0 → r = r') :
    SameAnswer (Machine.ran s st 1 r) (Machine.ran s' st 1 r') :=
  .ran h (by decide) fun ho => hr (ho 0 (by decide))

theorem SameAnswer.ran_two (h : SameOperands 2 s s')
    (hr : s.opnd 0 = s'.opnd 0 → s.opnd 1 = s'.opnd 1 → r = r') :
    SameAnswer (Machine.ran s st 2 r) (Machine.ran s' st 2 r') :=
  .ran h (by decide) fun ho => hr (ho 0 (by decide)) (ho 1 (by decide))

theorem SameAnswer.ran_three (h : SameOperands 3 s s')
    (hr : s.opnd 0 = s'.opnd 0 → s.opnd 1 = s'.opnd 1 → s.opnd 2 = s'.opnd 2 → r = r') :
    SameAnswer (Machine.ran s st 3 r) (Machine.ran s' st 3 r') :=
  .ran h (by decide) fun ho => hr (ho 0 (by decide)) (ho 1 (by decide)) (ho 2 (by decide))

end TwoStates

/-- Every command runs one rule on its operands, at any state (R124). -/
theorem exec_sameAnswer (i : Instr) {s s' : State} (h : SameOperands (operandCount i) s s') :
    SameAnswer (exec i s) (exec i s') := by
  cases i with
  | nop => exact .ran h (Nat.zero_le 3) fun _ => rfl
  | bech32Encode ch | bech32Decode ch | msgDigest ch _ | p2pkhAddr ch _ | p2wpkhAddr ch =>
    cases ch with
    | reserved | auto => exact .next (.fail s s' _ _)
    | btc | ltc => exact .ran_one h fun h0 => by rw [h0]
  | scalarMult c sub =>
    cases sub with
    | true => exact .ran_one h fun h0 => by rw [h0]
    | false => exact .ran_two h fun h0 h1 => by rw [h0, h1]
  | pointAdd | wifEncode | wifDecode | recover => exact .ran_two h fun h0 h1 => by rw [h0, h1]
  | verifyMessage ch n =>
    cases ch with
    | reserved => exact .next (.fail s s' _ _)
    | btc | ltc | auto => exact .ran_three h fun h0 h1 h2 => by rw [h0, h1, h2]
  | _ => exact .ran_one h fun h0 => by rw [h0]

/-! ### The turns of a run (R345) -/

section Turns

variable {s t : State}

/-- An idle engine's turn does nothing (R333). -/
theorem step_of_engineNext_idle (hb : s.busy = false) (hn : engineNext s) :
    step s = .next { s with inputs := s.inputs.tail } := by
  obtain ⟨t, ht⟩ := step_next s
  rcases step_cases ht with ⟨rest, hi, ⟨hb', -⟩ | ⟨-, rfl⟩⟩ | ⟨a, rest, hi, -⟩
  · exact absurd (hb.symm.trans hb') (by decide)
  · have htail : rest = s.inputs.tail := by rcases hi with ⟨hnil, rfl⟩ | hi <;> simp [*]
    rw [ht, htail]
  · simp [engineNext, hi] at hn

/-- The engine's run of its latch ends in a completion (R112). -/
theorem busy_of_engineTurn (h : engineTurn s = .next t) : t.busy = false := by
  rcases engineTurn_cases s with ⟨e, st, hf⟩ | ⟨o, -, hs⟩
  · obtain rfl := Host.Outcome.next.inj (hf.symm.trans h)
    rfl
  · obtain rfl := Host.Outcome.next.inj (hs.symm.trans h)
    rfl

@[simp] theorem State.ctrlStart_inputs : s.ctrlStart.inputs = s.inputs := by
  cases hb : s.busy <;> simp [State.ctrlStart_of_busy, State.ctrlStart_of_idle, hb]

@[simp] theorem State.ctrlClr_inputs : s.ctrlClr.inputs = s.inputs := by
  cases hb : s.busy <;> simp [State.ctrlClr_of_busy, State.ctrlClr_of_idle, hb]

@[simp] theorem State.writeCtrl_inputs (v : Word) : (s.writeCtrl v).inputs = s.inputs := by
  cases h3 : v.getLsbD 3 with
  | true => rw [State.writeCtrl_srst h3, State.softReset_inputs]
  | false =>
    rw [State.writeCtrl_of_not_srst h3]
    generalize v.getLsbD 2 = clr
    generalize v.getLsbD 0 = start
    cases clr <;> cases start <;> simp

theorem State.busRead_inputs (off width : Nat) : (s.busRead off width).1.inputs = s.inputs := by
  rcases s.busRead_cases off width with h | ⟨-, h⟩ <;> rw [h]
  rfl

theorem State.busWrite_inputs (off width : Nat) (v : Word) : (s.busWrite off width v).1.inputs = s.inputs := by
  rcases s.busWrite_cases off width v with h | ⟨-, h⟩ | ⟨-, h | h | h | h | ⟨-, h⟩⟩ | ⟨-, -, h⟩ <;> rw [h]
  · rfl
  · rw [State.writeBuffer_eq]
  · exact State.writeCtrl_inputs v

/-- A host turn leaves the turns that follow it. -/
theorem hostTurn_inputs {a : HostAction} (h : hostTurn a s = .next t) : t.inputs = s.inputs := by
  rcases hostTurn_cases h with ⟨rfl, -⟩ | ⟨addr, width, off, -, -, rfl⟩ | ⟨addr, width, v, off, -, -, rfl⟩ | ⟨-, rfl⟩
  · rfl
  · exact State.busRead_inputs off width
  · exact State.busWrite_inputs off width v
  · rfl

theorem Effect.params (he : Effect s t) : t.params = s.params := by cases he <;> rfl

/-- No step changes the sizes or the base address (R12, R70). -/
theorem step_params (h : step s = .next t) : t.params = s.params := by
  obtain ⟨u, rest, rs, he, rfl⟩ := step_moves h
  exact he.params

/-- Which turns reset depends on the base address alone (R330). -/
theorem Turn.resets_congr (h : t.params = s.params) (x : Turn) : x.resets t = x.resets s := by
  have ho : ∀ addr, t.offsetOf addr = s.offsetOf addr := fun addr => by rw [State.offsetOf, State.offsetOf, h]
  cases x with
  | engine => rfl
  | host a =>
    cases a with
    | write addr width v => simp only [Turn.resets, ho]
    | read addr width | powerOnReset => rfl

/-- A reset comes from a turn that resets (R330). -/
theorem not_resetNext (h : ∀ x ∈ s.inputs, x.resets s = false) : ¬ resetNext s := by
  rintro (⟨rest, hi⟩ | ⟨v, ⟨addr, rest, hi, ho⟩, h3⟩)
  · exact absurd (h _ (hi ▸ List.mem_cons_self)) (by simp [Turn.resets])
  · exact absurd (h _ (hi ▸ List.mem_cons_self)) (by simp [Turn.resets, ho, h3])

/-- A step that does not end the run is a host's turn, taken from the list (R345). -/
theorem inputs_of_busy_step (hb : s.busy = true) (h : step s = .next t) (ht : t.busy = true) :
    ∃ a, s.inputs = .host a :: t.inputs := by
  rcases step_cases h with ⟨rest, -, ⟨-, he⟩ | ⟨hidle, -⟩⟩ | ⟨a, rest, hi, ha⟩
  · exact absurd (ht.symm.trans (busy_of_engineTurn he)) (by decide)
  · exact absurd (hb.symm.trans hidle) (by decide)
  · exact ⟨a, by rw [hi, hostTurn_inputs ha]⟩

theorem run_succ {M : Host.Core} {s t : M.State} (h : M.step s = .next t) (k : Nat) : M.run (k + 1) s = M.run k t := by
  rw [Host.Core.run, h]

/-- A started command ends: each step ends its run, or takes a host's turn from the list and leaves the run going. -/
theorem run_ends (s : State) (hb : s.busy = true) :
    ∃ k t, k ≤ s.inputs.length + 1 ∧ Host.Core.run Sys2Proof.core k s = .next t ∧ t.busy = false ∧
      ((∀ x ∈ s.inputs, x.resets s = false) → t.done = true) := by
  obtain ⟨u, hu⟩ := step_next s
  cases hub : u.busy with
  | false =>
    refine ⟨1, u, by omega, run_succ hu 0, hub, fun hx => ?_⟩
    obtain ⟨-, hfalls, -⟩ := busyAndDoneChanges s u hu
    exact (hfalls hb hub).elim And.left fun hr => absurd hr (not_resetNext hx)
  | true =>
    obtain ⟨a, hi⟩ := inputs_of_busy_step hb hu hub
    obtain ⟨k, t, hk, hrun, ht, hdone⟩ := run_ends u hub
    refine ⟨k + 1, t, by rw [hi, List.length_cons]; omega, (run_succ hu k).trans hrun, ht,
      fun hx => hdone fun x hxu => ?_⟩
    rw [Turn.resets_congr (step_params hu)]
    exact hx x (hi ▸ List.mem_cons_of_mem _ hxu)
termination_by s.inputs.length
decreasing_by rw [hi, List.length_cons]; omega

end Turns
end Sys2Proof.Machine

/-!
SUPPORT. parse_point (R125) by the first byte of its operand, and what it accepts: the two encodings of a point (R127).
-/

namespace Sys2Proof.Machine

/-! ### The curve's y-coordinates (R21, R184) -/

/-- −7 is no cube modulo p: its power of exponent (p − 1) / 3 is not 1. So no point of the curve has y = 0. -/
theorem curveRhs_ne_zero (x : Nat) : curveRhs x ≠ 0 := by
  have : Fact fieldP.Prime := ⟨fieldP_prime⟩
  have hpow : powMod fieldP (fieldP - 7) ((fieldP - 1) / 3) ≠ 1 := by decide +kernel
  have hthird : 3 * ((fieldP - 1) / 3) = fieldP - 1 := by decide +kernel
  have hseven : (7 : ZMod fieldP) ≠ 0 := fun h =>
    absurd (eq_of_cast_eq (m := fieldP) (a := 7) (b := 0) (by decide +kernel) fieldP_pos (by simpa using h)) (by decide)
  intro h0
  have hcube : (x : ZMod fieldP) ^ 3 = -7 := by
    rw [eq_neg_iff_add_eq_zero, ← cast_curveRhs, h0, Nat.cast_zero]
  have hx : (x : ZMod fieldP) ≠ 0 := by
    intro hx
    rw [hx, zero_pow (by decide), zero_eq_neg] at hcube
    exact hseven hcube
  refine hpow (eq_of_cast_eq (powMod_lt fieldP_gt_one _ _) fieldP_gt_one ?_)
  rw [cast_powMod fieldP_gt_one, Nat.cast_sub (by decide +kernel : 7 ≤ fieldP), ZMod.natCast_self, zero_sub,
    Nat.cast_ofNat, ← hcube, ← pow_mul, hthird, ZMod.pow_card_sub_one_eq_one hx, Nat.cast_one]

/-- Two numbers in range with one square modulo p are equal, or they add up to p. -/
theorem eq_or_add_eq_of_sq_eq {a b : Nat} (ha : a < fieldP) (hb : b < fieldP)
    (h : a * a % fieldP = b * b % fieldP) : a = b ∨ a + b = fieldP := by
  have : Fact fieldP.Prime := ⟨fieldP_prime⟩
  rw [← ZMod.natCast_eq_natCast_iff', Nat.cast_mul, Nat.cast_mul, mul_self_eq_mul_self_iff] at h
  rcases h with h | h
  · exact .inl (eq_of_cast_eq ha hb h)
  · rw [eq_neg_iff_add_eq_zero, ← Nat.cast_add, ZMod.natCast_eq_zero_iff] at h
    obtain ⟨k, hk⟩ := h
    have hk2 : k < 2 := by
      by_contra hge
      have := Nat.mul_le_mul_left fieldP (not_lt.1 hge)
      omega
    interval_cases k <;> omega

/-- The formula of R184 gives a root of the right side of every point of the curve. -/
theorem sqrtP_mul_self_of_root {v y : Nat} (hv : v < fieldP) (h : y * y % fieldP = v) :
    sqrtP v * sqrtP v % fieldP = v := by
  have hcast : (v : ZMod fieldP) = (y : ZMod fieldP) ^ 2 := by rw [← h, ZMod.natCast_mod, Nat.cast_mul, sq]
  refine eq_of_cast_eq (Nat.mod_lt _ fieldP_pos) hv ?_
  rw [ZMod.natCast_mod, Nat.cast_mul, ← sq, cast_sqrtP_sq hcast]

/-- The other root of the right side at x: in range, and of the other parity (R125). -/
theorem other_root {x r : Nat} (hr : r < fieldP) (h : r * r % fieldP = curveRhs x) :
    fieldP - r < fieldP ∧ (fieldP - r) * (fieldP - r) % fieldP = curveRhs x ∧
      ((fieldP - r) % 2 == 1) = !(r % 2 == 1) := by
  have hodd : fieldP % 2 = 1 := by decide +kernel
  have hpos : 0 < r := Nat.pos_of_ne_zero (by rintro rfl; exact curveRhs_ne_zero x h.symm)
  refine ⟨by omega, ?_, ?_⟩
  · rw [← h, ← ZMod.natCast_eq_natCast_iff', Nat.cast_mul, Nat.cast_mul, Nat.cast_sub hr.le, ZMod.natCast_self,
      zero_sub, neg_mul_neg]
  · rw [Bool.eq_iff_iff, Bool.not_eq_true', beq_iff_eq, beq_eq_false_iff_ne]
    omega

/-- The lift of an x that has a root on the curve (R125). -/
theorem liftX_of_root {x : Nat} (odd : Bool) (hx : x < fieldP)
    (h : sqrtP (curveRhs x) * sqrtP (curveRhs x) % fieldP = curveRhs x) :
    liftX x odd = .ok (.affine x
      (if (sqrtP (curveRhs x) % 2 == 1) = odd then sqrtP (curveRhs x) else fieldP - sqrtP (curveRhs x))) := by
  rw [liftX, if_neg (not_le.2 hx)]
  exact if_neg (not_not.2 h)

/-- An x that lifts is in range and has a root on the curve (R125). -/
theorem root_of_liftX {x : Nat} {odd : Bool} {p : Point} (h : liftX x odd = .ok p) :
    x < fieldP ∧ sqrtP (curveRhs x) * sqrtP (curveRhs x) % fieldP = curveRhs x := by
  unfold liftX at h
  by_cases hx : x ≥ fieldP
  · rw [if_pos hx] at h
    exact nomatch h
  · rw [if_neg hx] at h
    refine ⟨not_le.1 hx, not_not.1 fun hroot => ?_⟩
    exact nomatch (if_pos hroot).symm.trans h

/-- The lift of x gives the point of the curve with that x whose y has the parity asked for, when there is one. -/
theorem liftX_eq_ok_iff {x : Nat} {odd : Bool} {p : Point} :
    liftX x odd = .ok p ↔ ∃ y, p = .affine x y ∧ p.onCurve = true ∧ (y % 2 == 1) = odd := by
  have hr := sqrtP_lt (curveRhs x)
  constructor
  · intro h
    obtain ⟨hx, hroot⟩ := root_of_liftX h
    obtain ⟨hlt, hsq, hpar⟩ := other_root hr hroot
    obtain rfl := Except.ok.inj ((liftX_of_root odd hx hroot).symm.trans h)
    by_cases hodd : (sqrtP (curveRhs x) % 2 == 1) = odd
    · rw [if_pos hodd]
      exact ⟨_, rfl, Point.onCurve_affine.2 ⟨hx, hr, hroot⟩, hodd⟩
    · rw [if_neg hodd]
      exact ⟨_, rfl, Point.onCurve_affine.2 ⟨hx, hlt, hsq⟩, hpar.trans (Bool.not_eq.2 hodd)⟩
  · rintro ⟨y, rfl, hc, hpar⟩
    obtain ⟨hx, hy, hsq⟩ := Point.onCurve_affine.1 hc
    have hroot := sqrtP_mul_self_of_root (curveRhs_lt x) hsq
    rw [liftX_of_root odd hx hroot]
    rcases eq_or_add_eq_of_sq_eq hr hy (hroot.trans hsq.symm) with heq | hsum
    · rw [heq, if_pos hpar]
    · obtain ⟨-, -, hother⟩ := other_root hr hroot
      have hy' : fieldP - sqrtP (curveRhs x) = y := by omega
      rw [hy', hpar] at hother
      rw [hy', if_neg (by simp [hother])]

theorem checkXY_eq_ok_iff {x y : Nat} {p : Point} :
    checkXY x y = .ok p ↔ p = .affine x y ∧ p.onCurve = true := by
  unfold checkXY
  split_ifs with hrange hsq
  · simp only [false_iff, not_and]
    rintro rfl hc
    obtain ⟨hx, hy, -⟩ := Point.onCurve_affine.1 hc
    omega
  · simp only [false_iff, not_and]
    rintro rfl hc
    exact hsq (Point.onCurve_affine.1 hc).2.2
  · obtain ⟨hx, hy⟩ := not_or.1 hrange
    constructor
    · rintro ⟨⟩
      exact ⟨rfl, Point.onCurve_affine.2 ⟨not_le.1 hx, not_le.1 hy, not_not.1 hsq⟩⟩
    · rintro ⟨rfl, -⟩
      rfl

/-! ### parse_point by its first byte (R125) -/

section ParsePoint

variable {t : Byte} {rest b : Bytes} {allowInf : Bool} {p : Point}

theorem parsePoint_cons (t : Byte) (rest : Bytes) (allowInf : Bool) :
    parsePoint (t :: rest) allowInf =
      if t = 0x00 ∧ allowInf = true then
        if rest ≠ [] then .error .invalidLength else .ok .infinity
      else if t = 0x02 ∨ t = 0x03 then
        if rest.length ≠ 32 then .error .invalidLength else liftX (intBE rest) (t.getLsbD 0)
      else if t = 0x04 then
        if rest.length ≠ 64 then .error .invalidLength else checkXY (intBE (rest.take 32)) (intBE (rest.drop 32))
      else .error .malformedEncoding := by
  have hlen (n : Nat) : (t :: rest).length ≠ n + 1 ↔ rest.length ≠ n := by simp
  have hnil : rest.length ≠ 0 ↔ rest ≠ [] := by simp
  have htake (h : rest.length = 32) : slice (t :: rest) 1 33 = rest := List.take_of_length_le h.le
  have hdrop (h : rest.length = 64) : slice (t :: rest) 33 65 = rest.drop 32 :=
    List.take_of_length_le (by simp [h])
  unfold parsePoint
  rw [if_neg (by simp)]
  simp only [show byteAt (t :: rest) 0 = t from rfl, hlen, hnil]
  split_ifs with _ _ _ h32 _ h64
  · rfl
  · rfl
  · rfl
  · rw [htake (not_not.1 h32)]
  · rfl
  · rw [hdrop (not_not.1 h64)]
    rfl
  · rfl

/-- The tag of a compressed encoding is not that of O (R125). -/
theorem not_infinity_of_compressed (ht : t = 0x02 ∨ t = 0x03) : ¬ (t = 0x00 ∧ allowInf = true) := by
  rintro ⟨rfl, -⟩
  exact absurd ht (by decide)

/-- 33 bytes of a compressed encoding's form lift their x (R125). -/
theorem parsePoint_compressed (ht : t = 0x02 ∨ t = 0x03) (hlen : rest.length = 32) :
    parsePoint (t :: rest) allowInf = liftX (intBE rest) (t.getLsbD 0) := by
  rw [parsePoint_cons, if_neg (not_infinity_of_compressed ht), if_pos ht, if_neg (not_not.2 hlen)]

/-- 65 bytes of an uncompressed encoding's form check their x and y (R125). -/
theorem parsePoint_uncompressed (hlen : rest.length = 64) :
    parsePoint (0x04 :: rest) allowInf = checkXY (intBE (rest.take 32)) (intBE (rest.drop 32)) := by
  rw [parsePoint_cons, if_neg (by simp), if_neg (by decide), if_pos rfl, if_neg (not_not.2 hlen)]

/-- The tag of a compressed encoding gives the parity of y (R127). -/
theorem compressed_tag_iff (ht : t = 0x02 ∨ t = 0x03) (y : Nat) :
    BitVec.ofNat 8 (2 + y % 2) = t ↔ (y % 2 == 1) = t.getLsbD 0 := by
  rcases ht with rfl | rfl <;> rcases Nat.mod_two_eq_zero_or_one y with h | h <;> rw [h] <;> decide

theorem compressed_tag (y : Nat) : BitVec.ofNat 8 (2 + y % 2) = 0x02 ∨ BitVec.ofNat 8 (2 + y % 2) = 0x03 :=
  (Nat.mod_two_eq_zero_or_one y).imp (fun h => by rw [h]; rfl) fun h => by rw [h]; rfl

theorem beBytes_intBE_of_length {n : Nat} (h : b.length = n) : beBytes n (intBE b) = b := h ▸ beBytes_intBE b

/-- The big-endian form of a coordinate reads back (R17). -/
theorem intBE_coordinate {x : Nat} (h : x < fieldP) : intBE (beBytes 32 x) = x :=
  intBE_beBytes (h.trans (by decide +kernel))

/-- What parses is an encoding of the point it parses to; O only where it is allowed. -/
theorem encodesPoint_of_parsePoint (h : parsePoint b allowInf = .ok p) :
    EncodesPoint b p ∧ (p = .infinity → allowInf = true) := by
  cases b with
  | nil => exact nomatch h
  | cons t rest =>
    rw [parsePoint_cons] at h
    split_ifs at h with h0 hrest ht hlen h4 hlen
    · obtain ⟨rfl, rfl⟩ := h0
      obtain rfl := not_not.1 hrest
      obtain rfl := Except.ok.inj h
      exact ⟨⟨rfl, .inl rfl⟩, fun _ => rfl⟩
    · obtain ⟨y, rfl, hc, hpar⟩ := liftX_eq_ok_iff.1 h
      refine ⟨⟨hc, .inl ?_⟩, nofun⟩
      change t :: rest = BitVec.ofNat 8 (2 + y % 2) :: beBytes 32 (intBE rest)
      rw [(compressed_tag_iff ht y).2 hpar, beBytes_intBE_of_length (not_not.1 hlen)]
    · obtain ⟨rfl, hc⟩ := checkXY_eq_ok_iff.1 h
      refine ⟨⟨hc, .inr ?_⟩, nofun⟩
      have hx : (rest.take 32).length = 32 := by simp [not_not.1 hlen]
      have hy : (rest.drop 32).length = 32 := by simp [not_not.1 hlen]
      change t :: rest = 0x04 :: (beBytes 32 (intBE (rest.take 32)) ++ beBytes 32 (intBE (rest.drop 32)))
      rw [beBytes_intBE_of_length hx, beBytes_intBE_of_length hy, List.take_append_drop, h4]

/-- Both encodings of a point parse to it; the byte 00 of O where it is allowed. -/
theorem parsePoint_of_encodesPoint (h : EncodesPoint b p) (ha : p = .infinity → allowInf = true) :
    parsePoint b allowInf = .ok p := by
  obtain ⟨hc, hb⟩ := h
  cases p with
  | infinity =>
    obtain rfl : b = [0x00] := hb.elim id id
    rw [ha rfl]
    rfl
  | affine x y =>
    obtain ⟨hx, hy, -⟩ := Point.onCurve_affine.1 hc
    rcases hb with rfl | rfl
    · have ht := compressed_tag y
      change parsePoint (BitVec.ofNat 8 (2 + y % 2) :: beBytes 32 x) allowInf = _
      rw [parsePoint_compressed ht (beBytes_length 32 x), intBE_coordinate hx]
      exact liftX_eq_ok_iff.2 ⟨y, rfl, hc, (compressed_tag_iff ht y).1 rfl⟩
    · change parsePoint (0x04 :: (beBytes 32 x ++ beBytes 32 y)) allowInf = _
      rw [parsePoint_uncompressed (by simp), List.take_left' (beBytes_length 32 x),
        List.drop_left' (beBytes_length 32 x), intBE_coordinate hx, intBE_coordinate hy]
      exact checkXY_eq_ok_iff.2 ⟨rfl, hc⟩

/-- A string of a compressed or an uncompressed encoding's form fails only as no point of the curve (R125). -/
theorem parsePoint_error_of_form
    (hform : ((t = 0x02 ∨ t = 0x03) ∧ rest.length = 32) ∨ (t = 0x04 ∧ rest.length = 64)) {e : ErrCode}
    (h : parsePoint (t :: rest) allowInf = .error e) : e = .pointNotOnCurve := by
  rcases hform with ⟨ht, hlen⟩ | ⟨rfl, hlen⟩
  · exact liftX_error ((parsePoint_compressed ht hlen).symm.trans h)
  · exact checkXY_error ((parsePoint_uncompressed hlen).symm.trans h)

end ParsePoint

end Sys2Proof.Machine

/-!
OBLIGATIONS. The statements about what every command shares, the turns of a run, point operands and NOP.
-/

namespace Sys2Proof.Machine

/-- Settles O29: a command runs one rule on its operands, and its completion looks at OBUF_SIZE alone. -/
theorem commandsArePure : Obligations.CommandsArePure := fun i _ _ t t' hi ho hlengths hbytes ht ht' =>
  exec_sameAnswer i ⟨hi, ho, hlengths, hbytes⟩ t t' ht ht'

/-- Settles O9, the second clause by induction on the turns in hand (`run_ends`). -/
theorem startedCommandEnds : Obligations.StartedCommandEnds :=
  ⟨fun _ => step_of_engineNext_idle, run_ends⟩

/-- Settles O25: operands are read where the latch puts them; a command that does not fit fails whatever its rule. -/
theorem operandFraming : Obligations.OperandFraming := by
  refine ⟨fun s => ⟨State.ibufBytes_length s _ _, State.ibufBytes_length s _ _, State.ibufBytes_length s _ _,
    fun k h => ?_, fun k h => ?_, fun k h => ?_⟩,
    fun i s hw hf => ⟨_, exec_of_not_fits hw hf, Failed.of_fail s _ _⟩⟩
  all_goals rw [State.opnd_get]
  all_goals simp only [Latch.offset, Latch.len, Nat.zero_add]

/-- Settles O26, by the two ways a command ends. -/
theorem everyCommandCompletes : Obligations.EveryCommandCompletes := by
  intro i s
  rcases exec_completes i s with ⟨e, st, h⟩ | ⟨o, -, h⟩
  · exact ⟨_, h, SameInputs.fail s e st, rfl, rfl, rfl, .inr (Failed.of_fail s e st)⟩
  · exact ⟨_, h, SameInputs.succeed s o, rfl, rfl, putSlots_epoch _ _, .inl ⟨rfl, rfl⟩⟩

/-- Settles O27: an ill-formed term, a framing failure, or the command's own completion. -/
theorem stageTable : Obligations.StageTable := by
  intro i s t ht herr
  cases hw : i.wf with
  | false =>
    obtain rfl := Host.Outcome.next.inj ((exec_of_not_wf hw s).symm.trans ht)
    rw [if_neg (by simp)]
    rfl
  | true =>
    by_cases hf : s.fits (operandCount i)
    · obtain ⟨r, hr⟩ := exec_of_fits hw hf
      obtain rfl := Host.Outcome.next.inj (hr.symm.trans ht)
      rw [if_pos ⟨rfl, hf⟩, State.complete_stage herr]
    · obtain rfl := Host.Outcome.next.inj ((exec_of_not_fits hw hf).symm.trans ht)
      rw [if_neg fun h => hf h.2]
      rfl

/-- Settles O43: what parses is an encoding, both encodings parse, and each failing form has its branch. -/
theorem parsePointExact : Obligations.ParsePointExact := by
  refine ⟨fun b allowInf p => ⟨encodesPoint_of_parsePoint, fun h => parsePoint_of_encodesPoint h.1 h.2⟩, fun _ => rfl,
    fun t rest allowInf => ⟨fun ht hlen => ?_, ?_, ?_, ?_, fun hform hnone => ?_⟩⟩
  · rw [parsePoint_cons, if_neg (not_infinity_of_compressed ht), if_pos ht, if_pos hlen]
  · rintro rfl hlen
    rw [parsePoint_cons, if_neg (by simp), if_neg (by decide), if_pos rfl, if_pos hlen]
  · rintro rfl rfl hrest
    rw [parsePoint_cons, if_pos ⟨rfl, rfl⟩, if_pos hrest]
  · rintro ⟨h2, h3, h4, h0⟩
    rw [parsePoint_cons, if_neg h0, if_neg (not_or.2 ⟨h2, h3⟩), if_neg h4]
  · cases h : parsePoint (t :: rest) allowInf with
    | error e => rw [parsePoint_error_of_form hform h]
    | ok p => exact absurd ⟨p, (encodesPoint_of_parsePoint h).1⟩ hnone

/-- Settles O4: the engine's turn runs its latch, which decodes to the command. -/
theorem stepRunsDecoded : Obligations.StepRunsDecoded := by
  intro s i hb hn hd _
  rw [step_of_engineNext hb hn, engineTurn, hd]

/-- Settles O13: a CTRL write with START while idle is an accepted start. -/
theorem startAccepted : Obligations.StartAccepted := by
  intro s v hb h3 h0
  rw [hostWrites_ctrl, State.writeCtrl_start hb h3 h0]
  exact ⟨_, rfl, rfl, fun _ => rfl, rfl⟩

/-- NOP has no operand to frame and no slot to fit (R123). -/
theorem exec_nop (s : State) : exec .nop s = .next (s.succeed Output.none) := by
  have hf : s.framed 0 = true := State.framed_iff.2 (Nat.zero_le _)
  change ran s .interface 0 (.ok Output.none) = _
  rw [ran, State.runCommand_of_framed hf, State.complete_ok rfl]

/-- Settles O31: NOP's completion is one success, whose STATUS shows DONE alone. -/
theorem nopCompletes : Obligations.NopCompletes := by
  refine fun s => ⟨⟨_, exec_nop s, Completed.of_succeed s Output.none List.Pairwise.nil⟩, fun t ht hie hhaz => ?_⟩
  obtain rfl := Host.Outcome.next.inj ((exec_nop s).symm.trans ht)
  change (s.succeed Output.none).statusWord = 2
  simp [State.statusWord, State.irq, ErrCode.bits, Stage.bits, hie, hhaz]

end Sys2Proof.Machine

/-!
SUPPORT. Base58 (R140 to R142): a byte string and a text are both k zero digits followed by the digits of a number v,
and encoding and decoding go between the two spellings of the same k and v.
-/

namespace Sys2Proof.Machine

/-! ### Numerals: leading zeros and the digits of a number -/

section Numeral

variable {base : Nat}

/-- `k` zero digits and then the digits of `v`, most significant first. -/
def numeral (base k v : Nat) : List Nat := List.replicate k 0 ++ (Nat.digits base v).reverse

theorem ofDigits_eq_natOfDigits (ds : List Nat) : ofDigits base ds = Nat.ofDigits base ds.reverse := by
  induction ds using List.reverseRecOn with
  | nil => rfl
  | append_singleton ds d ih =>
    rw [ofDigits_append_single, ih, List.reverse_append, List.reverse_singleton, List.singleton_append,
      Nat.ofDigits_cons, Nat.add_comm, Nat.mul_comm]

/-- Where the fuel can hold the number, `toDigits` gives the library's digits, in the other order. -/
theorem toDigits_eq_natDigits (hb : 1 < base) {fuel v : Nat} (h : v < base ^ fuel) (acc : List Nat) :
    toDigits base fuel v acc = (Nat.digits base v).reverse ++ acc := by
  induction fuel generalizing v acc with
  | zero =>
    obtain rfl : v = 0 := by simpa using h
    simp [toDigits]
  | succ fuel ih =>
    rw [toDigits]
    split
    next h0 => simp [h0]
    next h0 =>
      rw [ih (Nat.div_lt_of_lt_mul (by rwa [pow_succ'] at h)), Nat.digits_def' hb (Nat.pos_of_ne_zero h0)]
      simp

@[simp] theorem ofDigits_numeral (k v : Nat) : ofDigits base (numeral base k v) = v := by
  rw [ofDigits_eq_natOfDigits, numeral, List.reverse_append, List.reverse_reverse, List.reverse_replicate,
    Nat.ofDigits_append_replicate_zero, Nat.ofDigits_digits]

theorem map_numeral (f : Nat → Byte) (k v : Nat) :
    (numeral base k v).map f = List.replicate k (f 0) ++ (Nat.digits base v).reverse.map f := by
  rw [numeral, List.map_append, List.map_replicate]

theorem lt_of_mem_numeral (hb : 1 < base) {k v d : Nat} (h : d ∈ numeral base k v) : d < base := by
  rcases List.mem_append.1 h with h | h
  · rw [(List.mem_replicate.1 h).2]
    omega
  · exact Nat.digits_lt_base hb (List.mem_reverse.1 h)

theorem lt_pow_numeral_length (hb : 1 < base) (k v : Nat) : v < base ^ (numeral base k v).length := by
  refine (Nat.lt_base_pow_length_digits hb).trans_le (Nat.pow_le_pow_right (by omega) ?_)
  simp [numeral]

/-- Every string of digits is a numeral. -/
theorem exists_numeral (hb : 1 < base) {ds : List Nat} (h : ∀ d ∈ ds, d < base) : ∃ k v, ds = numeral base k v := by
  induction ds using List.reverseRecOn with
  | nil => exact ⟨0, 0, by simp [numeral]⟩
  | append_singleton ds d ih =>
    obtain ⟨k, v, rfl⟩ := ih fun x hx => h x (by simp [hx])
    by_cases h0 : d ≠ 0 ∨ v ≠ 0
    · refine ⟨k, d + base * v, ?_⟩
      rw [numeral, numeral, Nat.digits_add base hb d v (h d (by simp)) h0]
      simp
    · obtain ⟨rfl, rfl⟩ : d = 0 ∧ v = 0 := by omega
      exact ⟨k + 1, 0, by simp [numeral, List.replicate_succ']⟩

/-- The digits of a number begin with no zero. -/
theorem head_natDigits_ne_zero {v d : Nat} {ds : List Nat} (h : (Nat.digits base v).reverse = d :: ds) : d ≠ 0 := by
  have hv : v ≠ 0 := by
    rintro rfl
    simp at h
  have hlast : (Nat.digits base v).getLast? = some d := by rw [← List.head?_reverse, h, List.head?_cons]
  have hne := Nat.getLast_digit_ne_zero base hv
  rwa [List.getLast_of_getLast?_eq_some hlast] at hne

/-- In a numeral whose digits are spelled by `f`, the leading zeros are the `k` of them, when `f` spells no other
digit like 0. -/
theorem countLeading_map_numeral (hb : 1 < base) {f : Nat → Byte} (hf : ∀ d < base, f d = f 0 → d = 0) (k v : Nat) :
    countLeading (f 0) ((numeral base k v).map f) = k := by
  have hnone : ((Nat.digits base v).reverse.map f).takeWhile (· == f 0) = [] := by
    cases hd : (Nat.digits base v).reverse with
    | nil => rfl
    | cons d ds =>
      have hlt : d < base := Nat.digits_lt_base hb (List.mem_reverse.1 (hd ▸ List.mem_cons_self))
      have hne : f d ≠ f 0 := fun h => head_natDigits_ne_zero hd (hf d hlt h)
      simp [hne]
  rw [countLeading, map_numeral, List.takeWhile_append_of_pos (by simp), hnone]
  simp

end Numeral

/-! ### The two spellings -/

/-- `k` zero bytes and then the big-endian bytes of `v`. -/
def byteNumeral (k v : Nat) : Bytes := (numeral 256 k v).map (BitVec.ofNat 8)

/-- `k` characters `1` and then the Base58 digits of `v` (R140). -/
def b58Numeral (k v : Nat) : Bytes := (numeral 58 k v).map b58Char

theorem map_toNat_byteNumeral (k v : Nat) : (byteNumeral k v).map BitVec.toNat = numeral 256 k v := by
  rw [byteNumeral, List.map_map]
  refine List.map_congr_left (fun d hd => ?_) |>.trans (List.map_id _)
  exact Nat.mod_eq_of_lt (lt_of_mem_numeral (by decide) hd)

theorem ofNat_eq_zero_byte (d : Nat) (hd : d < 256) (h : BitVec.ofNat 8 d = BitVec.ofNat 8 0) : d = 0 := by bv_omega

theorem exists_byteNumeral (b : Bytes) : ∃ k v, b = byteNumeral k v := by
  have hlt : ∀ d ∈ b.map BitVec.toNat, d < 256 := by
    intro d hd
    obtain ⟨x, -, rfl⟩ := List.mem_map.1 hd
    exact x.isLt
  obtain ⟨k, v, h⟩ := exists_numeral (by decide) hlt
  refine ⟨k, v, ?_⟩
  rw [byteNumeral, ← h, List.map_map]
  exact (List.map_id b).symm.trans (List.map_congr_left fun x _ => (BitVec.ofNat_toNat 8 x).symm)

/-! ### The alphabet (R140) -/

theorem b58Value_b58Char : ∀ d < 58, b58Value (b58Char d) = some d := by decide

theorem b58Char_eq_one : ∀ d < 58, b58Char d = b58Char 0 → d = 0 := by decide

theorem exists_b58Char_of_mem {c : Byte} (h : c ∈ b58Alphabet) : ∃ d < 58, c = b58Char d := by
  obtain ⟨d, hd, rfl⟩ := List.getElem_of_mem h
  exact ⟨d, hd, (List.getD_eq_getElem _ _ hd).symm⟩

theorem b58Value_eq_none_iff {c : Byte} : b58Value c = none ↔ c ∉ b58Alphabet := by
  rw [b58Value, List.findIdx?_eq_none_iff]
  exact ⟨fun h hc => by simpa using h c hc, fun h x hx => by simpa using fun e : x = c => h (e ▸ hx)⟩

theorem b58Values_map_b58Char {ds : List Nat} (h : ∀ d ∈ ds, d < 58) : b58Values (ds.map b58Char) = some ds := by
  induction ds with
  | nil => rfl
  | cons d ds ih =>
    rw [List.map_cons, b58Values, b58Value_b58Char d (h d List.mem_cons_self),
      ih fun x hx => h x (List.mem_cons_of_mem d hx)]

/-- One character outside the alphabet leaves the text without values. -/
theorem b58Values_eq_none {t : Bytes} {c : Byte} (hc : c ∈ t) (hout : c ∉ b58Alphabet) : b58Values t = none := by
  induction t with
  | nil => exact absurd hc List.not_mem_nil
  | cons x t ih =>
    rw [b58Values]
    rcases List.mem_cons.1 hc with rfl | hc
    · rw [b58Value_eq_none_iff.2 hout]
    · rw [ih hc]
      cases b58Value x <;> rfl

theorem exists_digits_of_alphabet {t : Bytes} (h : ∀ c ∈ t, c ∈ b58Alphabet) :
    ∃ ds : List Nat, (∀ d ∈ ds, d < 58) ∧ t = ds.map b58Char := by
  induction t with
  | nil => exact ⟨[], by simp, rfl⟩
  | cons c t ih =>
    obtain ⟨d, hd, rfl⟩ := exists_b58Char_of_mem (h c List.mem_cons_self)
    obtain ⟨ds, hds, rfl⟩ := ih fun x hx => h x (List.mem_cons_of_mem _ hx)
    exact ⟨d :: ds, by simpa using ⟨hd, hds⟩, rfl⟩

theorem exists_b58Numeral {t : Bytes} (h : ∀ c ∈ t, c ∈ b58Alphabet) : ∃ k v, t = b58Numeral k v := by
  obtain ⟨ds, hds, rfl⟩ := exists_digits_of_alphabet h
  obtain ⟨k, v, rfl⟩ := exists_numeral (by decide) hds
  exact ⟨k, v, rfl⟩

/-! ### Encoding and decoding (R141, R142) -/

/-- Encoding keeps the zeros and the number; 58² > 256, so its fuel of two digits a byte is enough. -/
theorem b58enc_byteNumeral (k v : Nat) : b58enc (byteNumeral k v) = b58Numeral k v := by
  have hzeros : countLeading 0x00 (byteNumeral k v) = k :=
    countLeading_map_numeral (f := BitVec.ofNat 8) (by decide) ofNat_eq_zero_byte k v
  have hvalue : intBE (byteNumeral k v) = v := by rw [intBE, map_toNat_byteNumeral, ofDigits_numeral]
  have hfuel : v < 58 ^ (2 * (byteNumeral k v).length) := by
    rw [byteNumeral, List.length_map, pow_mul]
    exact (lt_pow_numeral_length (by decide) k v).trans_le (Nat.pow_le_pow_left (by decide) _)
  rw [b58enc, hzeros, hvalue, toDigits_eq_natDigits (by decide) hfuel, List.append_nil, b58Numeral, map_numeral]
  rfl

/-- Decoding keeps the zeros and the number; its fuel of one byte a character is enough. -/
theorem b58dec_b58Numeral (k v : Nat) : b58dec (b58Numeral k v) = .ok (byteNumeral k v) := by
  have hvalues : b58Values (b58Numeral k v) = some (numeral 58 k v) :=
    b58Values_map_b58Char fun _ hd => lt_of_mem_numeral (by decide) hd
  have hzeros : countLeading b58One (b58Numeral k v) = k := countLeading_map_numeral (by decide) b58Char_eq_one k v
  have hfuel : v < 256 ^ (b58Numeral k v).length := by
    rw [b58Numeral, List.length_map]
    exact (lt_pow_numeral_length (by decide) k v).trans_le (Nat.pow_le_pow_left (by decide) _)
  simp only [b58dec, hvalues, hzeros, ofDigits_numeral]
  rw [minBytes, toDigits_eq_natDigits (by decide) hfuel, List.append_nil, byteNumeral, map_numeral]
  rfl

theorem b58dec_b58enc (b : Bytes) : b58dec (b58enc b) = .ok b := by
  obtain ⟨k, v, rfl⟩ := exists_byteNumeral b
  rw [b58enc_byteNumeral, b58dec_b58Numeral]

theorem exists_b58enc_of_alphabet {t : Bytes} (h : ∀ c ∈ t, c ∈ b58Alphabet) :
    ∃ b, b58dec t = .ok b ∧ b58enc b = t := by
  obtain ⟨k, v, rfl⟩ := exists_b58Numeral h
  exact ⟨byteNumeral k v, b58dec_b58Numeral k v, b58enc_byteNumeral k v⟩

/-- A byte outside the alphabet gives MalformedEncoding (R142). -/
theorem b58dec_of_not_mem_alphabet {t : Bytes} (h : ∃ c ∈ t, c ∉ b58Alphabet) :
    b58dec t = .error .malformedEncoding := by
  obtain ⟨c, hc, hout⟩ := h
  rw [b58dec, b58Values_eq_none hc hout]

section Checksummed

variable {body tail : Bytes}

/-! ### A body and its checksum (R143, R148) -/

theorem checksum4_length (body : Bytes) : (checksum4 body).length = 4 := by
  rw [checksum4, slice_length, dsha256, sha256_length]
  rfl

theorem bodyOf_append (h : tail.length = 4) : bodyOf (body ++ tail) = body := by simp [bodyOf, slice, h]

theorem checksumHolds_append (h : tail.length = 4) : checksumHolds (body ++ tail) = true ↔ tail = checksum4 body := by
  have htail : slice (body ++ tail) ((body ++ tail).length - 4) (body ++ tail).length = tail := by simp [slice, h]
  rw [checksumHolds, bodyOf_append h, htail, beq_iff_eq, eq_comm]

/-- PREFIX after B58CHECK_DECODE is the first body byte, 0 for the empty body (R54, R148). -/
theorem prefixOf_eq (body : Bytes) : prefixOf body = { ResultReg.zero with prefixByte := body.headD 0 } := by
  cases body <;> rfl

/-! ### The rules of the two decoders (R145, R148) -/

theorem b58DecodeRule_b58enc (b : Bytes) : b58DecodeRule (b58enc b) = emit0 b := by
  rw [b58DecodeRule, b58dec_b58enc]

theorem b58DecodeRule_malformed {t : Bytes} (h : ∃ c ∈ t, c ∉ b58Alphabet) :
    b58DecodeRule t = .error .malformedEncoding := by
  rw [b58DecodeRule, b58dec_of_not_mem_alphabet h]

/-- On the text of `raw` the rule is R148's three checks in order. -/
theorem b58checkDecodeRule_b58enc (raw : Bytes) :
    b58checkDecodeRule (b58enc raw) =
      if raw.length < 4 then .error .invalidLength
      else if ¬ checksumHolds raw then .error .checksumMismatch
      else .ok ⟨[(0, bodyOf raw)], prefixOf (bodyOf raw)⟩ := by
  rw [b58checkDecodeRule, b58dec_b58enc]

theorem b58checkDecodeRule_malformed {t : Bytes} (h : ∃ c ∈ t, c ∉ b58Alphabet) :
    b58checkDecodeRule t = .error .malformedEncoding := by
  rw [b58checkDecodeRule, b58dec_of_not_mem_alphabet h]

theorem b58checkDecodeRule_short {raw : Bytes} (h : raw.length < 4) :
    b58checkDecodeRule (b58enc raw) = .error .invalidLength := by
  rw [b58checkDecodeRule_b58enc, if_pos h]

theorem b58checkDecodeRule_append (h : tail.length = 4) (hsum : tail = checksum4 body) :
    b58checkDecodeRule (b58enc (body ++ tail)) =
      .ok ⟨[(0, body)], { ResultReg.zero with prefixByte := body.headD 0 }⟩ := by
  rw [b58checkDecodeRule_b58enc, if_neg (by simp [h]), if_neg (not_not.2 ((checksumHolds_append h).2 hsum)),
    bodyOf_append h, prefixOf_eq]

theorem b58checkDecodeRule_mismatch (h : tail.length = 4) (hsum : tail ≠ checksum4 body) :
    b58checkDecodeRule (b58enc (body ++ tail)) = .error .checksumMismatch := by
  rw [b58checkDecodeRule_b58enc, if_neg (by simp [h]), if_pos (mt (checksumHolds_append h).1 hsum)]

end Checksummed

/-! ### Runs that emit slot 0 -/

/-- R116, R118: a framed run that emits `b` alone succeeds when `b` fits OBUF and fails with InvalidLength when not. -/
theorem emit0_run {i : Instr} {s : State} {st : Stage} {m : Nat} {b : Bytes}
    (h : exec i s = ran s st m (emit0 b)) (hm : m ≤ 3) (hf : s.fits m) :
    (b.length ≤ s.params.obufSize → Succeeds i s [(0, b)] ResultReg.zero) ∧
    (s.params.obufSize < b.length → Fails i s .invalidLength st) :=
  ⟨Succeeds.of_run_single h hm hf rfl, Fails.of_overflow h hm hf rfl⟩

end Sys2Proof.Machine

/-!
OBLIGATIONS. The statements about Base58 and Base58Check.
-/

namespace Sys2Proof.Machine

/-- Settles O39: both directions keep the leading zeros and the number. -/
theorem base58RoundTrips : Obligations.Base58RoundTrips :=
  ⟨b58dec_b58enc, fun _ => exists_b58enc_of_alphabet⟩

/-- Settles O36: each command emits one slot, and the checksum's 4 bytes fit every OBUF of R12. -/
theorem b58EncodeCommands : Obligations.B58EncodeCommands := by
  intro s ⟨_, _, hmin, _⟩ hf
  obtain ⟨hencOk, hencBig⟩ := emit0_run (i := .b58Encode) (b := b58enc (s.opnd 0)) rfl (by decide) hf
  obtain ⟨hcheckOk, hcheckBig⟩ := emit0_run (i := .b58checkEncode) (b := b58checkText (s.opnd 0)) rfl (by decide) hf
  obtain ⟨hsum, -⟩ := emit0_run (i := .b58Checksum) (b := checksum4 (s.opnd 0)) rfl (by decide) hf
  have hfit : (checksum4 (s.opnd 0)).length ≤ s.params.obufSize := by
    rw [checksum4_length]
    omega
  exact ⟨hencOk, hencBig, hcheckOk, hcheckBig, hsum hfit⟩

/-- Settles O37: on the text of `b` the rule emits `b` (O39). -/
theorem b58DecodeCommand : Obligations.B58DecodeCommand := by
  intro s b _ hf
  have hrun (h : s.opnd 0 = b58enc b) : exec .b58Decode s = ran s .codec 1 (emit0 b) := by
    rw [← b58DecodeRule_b58enc, ← h]
    rfl
  exact ⟨fun h => (emit0_run (hrun h) (by decide) hf).1, fun h => (emit0_run (hrun h) (by decide) hf).2,
    fun h => Fails.of_run rfl (by decide) hf (b58DecodeRule_malformed h)⟩

/-- Settles O38: the rule's checks in R148's order, each on the string that the text decodes to (O39). -/
theorem b58checkDecodeCommand : Obligations.B58checkDecodeCommand := by
  intro s _ hf
  have hrun : exec .b58checkDecode s = ran s .codec 1 (b58checkDecodeRule (s.opnd 0)) := rfl
  refine ⟨fun body tail hlen h => ⟨fun hsum hfit => ?_, fun hsum hbig => ?_, fun hsum => ?_⟩,
    fun raw hshort h => ?_, fun h => ?_⟩
  · exact Succeeds.of_run_single hrun (by decide) hf (h ▸ b58checkDecodeRule_append hlen hsum) hfit
  · exact Fails.of_overflow hrun (by decide) hf (h ▸ b58checkDecodeRule_append hlen hsum) hbig
  · exact Fails.of_run hrun (by decide) hf (h ▸ b58checkDecodeRule_mismatch hlen hsum)
  · exact Fails.of_run hrun (by decide) hf (h ▸ b58checkDecodeRule_short hshort)
  · exact Fails.of_run hrun (by decide) hf (b58checkDecodeRule_malformed h)

end Sys2Proof.Machine

/-!
SUPPORT. The Bech32 checksum (R161, R164): `polymod` is linear over exclusive or, and in its first six values it only
shifts them in; so the six values of R164 bring it to 1.
-/

namespace Sys2Proof.Machine

/-! ### The checksum's step (R161) -/

section Polymod

variable (c e : BitVec 30) (v : Nat) (vs : List Nat)

/-- What the top five bits of the state add to the next one: the constants of GEN that they select. -/
def polymodTaps : BitVec 30 :=
  (if c.getLsbD 25 = true then 0x3B6A57B2 else 0) ^^^ (if c.getLsbD 26 = true then 0x26508E6D else 0)
    ^^^ (if c.getLsbD 27 = true then 0x1EA119FA else 0) ^^^ (if c.getLsbD 28 = true then 0x3D4233DD else 0)
    ^^^ (if c.getLsbD 29 = true then 0x2A1462B3 else 0)

theorem polymodStep_eq : polymodStep c v = ((c &&& 0x1FFFFFF) <<< 5) ^^^ BitVec.ofNat 30 v ^^^ polymodTaps c := by
  have select (b : Bool) (x g : BitVec 30) : (if b = true then x ^^^ g else x) = x ^^^ if b = true then g else 0 := by
    cases b <;> simp
  simp only [polymodStep, bech32Gen, List.foldl_cons, List.foldl_nil, select, BitVec.getLsbD_ushiftRight, polymodTaps]
  ac_rfl

theorem polymodTaps_xor : polymodTaps (c ^^^ e) = polymodTaps c ^^^ polymodTaps e := by
  have select (a b : Bool) (g : BitVec 30) : (if (a ^^ b) = true then g else 0) =
      (if a = true then g else 0) ^^^ if b = true then g else 0 := by
    cases a <;> cases b <;> simp
  simp only [polymodTaps, BitVec.getLsbD_xor, select]
  ac_rfl

theorem polymodStep_xor : polymodStep (c ^^^ e) v = polymodStep c 0 ^^^ polymodStep e v := by
  have hand : (c ^^^ e) &&& 0x1FFFFFF = (c &&& 0x1FFFFFF) ^^^ (e &&& 0x1FFFFFF) := by
    ext i
    simp [Bool.and_xor_distrib_right]
  have hshift (x y : BitVec 30) : (x ^^^ y) <<< 5 = (x <<< 5) ^^^ (y <<< 5) := BitVec.shiftLeft_xor_distrib ..
  rw [polymodStep_eq, polymodStep_eq, polymodStep_eq, polymodTaps_xor, hand, hshift, BitVec.ofNat_eq_ofNat,
    BitVec.xor_zero]
  ac_rfl

/-- The loop is linear: its result is that of the state's part on zeros, with that of the other part on the values. -/
theorem foldl_polymodStep_xor :
    vs.foldl polymodStep (c ^^^ e) = (List.replicate vs.length 0).foldl polymodStep c ^^^ vs.foldl polymodStep e := by
  induction vs generalizing c e with
  | nil => rfl
  | cons v vs ih => rw [List.foldl_cons, polymodStep_xor, ih, List.length_cons, List.replicate_succ]; rfl

theorem foldl_polymodStep_eq :
    vs.foldl polymodStep c = (List.replicate vs.length 0).foldl polymodStep c ^^^ vs.foldl polymodStep 0#30 := by
  simpa using foldl_polymodStep_xor c 0#30 vs

/-- While the top five bits are 0, a step shifts its value in. -/
theorem polymodStep_toNat_of_lt {c : BitVec 30} {v : Nat} (hc : c.toNat < 2 ^ 25) (hv : v < 32) :
    (polymodStep c v).toNat = c.toNat * 32 + v := by
  have high (k : Nat) (hk : 25 ≤ k) : c.getLsbD k = false :=
    Nat.testBit_lt_two_pow (hc.trans_le (Nat.pow_le_pow_right (by decide) hk))
  have htaps : polymodTaps c = 0#30 := by
    simp only [polymodTaps, high _ (by decide : 25 ≤ 25), high _ (by decide : 25 ≤ 26), high _ (by decide : 25 ≤ 27),
      high _ (by decide : 25 ≤ 28), high _ (by decide : 25 ≤ 29)]
    rfl
  have hmask : c &&& 0x1FFFFFF = c :=
    BitVec.eq_of_toNat_eq ((Nat.and_two_pow_sub_one_eq_mod _ 25).trans (Nat.mod_eq_of_lt hc))
  have hxor : (c.toNat * 32) ^^^ v = c.toNat * 32 + v := by
    have hdiv : ((c.toNat * 32) ^^^ v) / 2 ^ 5 = c.toNat := by
      rw [Nat.xor_div_two_pow, Nat.mul_div_cancel _ (by decide), Nat.div_eq_of_lt hv, Nat.xor_zero]
    have hmod : ((c.toNat * 32) ^^^ v) % 2 ^ 5 = v := by
      rw [Nat.xor_mod_two_pow, Nat.mul_mod_left, Nat.mod_eq_of_lt hv, Nat.zero_xor]
    omega
  rw [polymodStep_eq, htaps, hmask, BitVec.xor_zero, BitVec.toNat_xor, BitVec.toNat_shiftLeft, BitVec.toNat_ofNat,
    Nat.shiftLeft_eq, Nat.mod_eq_of_lt (by omega), Nat.mod_eq_of_lt (by omega), hxor]

end Polymod

theorem ofDigits_lt_pow {base : Nat} (hb : 1 < base) {ds : List Nat} (h : ∀ d ∈ ds, d < base) :
    ofDigits base ds < base ^ ds.length := by
  rw [ofDigits_eq_natOfDigits, ← List.length_reverse]
  exact Nat.ofDigits_lt_base_pow_length hb fun d hd => h d (List.mem_reverse.1 hd)

/-- Up to six values: the loop from 0 is the number they spell. -/
theorem foldl_polymodStep_zero_toNat {vs : List Nat} (hv : ∀ v ∈ vs, v < 32) (hlen : vs.length ≤ 6) :
    (vs.foldl polymodStep 0).toNat = ofDigits 32 vs := by
  induction vs using List.reverseRecOn with
  | nil => rfl
  | append_singleton vs v ih =>
    rw [List.length_append, List.length_singleton] at hlen
    have hvs : ∀ x ∈ vs, x < 32 := fun x hx => hv x (by simp [hx])
    have ih := ih hvs (by omega)
    have hlt : ofDigits 32 vs < 2 ^ 25 := calc
      ofDigits 32 vs < 32 ^ vs.length := ofDigits_lt_pow (by decide) hvs
      _ ≤ 32 ^ 5 := Nat.pow_le_pow_right (by decide) (by omega)
    rw [List.foldl_append, List.foldl_cons, List.foldl_nil, polymodStep_toNat_of_lt (ih ▸ hlt) (hv v (by simp)), ih,
      ofDigits_append_single]

/-! ### The checksum (R164) -/

section Checksum

variable (h : Bytes) (d : List Nat)

@[simp] theorem bech32Checksum_length : (bech32Checksum h d).length = 6 := rfl

theorem lt_of_mem_bech32Checksum {v : Nat} (hv : v ∈ bech32Checksum h d) : v < 32 := by
  obtain ⟨i, -, rfl⟩ := List.mem_map.1 hv
  exact Nat.and_lt_two_pow _ (by decide : 31 < 2 ^ 5)

/-- The checksum spells the word that R164 takes it from. -/
theorem ofDigits_bech32Checksum :
    ofDigits 32 (bech32Checksum h d) = (polymod (hrpExpand h ++ d ++ [0, 0, 0, 0, 0, 0]) ^^^ 1).toNat := by
  unfold bech32Checksum
  generalize polymod (hrpExpand h ++ d ++ [0, 0, 0, 0, 0, 0]) ^^^ 1 = pm
  have hpm := pm.isLt
  have digit (x : Nat) : x &&& 31 = x % 32 := Nat.and_two_pow_sub_one_eq_mod x 5
  simp only [List.map_cons, List.map_nil, BitVec.toNat_ushiftRight, digit, Nat.shiftRight_eq_div_pow, ofDigits,
    List.foldl_cons, List.foldl_nil]
  omega

/-- R164, R167: data with their checksum have polymod 1. -/
theorem polymod_bech32Checksum : polymod (hrpExpand h ++ (d ++ bech32Checksum h d)) = 1 := by
  have hsum : (bech32Checksum h d).foldl polymodStep 0#30 = polymod (hrpExpand h ++ d ++ [0, 0, 0, 0, 0, 0]) ^^^ 1 :=
    BitVec.eq_of_toNat_eq <| (foldl_polymodStep_zero_toNat (fun _ => lt_of_mem_bech32Checksum h d) le_rfl).trans
      (ofDigits_bech32Checksum h d)
  have happend (ws : List Nat) : polymod (hrpExpand h ++ d ++ ws) = ws.foldl polymodStep (polymod (hrpExpand h ++ d)) :=
    List.foldl_append
  have hsplit : polymod (hrpExpand h ++ (d ++ bech32Checksum h d)) =
      polymod (hrpExpand h ++ d ++ [0, 0, 0, 0, 0, 0]) ^^^ (bech32Checksum h d).foldl polymodStep 0#30 := by
    rw [← List.append_assoc, happend, happend, foldl_polymodStep_eq]
    rfl
  rw [hsplit, hsum, ← BitVec.xor_assoc, BitVec.xor_self, BitVec.zero_xor]

end Checksum

end Sys2Proof.Machine

/-!
SUPPORT. Bech32 addresses: the 5-bit values of a program (R163), what R167's checks on the data values answer, the text
of an address and its upper case, and the two commands' runs (R166, R168).
-/

namespace Sys2Proof.Machine

/-! ### The values of a program (R163, R164) -/

/-- `convertbits(prog, 8, 5, pad = true)` (R163) where the program is whole 5-bit values, so that no padding is put. -/
theorem convertBits_of_bytes {prog : Bytes} (h : 5 ∣ prog.length) :
    ∃ vs, convertBits (prog.map BitVec.toNat) 8 5 true = some vs ∧ 5 * vs.length = 8 * prog.length ∧
      (∀ v ∈ vs, v < 32) ∧ ofDigits 32 vs = intBE prog := by
  have hbytes : ∀ v ∈ prog.map BitVec.toNat, v < 2 ^ 8 := by
    simpa using fun (x : Byte) _ => x.isLt
  obtain ⟨⟨hacc, hcount, hvalue, hrange⟩, hlt⟩ := regroup_spec (src := 8) (dst := 5) (by decide) _ hbytes
  unfold convertBits
  generalize (prog.map BitVec.toNat).foldl (regroupStep 8 5) ⟨0, 0, []⟩ = r at hacc hcount hvalue hrange hlt
  rw [List.length_map] at hcount
  have hbits : r.bits = 0 := by omega
  refine ⟨r.out, by simp [hbits], by omega, hrange, ?_⟩
  rw [hbits, pow_zero, Nat.div_one, hacc] at hvalue
  exact hvalue

/-- The data of a 20-byte program: version 0 and 32 values that spell it. -/
theorem bech32Data_eq {prog : Bytes} (h : prog.length = 20) :
    ∃ vs, bech32Data prog = 0 :: vs ∧ vs.length = 32 ∧ (∀ v ∈ vs, v < 32) ∧ ofDigits 32 vs = intBE prog := by
  obtain ⟨vs, hvs, hlen, hlt, hval⟩ := convertBits_of_bytes (prog := prog) (by rw [h]; decide)
  exact ⟨vs, by rw [bech32Data, hvs]; rfl, by omega, hlt, hval⟩

theorem bech32Data_length {prog : Bytes} (h : prog.length = 20) : (bech32Data prog).length = 33 := by
  obtain ⟨vs, hdata, hlen, -, -⟩ := bech32Data_eq h
  rw [hdata, List.length_cons, hlen]

/-- Version, program and checksum are 5-bit values. -/
theorem lt_of_mem_addressData {hrp prog : Bytes} (h : prog.length = 20) {v : Nat}
    (hv : v ∈ bech32Data prog ++ bech32Checksum hrp (bech32Data prog)) : v < 32 := by
  obtain ⟨vs, hdata, -, hlt, -⟩ := bech32Data_eq h
  rcases List.mem_append.1 hv with hv | hv
  · rcases List.mem_cons.1 (hdata ▸ hv) with rfl | hv
    · decide
    · exact hlt v hv
  · exact lt_of_mem_bech32Checksum _ _ hv

theorem map_ofNat_eq_beBytes {ds : List Nat} (h : ∀ d ∈ ds, d < 256) :
    ds.map (BitVec.ofNat 8) = beBytes ds.length (ofDigits 256 ds) := by
  have hback : (ds.map (BitVec.ofNat 8)).map BitVec.toNat = ds := by
    rw [List.map_map]
    exact (List.map_congr_left fun d hd => Nat.mod_eq_of_lt (h d hd)).trans (List.map_id _)
  rw [← beBytes_intBE (ds.map _), intBE, hback, List.length_map]

/-! ### The checks on the data values (R167) -/

/-- The values between the version and the checksum. -/
def programValues (d : List Nat) : List Nat := (d.drop 1).take (d.length - 7)

@[simp] theorem programValues_length (d : List Nat) : (programValues d).length = d.length - 7 := by
  simp [programValues]
  omega

theorem mem_of_mem_programValues {d : List Nat} {v : Nat} (h : v ∈ programValues d) : v ∈ d :=
  List.mem_of_mem_drop (List.mem_of_mem_take h)

theorem programValues_cons_append {v : Nat} {vs cs : List Nat} (h : cs.length = 6) :
    programValues (v :: (vs ++ cs)) = vs := by
  simp [programValues, h]

section Program

variable {hrp : Bytes} {d : List Nat}

theorem bech32Program_of_mismatch (hsum : polymod (hrpExpand hrp ++ d) ≠ 1) :
    bech32Program hrp d = .error .checksumMismatch := if_pos hsum

theorem bech32Program_of_no_version (hsum : polymod (hrpExpand hrp ++ d) = 1) (hlen : d.length < 7) :
    bech32Program hrp d = .error .invalidWitnessProgram := by
  rw [bech32Program, if_neg (not_not.2 hsum), if_pos hlen]

theorem bech32Program_of_version_ne_zero (hsum : polymod (hrpExpand hrp ++ d) = 1) (hlen : 7 ≤ d.length)
    (hver : d.head? ≠ some 0) : bech32Program hrp d = .error .invalidWitnessProgram := by
  rw [bech32Program, if_neg (not_not.2 hsum), if_neg (by omega), if_pos hver]

/-- The program's size and its number, with the bits left over after its whole bytes: both of R163's failures, then the
length that R167 asks for. -/
theorem bech32Program_of_version_zero (hsum : polymod (hrpExpand hrp ++ d) = 1) (hlen : 7 ≤ d.length)
    (hver : d.head? = some 0) (hd : ∀ v ∈ d, v < 32) :
    let size := 5 * (d.length - 7)
    let value := ofDigits 32 (programValues d)
    (5 ≤ size % 8 ∨ value % 2 ^ (size % 8) ≠ 0 → bech32Program hrp d = .error .invalidWitnessProgram) ∧
    (size % 8 < 5 → value % 2 ^ (size % 8) = 0 → bech32Program hrp d =
      if size / 8 = 20 then .ok (beBytes 20 (value / 2 ^ (size % 8))) else .error .invalidWitnessProgram) := by
  have checks : bech32Program hrp d =
      match convertBits (programValues d) 5 8 false with
      | none => .error .invalidWitnessProgram
      | some prog =>
        if prog.length ≠ 20 then .error .invalidWitnessProgram else .ok (prog.map (BitVec.ofNat 8)) := by
    rw [bech32Program, if_neg (not_not.2 hsum), if_neg (by omega), if_neg (not_not.2 hver)]
    rfl
  obtain ⟨hnone, hsome⟩ := convertBits_to_bytes (programValues d) fun v hv => hd v (mem_of_mem_programValues hv)
  rw [programValues_length] at hnone hsome
  refine ⟨fun hbad => by rw [checks, hnone hbad], fun hbits hzero => ?_⟩
  obtain ⟨out, hout, houtLen, hrange, hvalue⟩ := hsome hbits hzero
  rw [checks, hout, ← houtLen]
  by_cases h20 : out.length = 20
  · simp [h20, map_ofNat_eq_beBytes hrange, hvalue]
  · simp [h20]

/-- R167: a decoded program has 20 bytes. -/
theorem bech32Program_length {prog : Bytes} (h : bech32Program hrp d = .ok prog) : prog.length = 20 := by
  unfold bech32Program at h
  repeat' split at h
  all_goals cases h
  next hlen => simpa using hlen

/-- The values of a 20-byte program, with their checksum, give the program back. -/
theorem bech32Program_bech32Data {prog : Bytes} (h : prog.length = 20) :
    bech32Program hrp (bech32Data prog ++ bech32Checksum hrp (bech32Data prog)) = .ok prog := by
  have hsum := polymod_bech32Checksum hrp (bech32Data prog)
  have hd : ∀ v ∈ bech32Data prog ++ bech32Checksum hrp (bech32Data prog), v < 32 := fun _ => lt_of_mem_addressData h
  have hlen : (bech32Data prog ++ bech32Checksum hrp (bech32Data prog)).length = 39 := by simp [bech32Data_length h]
  obtain ⟨vs, hdata, -, -, hvalue⟩ := bech32Data_eq h
  have hver : (bech32Data prog ++ bech32Checksum hrp (bech32Data prog)).head? = some 0 := by simp [hdata]
  have hvals : programValues (bech32Data prog ++ bech32Checksum hrp (bech32Data prog)) = vs := by
    rw [hdata]
    exact programValues_cons_append rfl
  obtain ⟨-, hprog⟩ := bech32Program_of_version_zero hsum (by omega) hver hd
  rw [hvals, hlen, hvalue] at hprog
  have hback : beBytes 20 (intBE prog) = prog := h ▸ beBytes_intBE prog
  simpa [hback, Nat.mod_one] using hprog

end Program

/-! ### Letter case (R167) -/

/-- The upper case of a character. -/
def toUpperByte (c : Byte) : Byte := if 0x61 ≤ c.toNat ∧ c.toNat ≤ 0x7A then c - 0x20 else c

theorem toLowerByte_eq (c : Byte) : toLowerByte c = if 0x41 ≤ c.toNat ∧ c.toNat ≤ 0x5A then c + 0x20 else c := by
  simp [toLowerByte, isUpper]

theorem toUpperByte_printable :
    ∀ c : Byte, (toUpperByte c).toNat < 0x21 ∨ 0x7E < (toUpperByte c).toNat ↔ c.toNat < 0x21 ∨ 0x7E < c.toNat := by
  decide

theorem not_isLower_toUpperByte : ∀ c : Byte, isLower (toUpperByte c) = false := by decide

theorem toLowerByte_toUpperByte : ∀ c : Byte, toLowerByte (toUpperByte c) = toLowerByte c := by decide

/-- A text in one case decodes like its upper-case form. -/
theorem bech32DecodeText_map_toUpperByte (h : Bytes) {b : Bytes} (hb : ∀ c ∈ b, isUpper c = false) :
    bech32DecodeText h (b.map toUpperByte) = bech32DecodeText h b := by
  have hprintable : (b.map toUpperByte).any (fun c => decide (c.toNat < 0x21 ∨ c.toNat > 0x7E)) =
      b.any fun c => decide (c.toNat < 0x21 ∨ c.toNat > 0x7E) := by
    simp only [List.any_map, Function.comp_def, gt_iff_lt, toUpperByte_printable]
  have hlower : (b.map toUpperByte).any isLower = false := by simp [not_isLower_toUpperByte]
  have hupper : b.any isUpper = false := List.any_eq_false.2 fun c hc => by simp [hb c hc]
  have hfold : (b.map toUpperByte).map toLowerByte = b.map toLowerByte := by simp [toLowerByte_toUpperByte]
  simp only [bech32DecodeText, List.length_map, hprintable, hlower, hupper, hfold, Bool.false_and, Bool.and_false]

/-! ### The text of an address (R164) -/

/-- The two chains have different human-readable parts (R165). -/
theorem hrpOf_injective : ∀ {c c' : Chain}, hrpOf c = hrpOf c' → c = c'
  | .btc, .btc, _ | .ltc, .ltc, _ => rfl
  | .btc, .ltc, h | .ltc, .btc, h => absurd h (by decide)

section AddressText

variable {prog : Bytes} (hprog : prog.length = 20)

include hprog

/-- A separator, 33 data characters and six of the checksum after the human-readable part. -/
theorem bech32EncodeText_length (h : Bytes) : (bech32EncodeText h prog).length = h.length + 40 := by
  simp [bech32EncodeText, bech32Data_length hprog]

/-- An address is printable and in lower case. -/
theorem printable_of_mem_bech32EncodeText (ch : Chain) {c : Byte} (hc : c ∈ bech32EncodeText (hrpOf ch) prog) :
    (0x21 ≤ c.toNat ∧ c.toNat ≤ 0x7E) ∧ isUpper c = false := by
  have hdata : ∀ v < 32,
      (0x21 ≤ (bech32Char v).toNat ∧ (bech32Char v).toNat ≤ 0x7E) ∧ isUpper (bech32Char v) = false := by decide
  have hhrp : ∀ c ∈ hrpOf ch ++ [bech32Sep], (0x21 ≤ c.toNat ∧ c.toNat ≤ 0x7E) ∧ isUpper c = false := by
    cases ch <;> decide
  rcases List.mem_append.1 hc with hc | hc
  · exact hhrp c hc
  · obtain ⟨v, hv, rfl⟩ := List.mem_map.1 hc
    exact hdata v (lt_of_mem_addressData hprog hv)

/-- R167 on an address: its own human-readable part gives the program back, any other is refused. -/
theorem bech32DecodeText_bech32EncodeText (h : Bytes) (ch : Chain) :
    bech32DecodeText h (bech32EncodeText (hrpOf ch) prog) =
      if hrpOf ch ≠ h then .error .unsupportedPrefix else .ok prog := by
  have hchars (c : Byte) := printable_of_mem_bech32EncodeText hprog ch (c := c)
  have hlen := bech32EncodeText_length hprog (hrpOf ch)
  have hhrp : 0 < (hrpOf ch).length ∧ (hrpOf ch).length ≤ 3 := by cases ch <;> decide
  have hlower : (bech32EncodeText (hrpOf ch) prog).map toLowerByte = bech32EncodeText (hrpOf ch) prog :=
    (List.map_congr_left fun c hc => by simp [toLowerByte, (hchars c hc).2]).trans (List.map_id _)
  have hupper : (bech32EncodeText (hrpOf ch) prog).any isUpper = false :=
    List.any_eq_false.2 fun c hc => by simp [(hchars c hc).2]
  rw [bech32DecodeText_split (pre := hrpOf ch) (d := bech32Data prog ++ bech32Checksum (hrpOf ch) (bech32Data prog))
    (by omega) (by omega) (fun c hc => (hchars c hc).1) (by rw [hupper, Bool.and_false])
    (fun _ => lt_of_mem_addressData hprog) (by rw [hlower]; simp [bech32EncodeText]) (List.ne_nil_of_length_pos hhrp.1)
    (by simp), bech32Program_bech32Data hprog]

end AddressText

/-! ### Malformed texts (R167) -/

section Malformed

variable {h b : Bytes}

theorem bech32DecodeText_of_length (hlen : b.length < 8 ∨ 90 < b.length) :
    bech32DecodeText h b = .error .malformedEncoding := if_pos hlen

/-- Where the parse of the text in lower case is malformed, so is the text, whichever check comes first. -/
theorem bech32DecodeText_of_parse (hparse : bech32Parse h (b.map toLowerByte) = .error .malformedEncoding) :
    bech32DecodeText h b = .error .malformedEncoding := by
  simp only [bech32DecodeText, hparse, ite_self]

theorem bech32DecodeText_of_not_printable (hc : ∃ c ∈ b, c.toNat < 0x21 ∨ 0x7E < c.toNat) :
    bech32DecodeText h b = .error .malformedEncoding := by
  have hany : b.any (fun c => decide (c.toNat < 0x21 ∨ c.toNat > 0x7E)) = true := by simpa using hc
  rw [bech32DecodeText, if_pos hany, ite_self]

theorem bech32DecodeText_of_mixed_case (hlower : ∃ c ∈ b, 0x61 ≤ c.toNat ∧ c.toNat ≤ 0x7A)
    (hupper : ∃ c ∈ b, 0x41 ≤ c.toNat ∧ c.toNat ≤ 0x5A) : bech32DecodeText h b = .error .malformedEncoding := by
  have hmixed : (b.any isLower && b.any isUpper) = true := by simpa [isLower, isUpper] using ⟨hlower, hupper⟩
  rw [bech32DecodeText, if_pos hmixed, ite_self, ite_self]

theorem bech32Sep_not_mem_map_toLowerByte (hb : bech32Sep ∉ b) : bech32Sep ∉ b.map toLowerByte := by
  simpa [toLowerByte_eq_sep] using hb

theorem bech32DecodeText_of_no_separator (hb : bech32Sep ∉ b) : bech32DecodeText h b = .error .malformedEncoding := by
  refine bech32DecodeText_of_parse ?_
  rw [bech32Parse, lastSep_eq_none (bech32Sep_not_mem_map_toLowerByte hb)]

/-- The last separator with nothing before it, too little after it, or a character that has no value. -/
theorem bech32DecodeText_of_bad_split {pre rest : Bytes} (hb : b = pre ++ bech32Sep :: rest) (hrest : bech32Sep ∉ rest)
    (hbad : pre = [] ∨ rest.length < 6 ∨ ∃ c ∈ rest, toLowerByte c ∉ bech32Alphabet) :
    bech32DecodeText h b = .error .malformedEncoding := by
  refine bech32DecodeText_of_parse ?_
  have hsep : toLowerByte bech32Sep = bech32Sep := toLowerByte_eq_sep.2 rfl
  rw [hb, List.map_append, List.map_cons, hsep, bech32Parse_append h _ (bech32Sep_not_mem_map_toLowerByte hrest)]
  simp only [List.map_eq_nil_iff, List.length_map]
  by_cases hshort : pre = [] ∨ rest.length < 6
  · rw [if_pos hshort]
  · have hout : ∃ c ∈ rest.map toLowerByte, c ∉ bech32Alphabet := by
      rcases hbad with hpre | hlen | ⟨c, hc, hout⟩
      · exact absurd (.inl hpre) hshort
      · exact absurd (.inr hlen) hshort
      · exact ⟨_, List.mem_map_of_mem hc, hout⟩
    rw [if_neg hshort, bech32Values_of_not_mem hout]

/-- R167: what decodes has 20 bytes. -/
theorem bech32DecodeText_length {prog : Bytes} (hok : bech32DecodeText h b = .ok prog) : prog.length = 20 := by
  unfold bech32DecodeText bech32Parse at hok
  repeat' split at hok
  all_goals first | exact bech32Program_length hok | cases hok

end Malformed

/-! ### The commands' runs (R166, R168) -/

section Runs

variable {s : State} {ch : ChSel} {c : Chain} (hch : ch.chain? = some c) (hf : s.fits 1)

include hch

theorem exec_bech32Encode : exec (.bech32Encode ch) s = ran s .codec 1 (bech32EncodeRule c (s.opnd 0)) := by
  change execBech32Encode ch s = _
  rw [execBech32Encode, hch]

theorem exec_bech32Decode : exec (.bech32Decode ch) s = ran s .codec 1 (bech32DecodeRule c (s.opnd 0)) := by
  change execBech32Decode ch s = _
  rw [execBech32Decode, hch]

include hf

theorem bech32Encode_succeeds (hp : s.params.wf) (h : (s.opnd 0).length = 20) :
    Succeeds (.bech32Encode ch) s [(0, bech32EncodeText (hrpOf c) (s.opnd 0))] ResultReg.zero := by
  have hlen := bech32EncodeText_length h (hrpOf c)
  have hhrp : (hrpOf c).length ≤ 3 := by cases c <;> decide
  obtain ⟨-, -, hmin, -⟩ := hp
  exact Succeeds.of_run_single (exec_bech32Encode hch) (by decide) hf (if_neg (not_not.2 h)) (by omega)

theorem bech32Encode_fails (h : (s.opnd 0).length ≠ 20) : Fails (.bech32Encode ch) s .invalidWitnessProgram .codec :=
  Fails.of_run (exec_bech32Encode hch) (by decide) hf (if_pos h)

theorem bech32Decode_succeeds (hp : s.params.wf) {prog : Bytes} (h : bech32DecodeText (hrpOf c) (s.opnd 0) = .ok prog) :
    Succeeds (.bech32Decode ch) s [(0, prog)] ResultReg.zero := by
  have hlen := bech32DecodeText_length h
  obtain ⟨-, -, hmin, -⟩ := hp
  exact Succeeds.of_run_single (exec_bech32Decode hch) (by decide) hf (by rw [bech32DecodeRule, h]; rfl) (by omega)

theorem bech32Decode_fails {e : ErrCode} (h : bech32DecodeText (hrpOf c) (s.opnd 0) = .error e) :
    Fails (.bech32Decode ch) s e .codec :=
  Fails.of_run (exec_bech32Decode hch) (by decide) hf (by rw [bech32DecodeRule, h])

end Runs

end Sys2Proof.Machine

/-!
OBLIGATIONS. The statements about Bech32.
-/

namespace Sys2Proof.Machine

/-- Settles O42: the checksum of the encoder brings polymod to 1, and regrouping the values gives the bytes back. -/
theorem bech32RoundTrip : Obligations.Bech32RoundTrip := by
  intro prog hprog ch
  have hlower (c : Byte) (hc : c ∈ bech32EncodeText (hrpOf ch) prog) : isUpper c = false :=
    (printable_of_mem_bech32EncodeText hprog ch hc).2
  have hown : bech32DecodeText (hrpOf ch) (bech32EncodeText (hrpOf ch) prog) = .ok prog := by
    rw [bech32DecodeText_bech32EncodeText hprog, if_neg (not_not.2 rfl)]
  refine ⟨hown, (bech32DecodeText_map_toUpperByte _ hlower).trans hown, fun other hother => ?_⟩
  rw [bech32DecodeText_bech32EncodeText hprog, if_pos fun he => hother (hrpOf_injective he).symm]

/-- Settles O40: a 20-byte program gives its address, which fits every OBUF of R12; each other length is refused. -/
theorem bech32EncodeCommand : Obligations.Bech32EncodeCommand := by
  intro s hp hf
  refine ⟨fun h => ?_, fun h => ?_⟩
  · exact ⟨bech32Encode_succeeds (c := .btc) rfl hf hp h, bech32Encode_succeeds (c := .ltc) rfl hf hp h,
      bech32EncodeText_length h _, bech32EncodeText_length h _⟩
  · exact ⟨bech32Encode_fails (c := .btc) rfl hf h, bech32Encode_fails (c := .ltc) rfl hf h⟩

/-- Settles O41: each clause of R167 has its lemma about the decoding, and the run reports what the decoding gives. -/
theorem bech32DecodeCommand : Obligations.Bech32DecodeCommand := by
  refine ⟨fun s ch hrp expanded hchain hp hf => ?_, rfl, fun values v => ?_⟩
  · obtain ⟨c, hch, rfl, rfl⟩ : ∃ c, ch.chain? = some c ∧ hrp = hrpOf c ∧ expanded = hrpExpand (hrpOf c) := by
      rcases hchain with ⟨rfl, rfl, rfl⟩ | ⟨rfl, rfl, rfl⟩
      · exact ⟨.btc, rfl, rfl, by decide⟩
      · exact ⟨.ltc, rfl, rfl, by decide⟩
    intro b alphabet lower
    have hlower : lower = toLowerByte := funext fun c => (toLowerByte_eq c).symm
    rw [hlower]
    have fails {e : ErrCode} (h : bech32DecodeText (hrpOf c) b = .error e) : Fails (.bech32Decode ch) s e .codec :=
      bech32Decode_fails hch hf h
    refine ⟨fun prog h => ⟨bech32DecodeText_length h, bech32Decode_succeeds hch hf hp h⟩, fun e h => fails h,
      fun h => fails (bech32DecodeText_of_length h), fun h => fails (bech32DecodeText_of_not_printable h),
      fun hl hu => fails (bech32DecodeText_of_mixed_case hl hu), fun h => fails (bech32DecodeText_of_no_separator h),
      fun pre rest hb hrest hbad => fails (bech32DecodeText_of_bad_split hb hrest hbad),
      fun pre d hmin hmax hrange hcase hd hsplit hpre hsix => ?_⟩
    have hone : (b.any isLower && b.any isUpper) = false := by
      simp only [Bool.and_eq_false_iff, List.any_eq_false, isLower, isUpper, decide_eq_true_eq]
      exact hcase
    have htext : bech32DecodeText (hrpOf c) b =
        if pre ≠ hrpOf c then .error .unsupportedPrefix else bech32Program pre d :=
      bech32DecodeText_split hmin hmax hrange hone hd hsplit hpre hsix
    refine ⟨fun hne => fails (htext.trans (if_pos hne)), ?_, ?_⟩
    · rintro rfl hsum
      exact fails ((htext.trans (if_neg (not_not.2 rfl))).trans (bech32Program_of_mismatch hsum))
    · rintro rfl hsum
      replace htext := htext.trans (if_neg (not_not.2 rfl))
      refine ⟨fun h6 => fails (htext.trans (bech32Program_of_no_version hsum (by omega))),
        fun h7 hver => fails (htext.trans (bech32Program_of_version_ne_zero hsum h7 hver)), fun h7 hver => ?_⟩
      obtain ⟨hbad, hgood⟩ := bech32Program_of_version_zero hsum h7 hver hd
      exact ⟨fun h => fails (htext.trans (hbad h)),
        fun h5 h0 h20 => fails (htext.trans ((hgood h5 h0).trans (if_neg h20))),
        fun h5 h0 h20 => bech32Decode_succeeds hch hf hp (htext.trans ((hgood h5 h0).trans (if_pos h20)))⟩
  · intro c
    rw [polymod_append, polymodStep_eq, polymodTaps]
    ac_rfl

end Sys2Proof.Machine

/-!
SUPPORT. The addition of the model as the group law of Mathlib's elliptic curve y² = x³ + 7 over the field of p elements
(R180 to R183). `ofGroup` spells a point of that group as a point of the model; addition, negation and multiples go
through it, so each law of the points is one of Mathlib's laws.
-/

namespace Sys2Proof.Machine

/-! ### The addition formula in the field (R181, R182) -/

theorem fieldP_gt_two : 2 < fieldP := by decide +kernel

/-- A number in [1, p − 1] is not 0 in the field. -/
theorem cast_ne_zero_of_lt {a : Nat} (h0 : 0 < a) (h : a < fieldP) : (a : ZMod fieldP) ≠ 0 := fun hz =>
  Nat.not_dvd_of_pos_of_lt h0 h ((ZMod.natCast_eq_zero_iff _ _).1 hz)

theorem pointAdd_affine_opposite {x1 y1 x2 y2 : Nat} (h : x1 = x2 ∧ (y1 + y2) % fieldP = 0) :
    pointAdd (.affine x1 y1) (.affine x2 y2) = .infinity := if_pos h

theorem pointAdd_affine {x1 y1 x2 y2 : Nat} (h : ¬ (x1 = x2 ∧ (y1 + y2) % fieldP = 0)) :
    pointAdd (.affine x1 y1) (.affine x2 y2) = chord (slope x1 y1 x2 y2) x1 y1 x2 := if_neg h

section CurveGroup

variable [Fact fieldP.Prime]

/-- R182: no point of the group has y = 0. -/
theorem cast_y_ne_zero_of_onCurve {x y : Nat} (h : (Point.affine x y).onCurve = true) : (y : ZMod fieldP) ≠ 0 := by
  obtain ⟨-, -, hsq⟩ := Point.onCurve_affine.1 h
  intro hy
  rw [ZMod.natCast_eq_zero_iff] at hy
  exact curveRhs_ne_zero x (hsq ▸ Nat.mod_eq_zero_of_dvd (hy.mul_right y))

/-- Opposite points, as R181 tests for them and in the field. -/
theorem opposite_iff_cast {y1 y2 : Nat} : (y1 + y2) % fieldP = 0 ↔ (y1 : ZMod fieldP) = -y2 := by
  rw [eq_neg_iff_add_eq_zero, ← Nat.cast_add, ZMod.natCast_eq_zero_iff, Nat.dvd_iff_mod_eq_zero]

theorem cast_slope_tangent (x y1 y2 : Nat) :
    (slope x y1 x y2 : ZMod fieldP) = 3 * (x : ZMod fieldP) ^ 2 / (2 * y1) := by
  rw [slope, if_pos rfl, ZMod.natCast_mod, Nat.cast_mul, cast_invMod fieldP_prime fieldP_gt_two, div_eq_mul_inv]
  push_cast
  rfl

theorem cast_slope_chord {x1 x2 : Nat} (h : x1 ≠ x2) (y1 y2 : Nat) :
    (slope x1 y1 x2 y2 : ZMod fieldP) = ((y2 : ZMod fieldP) - y1) / (x2 - x1) := by
  rw [slope, if_neg h, ZMod.natCast_mod, Nat.cast_mul, cast_invMod fieldP_prime fieldP_gt_two, cast_subMod fieldP_pos,
    cast_subMod fieldP_pos, div_eq_mul_inv]

/-- The last lines of R181 in the field. -/
theorem chord_affine (l x1 y1 x2 : Nat) :
    ∃ x3 y3 : Nat, chord l x1 y1 x2 = .affine x3 y3 ∧ x3 < fieldP ∧ y3 < fieldP ∧
      (x3 : ZMod fieldP) = (l : ZMod fieldP) ^ 2 - x1 - x2 ∧
      (y3 : ZMod fieldP) = l * ((x1 : ZMod fieldP) - x3) - y1 := by
  refine ⟨_, _, rfl, subMod_lt fieldP_pos _ _, subMod_lt fieldP_pos _ _, ?_, ?_⟩
  · rw [cast_subMod fieldP_pos]
    push_cast
    ring
  · rw [cast_subMod fieldP_pos, Nat.cast_mul, cast_subMod fieldP_pos x1]

/-! ### The curve as Mathlib's (R4, R21) -/

/-- The curve y² = x³ + 7 over the field of p elements (R4). -/
def secpCurve : WeierstrassCurve.Affine (ZMod fieldP) where
  a₁ := 0
  a₂ := 0
  a₃ := 0
  a₄ := 0
  a₆ := 7

/-- The discriminant −432·7² is not 0 modulo p, so every solution of the equation is a point of Mathlib's group. -/
theorem secpCurve_nonsingular_iff {x y : ZMod fieldP} : secpCurve.Nonsingular x y ↔ y ^ 2 = x ^ 3 + 7 := by
  have hdisc : secpCurve.Δ = -((21168 : Nat) : ZMod fieldP) := by
    simp only [WeierstrassCurve.Δ, WeierstrassCurve.b₂, WeierstrassCurve.b₄, WeierstrassCurve.b₆, WeierstrassCurve.b₈,
      secpCurve]
    push_cast
    ring
  have hne : secpCurve.Δ ≠ 0 := hdisc ▸ neg_ne_zero.2 (cast_ne_zero_of_lt (by decide) (by decide +kernel))
  rw [← WeierstrassCurve.Affine.equation_iff_nonsingular_of_Δ_ne_zero hne, WeierstrassCurve.Affine.equation_iff]
  simp [secpCurve]

theorem secpCurve_negY (x y : ZMod fieldP) : secpCurve.negY x y = -y := by simp [secpCurve]

theorem secpCurve_addX (x1 x2 l : ZMod fieldP) : secpCurve.addX x1 x2 l = l ^ 2 - x1 - x2 := by simp [secpCurve]

theorem secpCurve_addY (x1 x2 y1 l : ZMod fieldP) :
    secpCurve.addY x1 x2 y1 l = l * (x1 - secpCurve.addX x1 x2 l) - y1 := by
  rw [WeierstrassCurve.Affine.addY, secpCurve_negY, WeierstrassCurve.Affine.negAddY]
  ring

/-- A point of Mathlib's group in the model's coordinates, which are reduced (R21). -/
def ofGroup : secpCurve.Point → Point
  | .zero => .infinity
  | .some x y _ => .affine x.val y.val

@[simp] theorem ofGroup_zero : ofGroup 0 = .infinity := rfl

@[simp] theorem ofGroup_some {x y : ZMod fieldP} (h : secpCurve.Nonsingular x y) :
    ofGroup (.some x y h) = .affine x.val y.val := rfl

/-- Reduced coordinates are those of a point of Mathlib's group when they have its values in the field. -/
theorem affine_eq_ofGroup {x y : Nat} {X Y : ZMod fieldP} (hx : x < fieldP) (hy : y < fieldP)
    (hX : (x : ZMod fieldP) = X) (hY : (y : ZMod fieldP) = Y) (h : secpCurve.Nonsingular X Y) :
    Point.affine x y = ofGroup (.some X Y h) := by
  subst hX hY
  rw [ofGroup, ZMod.val_cast_of_lt hx, ZMod.val_cast_of_lt hy]

/-- The points of the model's group are those of Mathlib's. -/
theorem onCurve_iff_exists_ofGroup {p : Point} : p.onCurve = true ↔ ∃ P, p = ofGroup P := by
  constructor
  · intro h
    cases p with
    | infinity => exact ⟨0, rfl⟩
    | affine x y =>
      obtain ⟨hx, hy, hsq⟩ := Point.onCurve_affine.1 h
      exact ⟨_, affine_eq_ofGroup hx hy rfl rfl (secpCurve_nonsingular_iff.2 (onCurve_iff_cast.1 hsq))⟩
  · rintro ⟨P, rfl⟩
    cases P with
    | zero => rfl
    | some x y h =>
      refine Point.onCurve_affine.2 ⟨ZMod.val_lt x, ZMod.val_lt y, onCurve_iff_cast.2 ?_⟩
      rw [ZMod.natCast_zmod_val, ZMod.natCast_zmod_val]
      exact secpCurve_nonsingular_iff.1 h

/-! ### The operations of the group (R181 to R183) -/

theorem opposite_val_iff {x1 y1 x2 y2 : ZMod fieldP} :
    x1.val = x2.val ∧ (y1.val + y2.val) % fieldP = 0 ↔ x1 = x2 ∧ y1 = secpCurve.negY x2 y2 := by
  rw [opposite_iff_cast, ZMod.natCast_zmod_val, ZMod.natCast_zmod_val, (ZMod.val_injective fieldP).eq_iff,
    secpCurve_negY]

/-- The slope of R181 is Mathlib's. -/
theorem cast_slope_val {x1 y1 x2 y2 : ZMod fieldP} (h : ¬ (x1 = x2 ∧ y1 = secpCurve.negY x2 y2)) :
    (slope x1.val y1.val x2.val y2.val : ZMod fieldP) = secpCurve.slope x1 x2 y1 y2 := by
  by_cases hx : x1 = x2
  · subst hx
    rw [cast_slope_tangent, WeierstrassCurve.Affine.slope_of_Y_ne rfl fun hy => h ⟨rfl, hy⟩]
    simp [secpCurve, two_mul]
  · rw [cast_slope_chord fun hval => hx (ZMod.val_injective fieldP hval),
      WeierstrassCurve.Affine.slope_of_X_ne hx, ← neg_div_neg_eq (y1 - y2), neg_sub, neg_sub]
    simp only [ZMod.natCast_zmod_val]

theorem ofGroup_add (P Q : secpCurve.Point) : ofGroup (P + Q) = pointAdd (ofGroup P) (ofGroup Q) := by
  cases P with
  | zero => exact congrArg ofGroup (zero_add Q)
  | some x1 y1 h1 =>
    cases Q with
    | zero => rfl
    | some x2 y2 h2 =>
      by_cases hopp : x1 = x2 ∧ y1 = secpCurve.negY x2 y2
      · rw [WeierstrassCurve.Affine.Point.add_of_Y_eq hopp.1 hopp.2]
        exact (pointAdd_affine_opposite (opposite_val_iff.2 hopp)).symm
      · obtain ⟨x3, y3, hchord, hx3, hy3, hX, hY⟩ :=
          chord_affine (slope x1.val y1.val x2.val y2.val) x1.val y1.val x2.val
        simp only [cast_slope_val hopp, ZMod.natCast_zmod_val] at hX hY
        rw [WeierstrassCurve.Affine.Point.add_some hopp, ofGroup_some h1, ofGroup_some h2,
          pointAdd_affine (opposite_val_iff.not.2 hopp), hchord]
        rw [← secpCurve_addX] at hX
        rw [hX, ← secpCurve_addY] at hY
        exact (affine_eq_ofGroup hx3 hy3 hX hY _).symm

theorem ofGroup_neg (P : secpCurve.Point) : ofGroup (-P) = pointNeg (ofGroup P) := by
  cases P with
  | zero => rfl
  | some x y h =>
    refine (affine_eq_ofGroup (ZMod.val_lt x) (Nat.mod_lt _ fieldP_pos) (ZMod.natCast_zmod_val x) ?_ _).symm
    rw [ZMod.natCast_mod, Nat.cast_sub (ZMod.val_lt y).le, ZMod.natCast_self, ZMod.natCast_zmod_val, zero_sub,
      secpCurve_negY]

theorem pointMulAux_ofGroup (fuel k : Nat) (P A : secpCurve.Point) (hk : k < 2 ^ fuel) :
    pointMulAux fuel k (ofGroup P) (ofGroup A) = ofGroup (A + k • P) := by
  induction fuel generalizing k P A with
  | zero =>
    obtain rfl : k = 0 := by simpa using hk
    rw [zero_nsmul, add_zero]
    rfl
  | succ fuel ih =>
    have hhalf : k / 2 < 2 ^ fuel := by rw [pow_succ] at hk; omega
    rw [pointMulAux, ← ofGroup_add, ← ofGroup_add]
    by_cases h0 : k = 0
    · rw [if_pos h0, h0, zero_nsmul, add_zero]
    by_cases hodd : k % 2 = 1
    · rw [if_neg h0, if_pos hodd, ih _ _ _ hhalf, ← two_nsmul, ← mul_nsmul, add_assoc, ← succ_nsmul',
        show 2 * (k / 2) + 1 = k by omega]
    · rw [if_neg h0, if_neg hodd, ih _ _ _ hhalf, ← two_nsmul, ← mul_nsmul, show 2 * (k / 2) = k by omega]

theorem pointMul_ofGroup (k : Nat) (P : secpCurve.Point) : pointMul k (ofGroup P) = ofGroup (k • P) := by
  rw [pointMul, ← ofGroup_zero, pointMulAux_ofGroup _ _ _ _ Nat.lt_log2_self, zero_add]

theorem pointMulRepeated_ofGroup (k : Nat) (P : secpCurve.Point) :
    pointMulRepeated k (ofGroup P) = ofGroup (k • P) := by
  induction k with
  | zero => rw [zero_nsmul]; rfl
  | succ k ih => rw [pointMulRepeated, ih, ← ofGroup_add, succ_nsmul]

end CurveGroup

end Sys2Proof.Machine

/-!
SUPPORT. The rules of the point and field commands (R185 to R190), an equation per outcome, and the run that ends in
`out_point` (R128).
-/

namespace Sys2Proof.Machine

/-! ### Point results (R127, R128) -/

theorem ser_length_le (p : Point) (c : Bool) : (ser p c).length ≤ 65 := by
  cases p with
  | infinity => exact Nat.le_of_ble_eq_true rfl
  | affine x y => cases c <;> simp [ser, serXY]

theorem Point.isInfinity_eq (p : Point) : p.isInfinity = decide (p = .infinity) := by
  cases p <;> simp [Point.isInfinity]

/-- The tag byte of the compressed form (R127). -/
theorem ser_compressed (x y : Nat) :
    ser (.affine x y) true = (if y % 2 = 0 then 0x02 else 0x03) :: beBytes 32 x := by
  change BitVec.ofNat 8 (2 + y % 2) :: beBytes 32 x = _
  rcases Nat.mod_two_eq_zero_or_one y with h | h <;> rw [h] <;> rfl

section Runs

variable {i : Instr} {s : State} {st : Stage} {m : Nat} {r : Except ErrCode Output}

/-- A framed run that emits a serialised point succeeds: it fits every OBUF of R12. -/
theorem Succeeds.of_run_ser (h : exec i s = ran s st m r) (hm : m ≤ 3) (hp : s.params.wf) (hf : s.fits m) {p : Point}
    {c : Bool} {res : ResultReg} (hr : r = .ok ⟨[(0, ser p c)], res⟩) : Succeeds i s [(0, ser p c)] res := by
  obtain ⟨-, -, hmin, -⟩ := hp
  have hlen := ser_length_le p c
  exact Succeeds.of_run_single h hm hf hr (by omega)

/-- R128: a framed run whose rule ends in out_point succeeds with the form `c` of the point and INF. -/
theorem Succeeds.of_run_outPoint (h : exec i s = ran s st m r) (hm : m ≤ 3) (hp : s.params.wf) (hf : s.fits m)
    {p : Point} {c : Bool} (hr : r = .ok (outPoint p c)) :
    Succeeds i s [(0, ser p c)] { ResultReg.zero with inf := decide (p = .infinity) } :=
  Succeeds.of_run_ser h hm hp hf (by rw [hr, outPoint, Point.isInfinity_eq])

/-- A framed run that emits 32 bytes succeeds: they fit every OBUF of R12. -/
theorem Succeeds.of_run_be32 (h : exec i s = ran s st m r) (hm : m ≤ 3) (hp : s.params.wf) (hf : s.fits m) {v : Nat}
    (hr : r = emit0 (beBytes 32 v)) : Succeeds i s [(0, beBytes 32 v)] ResultReg.zero := by
  obtain ⟨-, -, hmin, -⟩ := hp
  exact Succeeds.of_run_single h hm hf hr (by rw [beBytes_length]; omega)

end Runs

/-! ### The rules of the commands on points (R185 to R188) -/

section PointRules

variable {a b : Bytes} {c : Bool} {e : ErrCode} {p q : Point} {rp : Except ErrCode Point}

theorem compressRule_ok (h : parsePoint b false = .ok p) : compressRule b = emit0 (ser p true) := by
  rw [compressRule, h]

theorem compressRule_error (h : parsePoint b false = .error e) : compressRule b = .error e := by
  rw [compressRule, h]

theorem decompressRule_ok (h : parsePoint b false = .ok p) : decompressRule b = emit0 (ser p false) := by
  rw [decompressRule, h]

theorem decompressRule_error (h : parsePoint b false = .error e) : decompressRule b = .error e := by
  rw [decompressRule, h]

theorem scalar32_of_length (h : b.length = 32) : scalar32 b = .ok (intBE b) := if_pos h

theorem scalar32_of_length_ne (h : b.length ≠ 32) : scalar32 b = .error .invalidLength := if_neg h

theorem scalarMultRule_ok (h : a.length = 32) (hp : rp = .ok p) :
    scalarMultRule c a rp = .ok (outPoint (pointMul (intBE a) p) c) := by
  rw [scalarMultRule, scalar32_of_length h, hp]

theorem scalarMultRule_bad_scalar (h : a.length ≠ 32) : scalarMultRule c a rp = .error .invalidLength := by
  rw [scalarMultRule, scalar32_of_length_ne h]

theorem scalarMultRule_bad_point (h : a.length = 32) (hp : rp = .error e) : scalarMultRule c a rp = .error e := by
  rw [scalarMultRule, scalar32_of_length h, hp]

theorem pointAddRule_ok (ha : parsePoint a true = .ok p) (hb : parsePoint b true = .ok q) :
    pointAddRule c a b = .ok (outPoint (pointAdd p q) c) := by
  rw [pointAddRule, ha, hb]

theorem pointAddRule_bad_first (ha : parsePoint a true = .error e) : pointAddRule c a b = .error e := by
  rw [pointAddRule, ha]

theorem pointAddRule_bad_second (ha : parsePoint a true = .ok p) (hb : parsePoint b true = .error e) :
    pointAddRule c a b = .error e := by
  rw [pointAddRule, ha, hb]

end PointRules

/-! ### The rules of MOD_SQRT and MOD_INV (R184, R189, R190) -/

section FieldRules

variable {m : Nat} {b : Bytes}

theorem modSqrtRule_bad_length (h : b.length ≠ 32) : modSqrtRule b = .error .invalidLength := by
  rw [modSqrtRule, scalar32_of_length_ne h]

theorem modSqrtRule_of_length (h : b.length = 32) :
    modSqrtRule b =
      if intBE b ≥ fieldP then .error .operandOutOfRange
      else if sqrtP (intBE b) * sqrtP (intBE b) % fieldP ≠ intBE b then .error .notQuadraticResidue
      else emit0 (beBytes 32 (sqrtP (intBE b))) := by
  rw [modSqrtRule, scalar32_of_length h]

theorem modSqrtRule_out_of_range (h : b.length = 32) (hv : fieldP ≤ intBE b) :
    modSqrtRule b = .error .operandOutOfRange := by
  rw [modSqrtRule_of_length h, if_pos hv]

theorem modSqrtRule_nonresidue (h : b.length = 32) (hv : intBE b < fieldP)
    (hsq : sqrtP (intBE b) * sqrtP (intBE b) % fieldP ≠ intBE b) : modSqrtRule b = .error .notQuadraticResidue := by
  rw [modSqrtRule_of_length h, if_neg (not_le.2 hv), if_pos hsq]

theorem modSqrtRule_root (h : b.length = 32) (hv : intBE b < fieldP)
    (hsq : sqrtP (intBE b) * sqrtP (intBE b) % fieldP = intBE b) :
    modSqrtRule b = emit0 (beBytes 32 (sqrtP (intBE b))) := by
  rw [modSqrtRule_of_length h, if_neg (not_le.2 hv), if_neg (not_not.2 hsq)]

/-- The root of R184 as a power of whole numbers. -/
theorem sqrtP_eq (v : Nat) : sqrtP v = v ^ ((fieldP + 1) / 4) % fieldP := powMod_eq fieldP_gt_one _ _

theorem modInvRule_bad_length (h : b.length ≠ 32) : modInvRule m b = .error .invalidLength := by
  rw [modInvRule, scalar32_of_length_ne h]

theorem modInvRule_of_length (h : b.length = 32) :
    modInvRule m b =
      if intBE b ≥ m then .error .operandOutOfRange
      else if intBE b = 0 then .error .notInvertible
      else emit0 (beBytes 32 (invMod m (intBE b))) := by
  rw [modInvRule, scalar32_of_length h]

theorem modInvRule_out_of_range (h : b.length = 32) (ha : m ≤ intBE b) :
    modInvRule m b = .error .operandOutOfRange := by
  rw [modInvRule_of_length h, if_pos ha]

theorem modInvRule_zero (h : b.length = 32) (hm : 0 < m) (ha : intBE b = 0) :
    modInvRule m b = .error .notInvertible := by
  rw [modInvRule_of_length h, if_neg (by omega), if_pos ha]

theorem modInvRule_unit (h : b.length = 32) (h0 : 0 < intBE b) (ha : intBE b < m) :
    modInvRule m b = emit0 (beBytes 32 (invMod m (intBE b))) := by
  rw [modInvRule_of_length h, if_neg (not_le.2 ha), if_neg h0.ne']

theorem orderN_gt_two : 2 < orderN := by decide +kernel

/-- Both moduli of MOD_INV are odd primes (R4, R5, R190). -/
theorem modulusOf_prime_and_gt_two (sub : Bool) : (modulusOf sub).Prime ∧ 2 < modulusOf sub := by
  cases sub with
  | false => exact ⟨fieldP_prime, fieldP_gt_two⟩
  | true => exact ⟨orderN_prime, orderN_gt_two⟩

end FieldRules

end Sys2Proof.Machine

/-!
OBLIGATIONS. The statements about point arithmetic, square root and inverse.
-/

namespace Sys2Proof.Machine

/-- Settles O44: either encoding parses to its point, and both commands serialise what parses. -/
theorem compressDecompress : Obligations.CompressDecompress := by
  intro s hp hf
  have hcompress : exec .compress s = ran s .codec 1 (compressRule (s.opnd 0)) := rfl
  have hdecompress : exec .decompress s = ran s .codec 1 (decompressRule (s.opnd 0)) := rfl
  refine ⟨fun x y henc => ?_, fun e he => ?_⟩
  · have hparse : parsePoint (s.opnd 0) false = .ok (.affine x y) := parsePoint_of_encodesPoint henc nofun
    refine ⟨?_, Succeeds.of_run_ser hdecompress (by decide) hp hf (decompressRule_ok hparse)⟩
    rw [← ser_compressed]
    exact Succeeds.of_run_ser hcompress (by decide) hp hf (compressRule_ok hparse)
  · exact ⟨Fails.of_run hcompress (by decide) hf (compressRule_error he),
      Fails.of_run hdecompress (by decide) hf (decompressRule_error he)⟩

/-- Settles O45: the scalar is read first, then the point, which is G when S = 1; the run ends in out_point. -/
theorem scalarMultCommand : Obligations.ScalarMultCommand := by
  intro s c hp
  have hgen : exec (.scalarMult c true) s = ran s .recovery 1 (scalarMultRule c (s.opnd 0) (.ok genG)) := rfl
  have hpoint : exec (.scalarMult c false) s =
      ran s .recovery 2 (scalarMultRule c (s.opnd 0) (parsePoint (s.opnd 1) true)) := rfl
  refine ⟨fun hf hlen => ?_, fun hf hlen => ?_, fun hf hlen => ?_, fun hf hlen => ⟨fun p henc => ?_, fun e he => ?_⟩⟩
  · exact Succeeds.of_run_outPoint hgen (by decide) hp hf (scalarMultRule_ok hlen rfl)
  · exact Fails.of_run hgen (by decide) hf (scalarMultRule_bad_scalar hlen)
  · exact Fails.of_run hpoint (by decide) hf (scalarMultRule_bad_scalar hlen)
  · have hparse := parsePoint_of_encodesPoint henc fun _ => rfl
    exact Succeeds.of_run_outPoint hpoint (by decide) hp hf (scalarMultRule_ok hlen hparse)
  · exact Fails.of_run hpoint (by decide) hf (scalarMultRule_bad_point hlen he)

/-- Settles O46: the two points are read in order, and the run ends in out_point. -/
theorem pointAddCommand : Obligations.PointAddCommand := by
  intro s c hp hf
  have hrun : exec (.pointAdd c) s = ran s .recovery 2 (pointAddRule c (s.opnd 0) (s.opnd 1)) := rfl
  have hparse {b : Bytes} {p : Point} (henc : EncodesPoint b p) : parsePoint b true = .ok p :=
    parsePoint_of_encodesPoint henc fun _ => rfl
  refine ⟨fun p q hencP hencQ => ?_, fun e he => ?_, fun p e henc he => ?_⟩
  · exact Succeeds.of_run_outPoint hrun (by decide) hp hf (pointAddRule_ok (hparse hencP) (hparse hencQ))
  · exact Fails.of_run hrun (by decide) hf (pointAddRule_bad_first he)
  · exact Fails.of_run hrun (by decide) hf (pointAddRule_bad_second (hparse henc) he)

/-- Settles O47: the slope of R181 solves the equation of the chord, or of the tangent, whose divisor is not 0
(R182). -/
theorem pointAddFormula : Obligations.PointAddFormula := by
  intro x1 y1 x2 y2 h1 h2
  have : Fact fieldP.Prime := ⟨fieldP_prime⟩
  have htwo : (2 : ZMod fieldP) ≠ 0 := cast_ne_zero_of_lt two_pos fieldP_gt_two
  refine ⟨pointAdd_affine_opposite, fun hopp => ?_⟩
  obtain ⟨x3, y3, hchord, hx3, hy3, hX, hY⟩ := chord_affine (slope x1 y1 x2 y2) x1 y1 x2
  refine ⟨x3, y3, (pointAdd_affine hopp).trans hchord, hx3, hy3, _, ?_, fun hx => ?_, hX, hY⟩
  · rintro rfl
    rw [cast_slope_tangent, div_mul_cancel₀ _ (mul_ne_zero htwo (cast_y_ne_zero_of_onCurve h1))]
  · have hne : (x2 : ZMod fieldP) ≠ x1 := fun h =>
      hx (eq_of_cast_eq (Point.onCurve_affine.1 h2).1 (Point.onCurve_affine.1 h1).1 h).symm
    rw [cast_slope_chord hx, div_mul_cancel₀ _ (sub_ne_zero.2 hne)]

/-- Settles O48: the points are those of the group of the elliptic curve, whose laws hold. -/
theorem pointGroupLaws : Obligations.PointGroupLaws := by
  have : Fact fieldP.Prime := ⟨fieldP_prime⟩
  intro p q r hp hq hr
  obtain ⟨P, rfl⟩ := onCurve_iff_exists_ofGroup.1 hp
  obtain ⟨Q, rfl⟩ := onCurve_iff_exists_ofGroup.1 hq
  obtain ⟨R, rfl⟩ := onCurve_iff_exists_ofGroup.1 hr
  simp only [← ofGroup_add, ← ofGroup_neg, ← ofGroup_zero]
  exact ⟨onCurve_iff_exists_ofGroup.2 ⟨_, rfl⟩, by rw [add_comm], by rw [add_assoc], by rw [zero_add],
    by rw [add_zero], onCurve_iff_exists_ofGroup.2 ⟨_, rfl⟩, by rw [add_neg_cancel]⟩

/-- Settles O49: both ways give the multiple k • P of the group. -/
theorem scalarMultIsRepeatedAddition : Obligations.ScalarMultIsRepeatedAddition := by
  have : Fact fieldP.Prime := ⟨fieldP_prime⟩
  intro k p hp
  obtain ⟨P, rfl⟩ := onCurve_iff_exists_ofGroup.1 hp
  rw [pointMul_ofGroup, pointMulRepeated_ofGroup]
  exact ⟨onCurve_iff_exists_ofGroup.2 ⟨_, rfl⟩, rfl⟩

/-- Settles O50: the power of R184 is a root of every square, and the rule tests it. -/
theorem modSqrtCommand : Obligations.ModSqrtCommand := by
  intro s hp hf v
  have hrun : exec .modSqrt s = ran s .recovery 1 (modSqrtRule (s.opnd 0)) := rfl
  refine ⟨fun hlen => ?_, fun hlen hv => ?_, fun hlen hv hnone => ?_, fun hlen hv ⟨y, hy⟩ => ?_⟩
  · exact Fails.of_run hrun (by decide) hf (modSqrtRule_bad_length hlen)
  · exact Fails.of_run hrun (by decide) hf (modSqrtRule_out_of_range hlen hv)
  · exact Fails.of_run hrun (by decide) hf (modSqrtRule_nonresidue hlen hv fun hsq => hnone ⟨_, hsq⟩)
  · have hroot := sqrtP_mul_self_of_root hv hy
    exact ⟨sqrtP v, sqrtP_lt v, hroot, sqrtP_eq v,
      Succeeds.of_run_be32 hrun (by decide) hp hf (modSqrtRule_root hlen hv hroot)⟩

/-- Settles O51: both moduli are prime, so every a in [1, m − 1] has the inverse of R18. -/
theorem modInvCommand : Obligations.ModInvCommand := by
  intro s sub hp hf a m
  have hrun : exec (.modInv sub) s = ran s .recovery 1 (modInvRule m (s.opnd 0)) := rfl
  obtain ⟨hprime, htwo⟩ : m.Prime ∧ 2 < m := modulusOf_prime_and_gt_two sub
  refine ⟨fun hlen => ?_, fun hlen ha => ?_, fun hlen ha => ?_, fun hlen hpos ha => ?_⟩
  · exact Fails.of_run hrun (by decide) hf (modInvRule_bad_length hlen)
  · exact Fails.of_run hrun (by decide) hf (modInvRule_out_of_range hlen ha)
  · exact Fails.of_run hrun (by decide) hf (modInvRule_zero hlen hprime.pos ha)
  · have hunit : a % m ≠ 0 := by rw [Nat.mod_eq_of_lt ha]; exact hpos.ne'
    exact ⟨invMod m a, invMod_lt hprime.one_lt a, invMod_spec hprime htwo hunit,
      Succeeds.of_run_be32 hrun (by decide) hp hf (modInvRule_unit hlen hpos ha)⟩

end Sys2Proof.Machine

/-!
SUPPORT. The WIF key codec (R210 to R215): how many characters a Base58 text has, and the two rules, an equation per
outcome.
-/

namespace Sys2Proof.Machine

/-! ### The length of a Base58 text (R141) -/

/-- A text has one character for each leading zero byte and one for each digit of the number. -/
theorem b58enc_length (b : Bytes) : (b58enc b).length = countLeading 0x00 b + (Nat.digits 58 (intBE b)).length := by
  have hfuel : intBE b < 58 ^ (2 * b.length) := by
    rw [pow_mul]
    exact (intBE_lt b).trans_le (Nat.pow_le_pow_left (by decide) _)
  simp [b58enc, toDigits_eq_natDigits (by decide) hfuel]

theorem countLeading_le_length (c : Byte) (b : Bytes) : countLeading c b ≤ b.length :=
  (List.takeWhile_prefix _).length_le

/-- A text is at most three times as long as its bytes: one for the zeros, two for the digits. -/
theorem b58enc_length_le (b : Bytes) : (b58enc b).length ≤ 3 * b.length := by
  have hdigits : (Nat.digits 58 (intBE b)).length ≤ 2 * b.length := by
    rw [Nat.digits_length_le_iff (by decide), pow_mul]
    exact (intBE_lt b).trans_le (Nat.pow_le_pow_left (by decide) _)
  have hzeros := countLeading_le_length 0x00 b
  rw [b58enc_length]
  omega

theorem countLeading_zero_cons {q : Byte} (hq : q ≠ 0) (rest : Bytes) : countLeading 0x00 (q :: rest) = 0 := by
  rw [countLeading, List.takeWhile_cons_of_neg (by simpa using hq), List.length_nil]

/-- The number of a byte string lies between q and q + 1 times the weight of its first byte `q`. -/
theorem intBE_cons_bounds (q : Byte) (rest : Bytes) :
    q.toNat * 256 ^ rest.length ≤ intBE (q :: rest) ∧ intBE (q :: rest) < (q.toNat + 1) * 256 ^ rest.length := by
  have hsplit : intBE (q :: rest) = q.toNat * 256 ^ rest.length + intBE rest := by
    rw [← List.singleton_append, intBE_append, intBE_single]
  have hrest := intBE_lt rest
  rw [hsplit, Nat.add_mul, Nat.one_mul]
  omega

/-- Bytes that begin with `q`, not 0, have a text of k + 1 characters when every number that begins with `q` has k + 1
digits in base 58. -/
theorem b58enc_cons_length {q : Byte} {rest : Bytes} {k n : Nat} (hq : q ≠ 0) (hrest : rest.length = n)
    (hlow : 58 ^ k ≤ q.toNat * 256 ^ n) (hhigh : (q.toNat + 1) * 256 ^ n ≤ 58 ^ (k + 1)) :
    (b58enc (q :: rest)).length = k + 1 := by
  subst hrest
  obtain ⟨hge, hlt⟩ := intBE_cons_bounds q rest
  have hmore : k < (Nat.digits 58 (intBE (q :: rest))).length :=
    (Nat.lt_digits_length_iff (by decide) _).2 (hlow.trans hge)
  have hfew : (Nat.digits 58 (intBE (q :: rest))).length ≤ k + 1 :=
    (Nat.digits_length_le_iff (by decide) _).2 (hlt.trans_le hhigh)
  rw [b58enc_length, countLeading_zero_cons hq]
  omega

/-! ### The body of a key and its text (R210, R213) -/

theorem scalarInRange_iff {k : Nat} : scalarInRange k = true ↔ 1 ≤ k ∧ k < orderN := decide_eq_true_iff

theorem wifBody_cons (q : Byte) (pre scalar : Bytes) (c : Bool) :
    wifBody (q :: pre) scalar c = q :: wifBody pre scalar c := rfl

section Key

variable {q : Byte} {scalar : Bytes} {c : Bool}

/-- What follows the first byte of a key: the scalar and, in a compressed key, the flag byte. -/
theorem wifBody_nil_length (h : scalar.length = 32) : (wifBody [] scalar c).length = if c = true then 33 else 32 := by
  cases c <;> simp [wifBody, h]

/-- The text of a key fits every OBUF of R12. -/
theorem wifText_length_le (h : scalar.length = 32) : (b58checkText (wifBody [q] scalar c)).length ≤ 1024 := by
  have htext := b58enc_length_le (wifBody [q] scalar c ++ checksum4 (wifBody [q] scalar c))
  have hbody : (wifBody [q] scalar c).length ≤ 34 := by
    rw [wifBody_cons, List.length_cons, wifBody_nil_length h]
    split <;> omega
  rw [List.length_append, checksum4_length] at htext
  rw [b58checkText]
  omega

/-- R210: a key whose first byte is 80 or B0 has 51 characters, and 52 with the flag byte. -/
theorem wifText_length (hq : q = 0x80 ∨ q = 0xB0) (h : scalar.length = 32) :
    (b58checkText (wifBody [q] scalar c)).length = if c = true then 52 else 51 := by
  have hrest (body : Bytes) : (wifBody [] scalar c ++ checksum4 body).length = if c = true then 37 else 36 := by
    rw [List.length_append, wifBody_nil_length h, checksum4_length]
    cases c <;> rfl
  have hq0 : q ≠ 0 := by rcases hq with rfl | rfl <;> decide
  rw [b58checkText, wifBody_cons, List.cons_append]
  cases c with
  | false => refine b58enc_cons_length (k := 50) hq0 (hrest _) ?_ ?_ <;> rcases hq with rfl | rfl <;> decide
  | true => refine b58enc_cons_length (k := 51) hq0 (hrest _) ?_ ?_ <;> rcases hq with rfl | rfl <;> decide

end Key

/-! ### The rule of WIF_ENCODE (R214) -/

section Encode

variable {c : Bool} {pre scalar : Bytes}

theorem wifEncodeRule_bad_prefix (h : pre.length ≠ 1) : wifEncodeRule c pre scalar = .error .invalidLength := if_pos h

theorem wifEncodeRule_of_prefix (h : pre.length = 1) :
    wifEncodeRule c pre scalar =
      if scalar.length ≠ 32 then .error .invalidLength
      else if ¬ scalarInRange (intBE scalar) then .error .operandOutOfRange
      else emit0 (b58checkText (wifBody pre scalar c)) := by
  rw [wifEncodeRule, if_neg (not_not.2 h)]
  by_cases hlen : scalar.length = 32
  · rw [scalar32_of_length hlen, if_neg (not_not.2 hlen)]
  · rw [scalar32_of_length_ne hlen, if_pos hlen]

theorem wifEncodeRule_bad_scalar (h : pre.length = 1) (hlen : scalar.length ≠ 32) :
    wifEncodeRule c pre scalar = .error .invalidLength := by
  rw [wifEncodeRule_of_prefix h, if_pos hlen]

theorem wifEncodeRule_out_of_range (h : pre.length = 1) (hlen : scalar.length = 32)
    (hk : intBE scalar = 0 ∨ orderN ≤ intBE scalar) : wifEncodeRule c pre scalar = .error .operandOutOfRange := by
  rw [wifEncodeRule_of_prefix h, if_neg (not_not.2 hlen), if_pos (by rw [scalarInRange_iff]; omega)]

theorem wifEncodeRule_ok (h : pre.length = 1) (hlen : scalar.length = 32) (h1 : 1 ≤ intBE scalar)
    (hn : intBE scalar < orderN) : wifEncodeRule c pre scalar = emit0 (b58checkText (wifBody pre scalar c)) := by
  rw [wifEncodeRule_of_prefix h, if_neg (not_not.2 hlen), if_neg (not_not.2 (scalarInRange_iff.2 ⟨h1, hn⟩))]

end Encode

/-- R214: WIF_ENCODE of one byte and a scalar in [1, n − 1] succeeds with the text of the key. -/
theorem wifEncode_succeeds {s : State} {c : Bool} {q : Byte} {scalar : Bytes} (hp : s.params.wf) (hf : s.fits 2)
    (hq : s.opnd 0 = [q]) (hs : s.opnd 1 = scalar) (hlen : scalar.length = 32) (h1 : 1 ≤ intBE scalar)
    (hn : intBE scalar < orderN) :
    Succeeds (.wifEncode c) s [(0, b58checkText (wifBody [q] scalar c))] ResultReg.zero := by
  have hrun : exec (.wifEncode c) s = ran s .codec 2 (wifEncodeRule c [q] scalar) := by
    rw [← hq, ← hs]
    rfl
  obtain ⟨-, -, hmin, -⟩ := hp
  exact Succeeds.of_run_single hrun (by decide) hf (wifEncodeRule_ok rfl hlen h1 hn)
    ((wifText_length_le hlen).trans hmin)

/-! ### The rule of WIF_DECODE (R212, R215) -/

theorem byteAt_of_getElem? {b : Bytes} {i : Nat} {x : Byte} (h : b[i]? = some x) : byteAt b i = x := by
  rw [byteAt, List.getD_eq_getElem?_getD, h, Option.getD_some]

theorem wifDecodeRule_b58enc (raw accepted : Bytes) : wifDecodeRule (b58enc raw) accepted = wifParse raw accepted := by
  rw [wifDecodeRule, b58dec_b58enc]

theorem wifDecodeRule_malformed {t accepted : Bytes} (h : ∃ c ∈ t, c ∉ b58Alphabet) :
    wifDecodeRule t accepted = .error .malformedEncoding := by
  rw [wifDecodeRule, b58dec_of_not_mem_alphabet h]

theorem wifParse_short {raw accepted : Bytes} (h : raw.length < 5) : wifParse raw accepted = .error .invalidLength :=
  if_pos h

/-- R215's checks of a checksummed body, on what follows the first byte `q`: `rest`, the scalar and perhaps the flag. -/
def wifRest (q : Byte) (rest : Bytes) : Except ErrCode Output :=
  if rest.length ≠ 32 ∧ rest.length ≠ 33 then .error .invalidLength
  else if rest.length = 33 ∧ byteAt rest 32 ≠ 0x01 then .error .invalidCompressionFlag
  else if ¬ scalarInRange (intBE (rest.take 32)) then .error .operandOutOfRange
  else .ok ⟨[(0, rest.take 32)], { ResultReg.zero with prefixByte := q, comp := decide (rest.length = 33) }⟩

section Parse

variable {q : Byte} {rest tail accepted : Bytes}

/-- On a body that begins with `q` and 4 more bytes, the rule checks the sum, then `q`, and goes on as `wifRest`. -/
theorem wifParse_append (h : tail.length = 4) :
    wifParse (q :: rest ++ tail) accepted =
      if tail ≠ checksum4 (q :: rest) then .error .checksumMismatch
      else if q ∉ accepted then .error .unsupportedPrefix
      else wifRest q rest := by
  have hlength : (q :: rest ++ tail).length = rest.length + 5 := by simp [h]
  have h38 : rest.length + 5 = 38 ↔ rest.length = 33 := by omega
  rw [wifParse, if_neg (by omega)]
  refine if_congr (checksumHolds_append h).not rfl (if_congr Iff.rfl rfl ?_)
  rw [wifRest]
  by_cases hrest : rest.length ≠ 32 ∧ rest.length ≠ 33
  · rw [if_pos hrest, if_pos (by omega)]
  · have hscalar : slice (q :: rest ++ tail) 1 33 = rest.take 32 := List.take_append_of_le_length (by omega)
    have hflag (h33 : rest.length = 33) : byteAt (q :: rest ++ tail) 33 = byteAt rest 32 :=
      List.getD_append rest tail 0 32 (by omega)
    rw [if_neg hrest, if_neg (by omega)]
    simp only [hlength, h38, hscalar]
    exact if_congr (and_congr_right fun h33 => by rw [hflag h33]) rfl rfl

theorem wifParse_mismatch (h : tail.length = 4) (hsum : tail ≠ checksum4 (q :: rest)) :
    wifParse (q :: rest ++ tail) accepted = .error .checksumMismatch := by
  rw [wifParse_append h, if_pos hsum]

theorem wifParse_bad_prefix (h : tail.length = 4) (hsum : tail = checksum4 (q :: rest)) (hq : q ∉ accepted) :
    wifParse (q :: rest ++ tail) accepted = .error .unsupportedPrefix := by
  rw [wifParse_append h, if_neg (not_not.2 hsum), if_pos hq]

theorem wifParse_accepted (h : tail.length = 4) (hsum : tail = checksum4 (q :: rest)) (hq : q ∈ accepted) :
    wifParse (q :: rest ++ tail) accepted = wifRest q rest := by
  rw [wifParse_append h, if_neg (not_not.2 hsum), if_neg (not_not.2 hq)]

theorem wifRest_bad_length (h32 : rest.length ≠ 32) (h33 : rest.length ≠ 33) :
    wifRest q rest = .error .invalidLength := if_pos ⟨h32, h33⟩

theorem wifRest_bad_flag (h33 : rest.length = 33) (hflag : byteAt rest 32 ≠ 0x01) :
    wifRest q rest = .error .invalidCompressionFlag := by
  rw [wifRest, if_neg (by omega), if_pos ⟨h33, hflag⟩]

/-- With no flag, or the flag 01, the scalar decides. -/
theorem wifRest_of_form (h : rest.length = 32 ∨ rest.length = 33 ∧ byteAt rest 32 = 0x01) :
    wifRest q rest =
      if ¬ scalarInRange (intBE (rest.take 32)) then .error .operandOutOfRange
      else .ok ⟨[(0, rest.take 32)],
        { ResultReg.zero with prefixByte := q, comp := decide (rest.length = 33) }⟩ := by
  have hflag : ¬ (rest.length = 33 ∧ byteAt rest 32 ≠ 0x01) := by
    rintro ⟨h33, hne⟩
    exact h.elim (fun h32 => by omega) fun h1 => hne h1.2
  rw [wifRest, if_neg (by omega), if_neg hflag]

theorem wifRest_out_of_range (h : rest.length = 32 ∨ rest.length = 33 ∧ byteAt rest 32 = 0x01)
    (hk : intBE (rest.take 32) = 0 ∨ orderN ≤ intBE (rest.take 32)) :
    wifRest q rest = .error .operandOutOfRange := by
  rw [wifRest_of_form h, if_pos (by rw [scalarInRange_iff]; omega)]

/-- What follows the first byte of an encoded key has the form that the decoder asks for. -/
theorem wifRest_wifBody {scalar : Bytes} {c : Bool} (hlen : scalar.length = 32) (h1 : 1 ≤ intBE scalar)
    (hn : intBE scalar < orderN) :
    wifRest q (wifBody [] scalar c) = .ok ⟨[(0, scalar)], { ResultReg.zero with prefixByte := q, comp := c }⟩ := by
  have hlength := wifBody_nil_length (c := c) hlen
  have hscalar : (wifBody [] scalar c).take 32 = scalar := List.take_left' hlen
  have hform : (wifBody [] scalar c).length = 32 ∨
      (wifBody [] scalar c).length = 33 ∧ byteAt (wifBody [] scalar c) 32 = 0x01 := by
    cases c with
    | false => exact .inl hlength
    | true => exact .inr ⟨hlength, by simp [wifBody, byteAt, hlen]⟩
  have hcomp : decide ((wifBody [] scalar c).length = 33) = c := by
    rw [hlength]
    cases c <;> rfl
  rw [wifRest_of_form hform, hscalar, if_neg (not_not.2 (scalarInRange_iff.2 ⟨h1, hn⟩)), hcomp]

/-- R216: WIF_DECODE reads back what WIF_ENCODE wrote. -/
theorem wifDecodeRule_b58checkText {scalar : Bytes} {c : Bool} (hq : q ∈ accepted) (hlen : scalar.length = 32)
    (h1 : 1 ≤ intBE scalar) (hn : intBE scalar < orderN) :
    wifDecodeRule (b58checkText (wifBody [q] scalar c)) accepted =
      .ok ⟨[(0, scalar)], { ResultReg.zero with prefixByte := q, comp := c }⟩ := by
  rw [b58checkText, wifDecodeRule_b58enc, wifBody_cons, wifParse_accepted (checksum4_length _) rfl hq,
    wifRest_wifBody hlen h1 hn]

end Parse

end Sys2Proof.Machine

/-!
OBLIGATIONS. The statements about WIF keys.
-/

namespace Sys2Proof.Machine

/-- Settles O53: the text is that of the key's body, and each check of the decoder holds of that body. -/
theorem wifRoundTrip : Obligations.WifRoundTrip := by
  intro q scalar c hlen h1 hn body wif
  refine ⟨fun s hp hf hq hs => wifEncode_succeeds hp hf hq hs hlen h1 hn, fun s ⟨_, _, hmin, _⟩ hf ht hq => ?_⟩
  have hrun : exec .wifDecode s = ran s .codec 2 (wifDecodeRule wif (s.opnd 1)) := by
    rw [← ht]
    rfl
  exact Succeeds.of_run_single hrun (by decide) hf (wifDecodeRule_b58checkText hq hlen h1 hn) (by omega)

/-- Settles O52: the rule's checks in R214's order, and the text that it emits. -/
theorem wifEncodeCommand : Obligations.WifEncodeCommand := by
  intro s c hp hf k body wif
  have hrun : exec (.wifEncode c) s = ran s .codec 2 (wifEncodeRule c (s.opnd 0) (s.opnd 1)) := rfl
  refine ⟨fun hpre => ?_, fun hpre hlen => ?_, fun hpre hlen hk => ?_, fun hpre hlen h1 hn => ?_⟩
  · exact Fails.of_run hrun (by decide) hf (wifEncodeRule_bad_prefix hpre)
  · exact Fails.of_run hrun (by decide) hf (wifEncodeRule_bad_scalar hpre hlen)
  · exact Fails.of_run hrun (by decide) hf (wifEncodeRule_out_of_range hpre hlen hk)
  · obtain ⟨q, hq⟩ := List.length_eq_one_iff.1 hpre
    have hwif : wif = b58checkText (wifBody [q] (s.opnd 1) c) := by rw [← hq]; rfl
    rw [hwif]
    refine ⟨wifEncode_succeeds hp hf hq rfl hlen h1 hn, fun hpq => wifText_length ?_ hlen⟩
    rw [hq] at hpq
    exact hpq.imp List.head_eq_of_cons_eq List.head_eq_of_cons_eq

/-- Settles O54: the rule's checks in R215's order, each on the string that the text decodes to (O39). -/
theorem wifDecodeFailures : Obligations.WifDecodeFailures := by
  intro s _ hf
  have hrun : exec .wifDecode s = ran s .codec 2 (wifDecodeRule (s.opnd 0) (s.opnd 1)) := rfl
  have fails {raw : Bytes} {e : ErrCode} (ht : s.opnd 0 = b58enc raw) (he : wifParse raw (s.opnd 1) = .error e) :
      Fails .wifDecode s e .codec :=
    Fails.of_run hrun (by decide) hf (by rw [ht, wifDecodeRule_b58enc, he])
  refine ⟨fun h => Fails.of_run hrun (by decide) hf (wifDecodeRule_malformed h),
    fun raw ht hshort => fails ht (wifParse_short hshort),
    fun q rest tail ht h4 => ⟨fun hsum => fails ht (wifParse_mismatch h4 hsum),
      fun hsum => ⟨fun hq => fails ht (wifParse_bad_prefix h4 hsum hq), fun hq => ?_⟩⟩⟩
  have failsRest {e : ErrCode} (he : wifRest q rest = .error e) : Fails .wifDecode s e .codec :=
    fails ht ((wifParse_accepted h4 hsum hq).trans he)
  refine ⟨fun h32 h33 => failsRest (wifRest_bad_length h32 h33),
    fun flag h33 hflag hne => failsRest (wifRest_bad_flag h33 (byteAt_of_getElem? hflag ▸ hne)),
    fun hform hk => failsRest (wifRest_out_of_range (hform.imp_right fun hflag => ?_) hk)⟩
  exact ⟨hflag.1, byteAt_of_getElem? hflag.2⟩

end Sys2Proof.Machine

/-!
SUPPORT. Recovery (R230 to R237), an equation per outcome: the header, the key formula, the checks of `recover` in their
order, and the rules of the two commands on what it gives.
-/

namespace Sys2Proof.Machine

/-! ### The header (R231) -/

section Header

variable {h : Byte}

theorem sigHeader_out_of_range (hh : h.toNat < 27 ∨ 34 < h.toNat) : sigHeader h = .error .invalidRecoveryId := if_pos hh

theorem sigHeader_in_range (h27 : 27 ≤ h.toNat) (h34 : h.toNat ≤ 34) :
    sigHeader h = .ok ((h.toNat - 27) % 4, decide (31 ≤ h.toNat)) := if_neg (by omega)

/-- The header that R231 gives a recovery id and a flag reads back as them. -/
theorem sigHeader_ofNat {recid : Nat} (comp : Bool) (hrecid : recid < 4) :
    sigHeader (BitVec.ofNat 8 (27 + recid + if comp = true then 4 else 0)) = .ok (recid, comp) := by
  have htop : 27 + recid + (if comp = true then 4 else 0) ≤ 34 := by split <;> omega
  have hnat : (BitVec.ofNat 8 (27 + recid + if comp = true then 4 else 0)).toNat =
      27 + recid + if comp = true then 4 else 0 := by
    rw [BitVec.toNat_ofNat, Nat.mod_eq_of_lt (by omega)]
  rw [sigHeader_in_range (by omega) (by omega), hnat]
  cases comp with
  | false => rw [if_neg (by decide), decide_eq_false (by omega), show (27 + recid + 0 - 27) % 4 = recid by omega]
  | true => rw [if_pos rfl, decide_eq_true (by omega), show (27 + recid + 4 - 27) % 4 = recid by omega]

end Header

/-! ### The key (R232) -/

/-- The inverse of R18 is the only one: a reduced b with a·b ≡ 1 (mod m) is `inv_m(a)`. -/
theorem invMod_eq_of_mul {m a b : Nat} (hm : m.Prime) (h2 : 2 < m) (hb : b < m) (h : a * b % m = 1) :
    invMod m a = b := by
  have : Fact m.Prime := ⟨hm⟩
  have hone : (a : ZMod m) * b = 1 := by rw [← Nat.cast_mul, ← ZMod.natCast_mod, h, Nat.cast_one]
  refine eq_of_cast_eq (invMod_lt hm.one_lt a) hb ?_
  rw [cast_invMod hm h2, eq_inv_of_mul_eq_one_right hone]

theorem recoverKey_eq {r rInv : Nat} (s e : Nat) (p : Point) (hlt : rInv < orderN) (hinv : r * rInv % orderN = 1) :
    recoverKey r s e p =
      pointMul rInv (pointAdd (pointMul s p) (pointMul ((orderN - e % orderN) % orderN) genG)) := by
  rw [recoverKey, invMod_eq_of_mul orderN_prime orderN_gt_two hlt hinv, subMod, Nat.zero_add]

/-! ### From the range check on (R232) -/

section RecoverPoint

variable {r s e recid : Nat} {comp : Bool}

theorem recoverPoint_out_of_range (h : r = 0 ∨ orderN ≤ r ∨ s = 0 ∨ orderN ≤ s) :
    recoverPoint r s e recid comp = .error .signatureMismatch := by
  have hn := orderN_gt_one
  exact if_pos (by omega)

/-- No point with the x of the signature: no candidate (R232). -/
theorem recoverPoint_no_point (h : ∀ y, (Point.affine (r + recid / 2 * orderN) y).onCurve = false) :
    recoverPoint r s e recid comp = .error .signatureMismatch := by
  unfold recoverPoint
  split
  · rfl
  · cases hlift : liftX (r + recid / 2 * orderN) (recid % 2 == 1) with
    | error c => rfl
    | ok p =>
      obtain ⟨y, rfl, hc, -⟩ := liftX_eq_ok_iff.1 hlift
      exact absurd hc (Bool.eq_false_iff.1 (h y))

/-- r and s in range and a point R with the x and the parity of the signature: the key is that of R, unless it is O. -/
theorem recoverPoint_of_point {y : Nat} (hr : 1 ≤ r ∧ r < orderN) (hs : 1 ≤ s ∧ s < orderN)
    (hc : (Point.affine (r + recid / 2 * orderN) y).onCurve = true) (hpar : y % 2 = recid % 2) :
    recoverPoint r s e recid comp =
      if recoverKey r s e (.affine (r + recid / 2 * orderN) y) = .infinity then .error .signatureMismatch
      else .ok ⟨recoverKey r s e (.affine (r + recid / 2 * orderN) y), recid, comp⟩ := by
  have hlift : liftX (r + recid / 2 * orderN) (recid % 2 == 1) = .ok (.affine (r + recid / 2 * orderN) y) :=
    liftX_eq_ok_iff.2 ⟨y, rfl, hc, by rw [hpar]⟩
  rw [recoverPoint, if_neg (by omega), hlift]
  simp only [Point.isInfinity_eq, decide_eq_true_eq]

end RecoverPoint

/-! ### The checks of a signature (R230, R232) -/

section RecoverSig

variable {dg sig rs ss : Bytes} {h : Byte}

theorem recoverSig_bad_digest (hdg : dg.length ≠ 32) : recoverSig dg sig = .error .invalidLength := if_pos hdg

theorem recoverSig_bad_signature (hdg : dg.length = 32) (hsig : sig.length ≠ 65) :
    recoverSig dg sig = .error .invalidSignatureLength := by
  rw [recoverSig, if_neg (not_not.2 hdg), if_pos hsig]

theorem recoverSig_bad_header (hdg : dg.length = 32) (hrs : rs.length = 32) (hss : ss.length = 32) {e : ErrCode}
    (hh : sigHeader h = .error e) : recoverSig dg (h :: (rs ++ ss)) = .error e := by
  rw [recoverSig, if_neg (not_not.2 hdg), if_neg (by simp [hrs, hss]), show byteAt (h :: (rs ++ ss)) 0 = h from rfl, hh]

/-- A signature with a good header goes on with r, the 32 bytes after it, and s, the 32 bytes after those (R230). -/
theorem recoverSig_of_header (hdg : dg.length = 32) (hrs : rs.length = 32) (hss : ss.length = 32) {recid : Nat}
    {comp : Bool} (hh : sigHeader h = .ok (recid, comp)) :
    recoverSig dg (h :: (rs ++ ss)) = recoverPoint (intBE rs) (intBE ss) (intBE dg) recid comp := by
  have hr : slice (h :: (rs ++ ss)) 1 33 = rs := List.take_left' hrs
  have hs : slice (h :: (rs ++ ss)) 33 65 = ss := by
    rw [slice, List.drop_succ_cons, List.drop_left' hrs, List.take_of_length_le hss.le]
  rw [recoverSig, if_neg (not_not.2 hdg), if_neg (by simp [hrs, hss]), show byteAt (h :: (rs ++ ss)) 0 = h from rfl, hh,
    hr, hs]

end RecoverSig

/-! ### The rules of the two commands (R233, R236) -/

section Rules

variable {dg sig a m : Bytes} {e : ErrCode} {q : Recovered} {ch : Chain} {n : Bool}

theorem recoverRule_error (h : recoverSig dg sig = .error e) : recoverRule dg sig = .error e := by
  rw [recoverRule, h]

theorem recoverRule_ok (h : recoverSig dg sig = .ok q) :
    recoverRule dg sig =
      .ok ⟨[(0, ser q.key false)], { ResultReg.zero with comp := q.comp, recid := BitVec.ofNat 2 q.recid }⟩ := by
  rw [recoverRule, h]

theorem verifyRule_error (h : recoverSig (msgDigest m ch n) sig = .error e) : verifyRule ch n a sig m = .error e := by
  rw [verifyRule, h]

/-- The key's address is not the claimed text (R237). -/
theorem verifyRule_mismatch (h : recoverSig (msgDigest m ch n) sig = .ok q) (ha : a ≠ p2pkhText ch q.key q.comp) :
    verifyRule ch n a sig m = .error .signatureMismatch := by
  rw [verifyRule, h]
  exact if_pos ha.symm

theorem verifyRule_match (h : recoverSig (msgDigest m ch n) sig = .ok q) (ha : a = p2pkhText ch q.key q.comp) :
    verifyRule ch n a sig m =
      .ok ⟨[(0, ser q.key false), (1, a)],
        { ResultReg.zero with
          valid := true, comp := q.comp, recid := BitVec.ofNat 2 q.recid, chain := chainBits ch }⟩ := by
  subst ha
  rw [verifyRule, h]
  exact if_neg (not_not.2 rfl)

end Rules

theorem chainBits_eq (ch : Chain) : chainBits ch = if ch = .ltc then 1 else 0 := by cases ch <;> rfl

/-- VERIFY_MESSAGE on a chain that resolves runs its rule for that chain (R235). -/
theorem exec_verifyMessage {s : State} {ch : ChSel} {n : Bool} {c : Chain} (h : resolveChain ch (s.opnd 0) = some c) :
    exec (.verifyMessage ch n) s = ran s .recovery 3 (verifyRule c n (s.opnd 0) (s.opnd 1) (s.opnd 2)) := by
  change execVerifyMessage ch n s = _
  rw [execVerifyMessage, h]

/-! ### The address compared (R237) -/

theorem ripemd160_length (m : Bytes) : (ripemd160 m).length = 20 := by simp [ripemd160, ripemdDigest]

/-- A P2PKH text fits the slots from 1 on (R115) of every OBUF of R12. -/
theorem p2pkhText_length_le (ch : Chain) (p : Point) (c : Bool) : (p2pkhText ch p c).length ≤ 75 := by
  have htext := b58enc_length_le
    (p2pkhVersion ch :: hash160 (ser p c) ++ checksum4 (p2pkhVersion ch :: hash160 (ser p c)))
  rw [List.length_append, checksum4_length, List.length_cons, hash160, ripemd160_length] at htext
  exact htext

end Sys2Proof.Machine

/-!
OBLIGATIONS. The statements about signature recovery.
-/

namespace Sys2Proof.Machine

/-- Settles O55: the header reads back, the lift of x is the point of the statement, and the given inverse of r is
`inv_n(r)`; so the key is the statement's. -/
theorem recoverCommand : Obligations.RecoverCommand := by
  intro s recid r sg x y rInv comp hp hf hdg hrecid hr1 hrn hs1 hsn hsig hx hc hpar hlt hinv e q
  subst hx
  have hscalar {k : Nat} (hk : k < orderN) : intBE (beBytes 32 k) = k := intBE_beBytes (hk.trans orderN_lt)
  have hrun : exec .recover s = ran s .recovery 2 (recoverRule (s.opnd 0) (s.opnd 1)) := rfl
  have hrec : recoverSig (s.opnd 0) (s.opnd 1) =
      if q = .infinity then .error .signatureMismatch else .ok ⟨q, recid, comp⟩ := by
    rw [hsig, recoverSig_of_header hdg (beBytes_length 32 r) (beBytes_length 32 sg) (sigHeader_ofNat comp hrecid),
      hscalar hrn, hscalar hsn, recoverPoint_of_point ⟨hr1, hrn⟩ ⟨hs1, hsn⟩ hc hpar, recoverKey_eq sg _ _ hlt hinv]
  refine ⟨fun hq => ?_, fun hq => ?_⟩
  · rw [if_neg hq] at hrec
    exact Succeeds.of_run_ser hrun (by decide) hp hf (recoverRule_ok hrec)
  · rw [if_pos hq] at hrec
    exact Fails.of_run hrun (by decide) hf (recoverRule_error hrec)

/-- Settles O56: each failure is that of one check of `recover`, and the checks come in R233's order. -/
theorem recoverFailures : Obligations.RecoverFailures := by
  intro s _ hf
  have fails {e : ErrCode} (he : recoverSig (s.opnd 0) (s.opnd 1) = .error e) : Fails .recover s e .recovery :=
    Fails.of_run (m := 2) rfl (by decide) hf (recoverRule_error he)
  refine ⟨fun hdg => fails (recoverSig_bad_digest hdg), fun hdg hlen => fails (recoverSig_bad_signature hdg hlen),
    fun h rs ss hdg hsig hrs hss => ⟨fun hh => fails ?_, fun h27 h34 hnone => fails ?_⟩⟩
  · rw [hsig]
    exact recoverSig_bad_header hdg hrs hss (sigHeader_out_of_range hh)
  · rw [hsig, recoverSig_of_header hdg hrs hss (sigHeader_in_range h27 h34)]
    rcases hnone with hr0 | hrn | hs0 | hsn | hpoint
    · exact recoverPoint_out_of_range (.inl hr0)
    · exact recoverPoint_out_of_range (.inr (.inl hrn))
    · exact recoverPoint_out_of_range (.inr (.inr (.inl hs0)))
    · exact recoverPoint_out_of_range (.inr (.inr (.inr hsn)))
    · exact recoverPoint_no_point hpoint

/-- Settles O57: CH resolves to the chain of the statement, and the key and the address, at most 75 characters, fit
slots 0 and 1. -/
theorem verifyMessageCommand : Obligations.VerifyMessageCommand := by
  intro s ch n chain ⟨_, _, hmin, _⟩ hf hch
  have hchain : resolveChain ch (s.opnd 0) = some chain := by
    rcases hch with ⟨rfl, rfl⟩ | ⟨rfl, rfl⟩ | ⟨rfl, rfl⟩ <;> rfl
  have hrun := exec_verifyMessage (n := n) hchain
  refine ⟨fun q hq => ⟨fun ha => ?_, fun ha => ?_⟩, fun e he => ?_⟩
  · have hkey := ser_length_le q.key false
    have htext : (s.opnd 0).length ≤ 75 := ha ▸ p2pkhText_length_le chain q.key q.comp
    rw [← chainBits_eq]
    refine Succeeds.of_run hrun (by decide) hf (verifyRule_match hq ha) ?_ ?_
    · simp only [List.pairwise_pair, SlotsApart]
      exact ⟨by decide, .inl (by simp; omega)⟩
    · simp only [List.mem_cons, List.not_mem_nil, or_false, forall_eq_or_imp, forall_eq]
      exact ⟨by simp; omega, by simp; omega⟩
  · exact Fails.of_run hrun (by decide) hf (verifyRule_mismatch hq ha)
  · exact Fails.of_run hrun (by decide) hf (verifyRule_error he)

end Sys2Proof.Machine

/-!
SUPPORT. Hashes and the message digest: the length of a Keccak-256 digest, the line endings that `normalise` leaves
(R257), the length forms of R256 and the magic of each chain (R255), and the runs that emit a hash.
-/

namespace Sys2Proof.Machine

/-! ### The length of a Keccak-256 digest (R22) -/

@[simp] theorem lanes_length (f : Nat → Nat → Lane) : (lanes f).length = 25 := by simp [lanes]

theorem keccakRound_length (a : List Lane) (rc : Lane) : (keccakRound a rc).length = 25 := by
  have hiota (l : List Lane) : (keccakIota rc l).length = l.length := by cases l <;> rfl
  rw [keccakRound, hiota, keccakChi, lanes_length]

/-- The rounds keep the 25 lanes. -/
theorem keccakF_length {a : List Lane} (h : a.length = 25) : (keccakF a).length = 25 :=
  List.foldlRecOn (motive := fun l => l.length = 25) keccakRC keccakRound h fun _ _ rc _ => keccakRound_length _ rc

/-- Absorbing keeps the 25 lanes, and the digest is four of them, 8 bytes each. -/
theorem keccak256_length (m : Bytes) : (keccak256 m).length = 32 := by
  have hlanes (blocks : List Bytes) : (blocks.foldl keccakAbsorb (List.replicate 25 0)).length = 25 :=
    List.foldlRecOn (motive := fun l => l.length = 25) blocks keccakAbsorb List.length_replicate
      fun _ _ _ _ => keccakF_length (lanes_length _)
  simp only [keccak256, List.length_flatMap, leBytes_length, List.map_const', List.sum_replicate,
    List.length_take, hlanes]
  rfl

/-! ### Line endings (R257) -/

section LineEndings

variable {x : Byte} (m : Bytes)

theorem crlfToLf_crlf : crlfToLf (byteCR :: byteLF :: m) = byteLF :: crlfToLf m := by
  rw [crlfToLf, if_pos ⟨rfl, rfl⟩]

/-- A byte that does not begin a CR LF is kept by the first replacement. -/
theorem crlfToLf_cons {m : Bytes} (h : ¬ (x = byteCR ∧ m.head? = some byteLF)) :
    crlfToLf (x :: m) = x :: crlfToLf m := by
  cases m with
  | nil => rfl
  | cons y l => rw [crlfToLf, if_neg (by simpa using h)]

theorem crlfToLf_lf : crlfToLf (byteLF :: m) = byteLF :: crlfToLf m :=
  crlfToLf_cons fun h => absurd h.1 (by decide)

theorem lfToCrlf_lf : lfToCrlf (byteLF :: m) = byteCR :: byteLF :: lfToCrlf m := rfl

theorem lfToCrlf_cons (h : x ≠ byteLF) : lfToCrlf (x :: m) = x :: lfToCrlf m := by
  simp [lfToCrlf, h]

/-- After the second replacement a LF stands only behind a CR. -/
theorem head?_lfToCrlf : (lfToCrlf m).head? ≠ some byteLF := by
  have hne : byteCR ≠ byteLF := by decide
  cases m with
  | nil => exact nofun
  | cons x m =>
    by_cases h : x = byteLF
    · simpa [h, lfToCrlf_lf] using hne
    · rw [lfToCrlf_cons m h]
      simpa using h

/-- The first replacement undoes the second: every LF that the second left is one half of a CR LF that it put. -/
theorem crlfToLf_lfToCrlf : crlfToLf (lfToCrlf m) = m := by
  induction m with
  | nil => rfl
  | cons x m ih =>
    by_cases h : x = byteLF
    · rw [h, lfToCrlf_lf, crlfToLf_crlf, ih]
    · rw [lfToCrlf_cons m h, crlfToLf_cons fun hcr => head?_lfToCrlf m hcr.2, ih]

theorem crlfToLf_length_le : (crlfToLf m).length ≤ m.length := by
  induction m using crlfToLf.induct with
  | case1 => exact le_rfl
  | case2 x => exact le_rfl
  | case3 x y l h ih =>
    rw [crlfToLf, if_pos h]
    simp only [List.length_cons]
    omega
  | case4 x y l h ih =>
    rw [crlfToLf, if_neg h]
    simp only [List.length_cons] at ih ⊢
    omega

theorem lfToCrlf_length_le : (lfToCrlf m).length ≤ 2 * m.length := by
  induction m with
  | nil => exact le_rfl
  | cons x m ih =>
    by_cases h : x = byteLF
    · rw [h, lfToCrlf_lf]
      simp only [List.length_cons]
      omega
    · rw [lfToCrlf_cons m h]
      simp only [List.length_cons]
      omega

theorem normalise_length_le : (normalise m).length ≤ 2 * m.length :=
  (lfToCrlf_length_le _).trans (Nat.mul_le_mul_left 2 (crlfToLf_length_le m))

end LineEndings

/-! ### What MSG_DIGEST hashes (R255, R256, R258) -/

/-- R256 up to two length bytes, the only lengths that arise (R258). -/
theorem varint_eq {l : Nat} (h : l ≤ 0xFFFF) :
    varint l = if l < 253 then [BitVec.ofNat 8 l] else [0xFD, BitVec.ofNat 8 (l % 256), BitVec.ofNat 8 (l / 256)] := by
  have hlow : BitVec.ofNat 8 (l % 256) = BitVec.ofNat 8 l := BitVec.eq_of_toNat_eq (Nat.mod_mod l 256)
  rw [varint, if_pos h, hlow]
  rfl

theorem withVarint_magicOf_btc :
    withVarint (magicOf .btc) = 0x18 :: (text "Bitcoin Signed Message:" ++ [0x0A]) := by decide +kernel

theorem withVarint_magicOf_ltc :
    withVarint (magicOf .ltc) = 0x19 :: (text "Litecoin Signed Message:" ++ [0x0A]) := by decide +kernel

/-- An operand that fits IBUF has at most 4096 bytes (R12, R114). -/
theorem State.opnd_zero_length_le {s : State} (hp : s.params.wf) (hf : s.fits 1) : (s.opnd 0).length ≤ 4096 := by
  obtain ⟨-, hmax, -, -⟩ := hp
  have hlen : (s.opnd 0).length = s.operandTotal 1 := State.ibufBytes_length s _ _
  exact hlen ▸ hf.trans hmax

/-- What MSG_DIGEST hashes as the message has at most 8192 bytes. -/
theorem digested_length_le {m : Bytes} (n : Bool) (h : m.length ≤ 4096) :
    (if n = true then normalise m else m).length ≤ 8192 := by
  have hnormal := normalise_length_le m
  split <;> omega

/-! ### Runs that emit a short string -/

/-- A framed run that emits at most 1024 bytes to slot 0 succeeds: they fit every OBUF of R12. -/
theorem Succeeds.of_run_emit0 {i : Instr} {s : State} {st : Stage} {m : Nat} {r : Except ErrCode Output} {b : Bytes}
    (h : exec i s = ran s st m r) (hm : m ≤ 3) (hp : s.params.wf) (hf : s.fits m) (hr : r = emit0 b)
    (hb : b.length ≤ 1024) : Succeeds i s [(0, b)] ResultReg.zero := by
  obtain ⟨-, -, hmin, -⟩ := hp
  exact Succeeds.of_run_single h hm hf hr (hb.trans hmin)

end Sys2Proof.Machine

/-!
SUPPORT. Addresses: the lengths of the texts (R260, R262), the digits of an Ethereum address (R264), the rules of the
four commands on a parsed point, and the slots of ADDRESS_SET (R266).
-/

namespace Sys2Proof.Machine

/-! ### The length of a P2PKH text (R260) -/

theorem countLeading_cons_self (c : Byte) (b : Bytes) : countLeading c (c :: b) = countLeading c b + 1 := by
  simp [countLeading]

/-- Leading zero bytes add nothing to the number. -/
theorem intBE_lt_of_countLeading (b : Bytes) : intBE b < 256 ^ (b.length - countLeading 0x00 b) := by
  induction b with
  | nil => decide
  | cons q b ih =>
    by_cases hq : q = 0
    · have hvalue : intBE (0x00 :: b) = intBE b := by
        rw [← List.singleton_append, intBE_append, intBE_single]
        simp
      rw [hq, hvalue, countLeading_cons_self, List.length_cons, Nat.add_sub_add_right]
      exact ih
    · rw [countLeading_zero_cons hq]
      exact intBE_lt _

/-- 25 bytes that begin with 00 have a text of at most 34 characters: the 25 − k bytes after the k zeros are a number
of at most 34 − k digits in base 58. -/
theorem b58enc_zero_cons_length_le {rest : Bytes} (h : rest.length = 24) : (b58enc (0x00 :: rest)).length ≤ 34 := by
  have hpow : ∀ j ≤ 24, 256 ^ j ≤ 58 ^ (j + 9) := by decide
  have hvalue := intBE_lt_of_countLeading (0x00 :: rest)
  have hzeros := countLeading_le_length 0x00 rest
  rw [b58enc_length]
  rw [countLeading_cons_self, List.length_cons, Nat.add_sub_add_right, h] at *
  have hdigits := (Nat.digits_length_le_iff (by decide) _).2 (hvalue.trans_le (hpow _ (Nat.sub_le 24 _)))
  omega

section P2pkh

variable (p : Point) (c : Bool)

theorem hash160_length (m : Bytes) : (hash160 m).length = 20 := ripemd160_length _

/-- After the version byte: the HASH160 and the checksum. -/
theorem p2pkhBody_length (body : Bytes) : (hash160 (ser p c) ++ checksum4 body).length = 24 := by
  rw [List.length_append, hash160_length, checksum4_length]

/-- R266: a Bitcoin P2PKH text has at most 34 characters. -/
theorem p2pkhText_btc_length_le : (p2pkhText .btc p c).length ≤ 34 :=
  b58enc_zero_cons_length_le (p2pkhBody_length p c _)

/-- R266: a Litecoin P2PKH text has 34 characters. -/
theorem p2pkhText_ltc_length : (p2pkhText .ltc p c).length = 34 :=
  b58enc_cons_length (k := 33) (q := 0x30) (by decide) (p2pkhBody_length p c _) (by decide) (by decide)

end P2pkh

/-- R266: a P2WPKH text has 40 characters after the human-readable part. -/
theorem p2wpkhText_length (ch : Chain) (p : Point) : (p2wpkhText ch p).length = (hrpOf ch).length + 40 :=
  bech32EncodeText_length (hash160_length _) _

/-! ### The digits of an Ethereum address (R264) -/

@[simp] theorem nibbles_length (b : Bytes) : (nibbles b).length = 2 * b.length := by
  simp [nibbles, Nat.mul_comm]

theorem nibbles_getD (b : Bytes) (i : Nat) :
    (nibbles b).getD i 0 = if i % 2 = 0 then (byteAt b (i / 2)).toNat / 16 else (byteAt b (i / 2)).toNat % 16 := by
  induction b generalizing i with
  | nil => simp [nibbles, byteAt]
  | cons x b ih =>
    match i with
    | 0 => rfl
    | 1 => rfl
    | i + 2 =>
      have hhalf : (i + 2) / 2 = i / 2 + 1 := by omega
      rw [Nat.add_mod_right, hhalf]
      exact ih i

theorem nibbles_getD_lt (b : Bytes) (i : Nat) : (nibbles b).getD i 0 < 16 := by
  have hbyte := (byteAt b (i / 2)).isLt
  rw [nibbles_getD]
  split <;> omega

/-- The lower-case digits of a byte string. -/
def hexDigits (b : Bytes) : Bytes := (nibbles b).map hexLower

@[simp] theorem hexDigits_length (b : Bytes) : (hexDigits b).length = 2 * b.length := by simp [hexDigits]

/-- A digit for each nibble, the high one first. -/
theorem hexDigits_eq_flatMap (b : Bytes) :
    hexDigits b = b.flatMap fun x => [hexLower (x.toNat / 16), hexLower (x.toNat % 16)] := by
  simp [hexDigits, nibbles, List.map_flatMap]

theorem byteAt_hexDigits {b : Bytes} {i : Nat} (h : i < 2 * b.length) :
    byteAt (hexDigits b) i = hexLower ((nibbles b).getD i 0) := by
  have hi : i < (nibbles b).length := by simpa using h
  rw [byteAt, List.getD_eq_getElem _ _ (by simpa using h), List.getD_eq_getElem _ _ hi]
  exact List.getElem_map _

/-- A digit's letters are a to f. -/
theorem isLower_hexLower :
    ∀ n < 16, (isLower (hexLower n) = true ↔ 0x61 ≤ (hexLower n).toNat ∧ (hexLower n).toNat ≤ 0x66) := by decide

theorem checksumDigit_hexLower {n : Nat} (hn : n < 16) (h : Nat) :
    checksumDigit (hexLower n) h =
      if 0x61 ≤ (hexLower n).toNat ∧ (hexLower n).toNat ≤ 0x66 ∧ 8 ≤ h then hexLower n - 0x20 else hexLower n := by
  rw [checksumDigit]
  exact if_congr ((and_congr_left' (isLower_hexLower n hn)).trans and_assoc) rfl rfl

/-- The first line of R264: the last 20 bytes of the hash of x and y. -/
theorem ethHash_affine (x y : Nat) :
    ethHash (.affine x y) = (keccak256 (beBytes 32 x ++ beBytes 32 y)).drop 12 := by
  have hkey : slice (ser (.affine x y) false) 1 65 = beBytes 32 x ++ beBytes 32 y :=
    List.take_of_length_le (by simp [ser, serXY])
  rw [ethHash, hkey]
  exact List.take_of_length_le (by simp [keccak256_length])

theorem ethHash_length (p : Point) : (ethHash p).length = 20 := by simp [ethHash, slice_length, keccak256_length]

theorem ethText_eq (p : Point) :
    ethText p =
      text "0x" ++ List.zipWith checksumDigit (hexDigits (ethHash p)) (nibbles (keccak256 (hexDigits (ethHash p)))) :=
  rfl

theorem ethText_length (p : Point) : (ethText p).length = 42 := by
  have hmark : (text "0x").length = 2 := by decide
  simp [ethText_eq, hmark, ethHash_length, keccak256_length]

/-- The digit at index `i`, in the case that the hash's nibble chooses. -/
theorem byteAt_ethText (p : Point) {i : Nat} (hi : i < 40) :
    byteAt (ethText p) (2 + i) =
      checksumDigit (byteAt (hexDigits (ethHash p)) i) ((nibbles (keccak256 (hexDigits (ethHash p)))).getD i 0) := by
  have hdigits : i < (hexDigits (ethHash p)).length := by simp [ethHash_length, hi]
  have hnibbles : i < (nibbles (keccak256 (hexDigits (ethHash p)))).length := by
    rw [nibbles_length, keccak256_length]
    omega
  have hskip (l : Bytes) : byteAt (text "0x" ++ l) (2 + i) = byteAt l i := by
    rw [byteAt, List.getD_append_right _ _ _ _ (Nat.le_add_right 2 i)]
    exact congrArg (l.getD · 0) (Nat.add_sub_cancel_left 2 i)
  rw [ethText_eq, hskip, byteAt, byteAt, List.getD_eq_getElem _ _ hdigits, List.getD_eq_getElem _ _ hnibbles,
    List.getD_eq_getElem _ _ (by simp only [List.length_zipWith]; omega)]
  exact List.getElem_zipWith

/-! ### The runs of the address commands (R261, R263, R265, R266) -/

theorem exec_p2pkhAddr {s : State} {ch : ChSel} {k : Chain} (hch : ch.chain? = some k) (c : Bool) :
    exec (.p2pkhAddr ch c) s = ran s .encoding 1 (p2pkhRule k c (s.opnd 0)) := by
  change execP2pkhAddr ch c s = _
  rw [execP2pkhAddr, hch]

theorem exec_p2wpkhAddr {s : State} {ch : ChSel} {k : Chain} (hch : ch.chain? = some k) :
    exec (.p2wpkhAddr ch) s = ran s .encoding 1 (p2wpkhRule k (s.opnd 0)) := by
  change execP2wpkhAddr ch s = _
  rw [execP2wpkhAddr, hch]

/-- Slots of rising numbers, none longer than 128 bytes, share no byte and end within every OBUF of R12 (R115). -/
theorem Succeeds.of_run_slots {i : Instr} {s : State} {st : Stage} {m : Nat} {r : Except ErrCode Output}
    {slots : List (Fin 8 × Bytes)} {res : ResultReg} (h : exec i s = ran s st m r) (hm : m ≤ 3) (hp : s.params.wf)
    (hf : s.fits m) (hr : r = .ok ⟨slots, res⟩) (hrising : slots.Pairwise fun x y => x.1 < y.1)
    (hlen : ∀ x ∈ slots, x.2.length ≤ 128) : Succeeds i s slots res := by
  obtain ⟨-, -, hmin, -⟩ := hp
  refine Succeeds.of_run h hm hf hr (hrising.imp_of_mem fun {x y} hx _ hxy => ⟨hxy.ne, .inl ?_⟩) fun x hx => ?_
  · have hxlen := hlen x hx
    have hnumber : x.1.val < y.1.val := hxy
    omega
  · have hxlen := hlen x hx
    have hnumber := x.1.isLt
    omega

theorem addressSlots_rising (p : Point) : (addressSlots p).Pairwise fun x y => x.1 < y.1 := by
  have hnumbers : ((addressSlots p).map Prod.fst).Pairwise (· < ·) :=
    (by decide : ([0, 1, 2, 3, 4, 5, 6] : List (Fin 8)).Pairwise (· < ·))
  exact List.pairwise_map.1 hnumbers

/-- Every text of ADDRESS_SET is shorter than a slot. -/
theorem addressSlots_length_le (p : Point) : ∀ x ∈ addressSlots p, x.2.length ≤ 128 := by
  have hp2pkh (k : Chain) (c : Bool) : (p2pkhText k p c).length ≤ 128 := (p2pkhText_length_le k p c).trans (by decide)
  have hp2wpkh (k : Chain) : (p2wpkhText k p).length ≤ 128 := by
    rw [p2wpkhText_length]
    cases k <;> decide
  have heth : (ethText p).length ≤ 128 := by
    rw [ethText_length]
    decide
  simp [addressSlots, hp2pkh, hp2wpkh, heth]

section Succeed

variable {s : State} {p : Point} {ch : ChSel} {k : Chain} (hp : s.params.wf) (hf : s.fits 1)
  (hparse : parsePoint (s.opnd 0) false = .ok p)

include hp hf hparse

theorem p2pkhAddr_succeeds (hch : ch.chain? = some k) (c : Bool) :
    Succeeds (.p2pkhAddr ch c) s [(0, p2pkhText k p c)] ResultReg.zero :=
  Succeeds.of_run_emit0 (exec_p2pkhAddr hch c) (by decide) hp hf (by rw [p2pkhRule, hparse])
    ((p2pkhText_length_le k p c).trans (by decide))

theorem p2wpkhAddr_succeeds (hch : ch.chain? = some k) :
    Succeeds (.p2wpkhAddr ch) s [(0, p2wpkhText k p)] ResultReg.zero := by
  have hhrp : (hrpOf k).length ≤ 3 := by cases k <;> decide
  exact Succeeds.of_run_emit0 (exec_p2wpkhAddr hch) (by decide) hp hf (by rw [p2wpkhRule, hparse])
    (by rw [p2wpkhText_length]; omega)

theorem ethAddr_succeeds : Succeeds .ethAddr s [(0, ethText p)] ResultReg.zero :=
  Succeeds.of_run_emit0 (st := .encoding) rfl (by decide) hp hf (by rw [ethRule, hparse])
    (by rw [ethText_length]; decide)

/-- R266: the seven texts are shorter than their slots and fit every OBUF of R12. -/
theorem addressSet_succeeds : Succeeds .addressSet s (addressSlots p) ResultReg.zero :=
  Succeeds.of_run_slots (st := .encoding) rfl (by decide) hp hf (by rw [addressSetRule, hparse]) (addressSlots_rising p)
    (addressSlots_length_le p)

end Succeed

section Fail

variable {s : State} {ch : ChSel} {k : Chain} {e : ErrCode} (hf : s.fits 1)
  (hparse : parsePoint (s.opnd 0) false = .error e)

include hf hparse

theorem p2pkhAddr_fails (hch : ch.chain? = some k) (c : Bool) : Fails (.p2pkhAddr ch c) s e .encoding :=
  Fails.of_run (exec_p2pkhAddr hch c) (by decide) hf (by rw [p2pkhRule, hparse])

theorem p2wpkhAddr_fails (hch : ch.chain? = some k) : Fails (.p2wpkhAddr ch) s e .encoding :=
  Fails.of_run (exec_p2wpkhAddr hch) (by decide) hf (by rw [p2wpkhRule, hparse])

theorem ethAddr_fails : Fails .ethAddr s e .encoding :=
  Fails.of_run (m := 1) rfl (by decide) hf (by rw [ethRule, hparse])

theorem addressSet_fails : Fails .addressSet s e .encoding :=
  Fails.of_run (m := 1) rfl (by decide) hf (by rw [addressSetRule, hparse])

end Fail

end Sys2Proof.Machine

/-!
OBLIGATIONS. The statements about hashes, the message digest and addresses.
-/

namespace Sys2Proof.Machine

/-- Settles O32: each command emits its hash, of 20 or 32 bytes. -/
theorem hashCommands : Obligations.HashCommands := by
  refine ⟨fun s hp hf => ?_, fun b => ⟨sha256_length b, ripemd160_length b, keccak256_length b⟩⟩
  have emits {i : Instr} {b : Bytes} (h : exec i s = ran s .encoding 1 (emit0 b)) (hb : b.length ≤ 32) :
      Succeeds i s [(0, b)] ResultReg.zero :=
    Succeeds.of_run_emit0 h (by decide) hp hf rfl (hb.trans (by decide))
  have hripemd (b : Bytes) : (ripemd160 b).length ≤ 32 := by
    rw [ripemd160_length]
    decide
  exact ⟨emits rfl (sha256_length _).le, emits rfl (sha256_length _).le, emits rfl (hripemd _), emits rfl (hripemd _),
    emits rfl (keccak256_length _).le⟩

/-- Settles O33, by running the hash functions on the five operands. -/
theorem hashExamples : Obligations.HashExamples :=
  ⟨by decide +kernel, by decide +kernel, by decide +kernel, by decide +kernel, by decide +kernel⟩

/-- Settles O34: magic and message, each after its length, take the forms of the statement; the digest has 32 bytes. -/
theorem msgDigestCompletes : Obligations.MsgDigestCompletes := by
  intro s n hp hf m lengthForm
  have hlen : m.length ≤ 8192 := digested_length_le n (s.opnd_zero_length_le hp hf)
  have hmessage : withVarint m = lengthForm ++ m := congrArg (· ++ m) (varint_eq (hlen.trans (by decide)))
  have emits {i : Instr} {b : Bytes} {ch : Chain} (h : exec i s = ran s .encoding 1 (emit0 (msgDigest (s.opnd 0) ch n)))
      (hb : withVarint (magicOf ch) ++ withVarint m = b) :
      Succeeds i s [(0, sha256 (sha256 b))] ResultReg.zero := by
    subst hb
    exact Succeeds.of_run_emit0 h (by decide) hp hf rfl ((sha256_length _).le.trans (by decide))
  refine ⟨hlen, emits (ch := .btc) rfl ?_, emits (ch := .ltc) rfl ?_⟩
  · rw [withVarint_magicOf_btc, hmessage, List.cons_append, List.append_assoc]
    rfl
  · rw [withVarint_magicOf_ltc, hmessage, List.cons_append, List.append_assoc]
    rfl

/-- Settles O35: the first replacement undoes the second, so the second normalisation finds what the first found. -/
theorem normaliseLines : Obligations.NormaliseLines := by
  refine ⟨rfl, fun m => ?_, fun m => ?_, fun x m hlf hcr => ?_, fun m => ?_⟩
  · exact congrArg lfToCrlf (crlfToLf_crlf m)
  · exact congrArg lfToCrlf (crlfToLf_lf m)
  · rw [normalise, crlfToLf_cons hcr, lfToCrlf_cons _ hlf, normalise]
  · rw [normalise, normalise, crlfToLf_lfToCrlf]

/-- Settles O58: either encoding parses to its point, and each rule emits the text of what parses. -/
theorem addressCommands : Obligations.AddressCommands := by
  intro s hp hf
  refine ⟨fun x y henc => ?_, fun e he => ?_⟩
  · have hparse : parsePoint (s.opnd 0) false = .ok (.affine x y) := parsePoint_of_encodesPoint henc nofun
    exact ⟨fun c => ⟨p2pkhAddr_succeeds (k := .btc) hp hf hparse rfl c,
        p2pkhAddr_succeeds (k := .ltc) hp hf hparse rfl c⟩,
      p2wpkhAddr_succeeds (k := .btc) hp hf hparse rfl, p2wpkhAddr_succeeds (k := .ltc) hp hf hparse rfl,
      ethAddr_succeeds hp hf hparse⟩
  · exact ⟨fun c => ⟨p2pkhAddr_fails (k := .btc) hf he rfl c, p2pkhAddr_fails (k := .ltc) hf he rfl c⟩,
      p2wpkhAddr_fails (k := .btc) hf he rfl, p2wpkhAddr_fails (k := .ltc) hf he rfl, ethAddr_fails hf he⟩

/-- Settles O59: digit i of the text is that of nibble i of the hash, and a digit's letters are a to f. -/
theorem ethAddressText : Obligations.EthAddressText := by
  intro x y a t h
  have ha : ethHash (.affine x y) = a := ethHash_affine x y
  have halen : a.length = 20 := ha ▸ ethHash_length _
  have ht : hexDigits a = t := hexDigits_eq_flatMap a
  have htlen : t.length = 40 := by rw [← ht, hexDigits_length, halen]
  refine ⟨ethText_length _, rfl, htlen, fun i hi => ?_⟩
  have hdigit : byteAt t i = hexLower ((nibbles a).getD i 0) := by
    rw [← ht]
    exact byteAt_hexDigits (by omega)
  rw [byteAt_ethText _ hi, ha, ht, nibbles_getD, hdigit]
  exact checksumDigit_hexLower (nibbles_getD_lt a i) _

/-- Settles O60: the slots hold the texts that the single commands emit for the point (O58). -/
theorem addressSetCommand : Obligations.AddressSetCommand := by
  intro s hp hf
  refine ⟨fun x y henc => ?_, fun e he => addressSet_fails hf he⟩
  have hparse : parsePoint (s.opnd 0) false = .ok (.affine x y) := parsePoint_of_encodesPoint henc nofun
  exact ⟨_, _, _, _, _, _, _, addressSet_succeeds hp hf hparse,
    p2pkhAddr_succeeds hp hf hparse rfl true, p2pkhAddr_succeeds hp hf hparse rfl false,
    p2wpkhAddr_succeeds hp hf hparse rfl, p2pkhAddr_succeeds hp hf hparse rfl true,
    p2pkhAddr_succeeds hp hf hparse rfl false, p2wpkhAddr_succeeds hp hf hparse rfl, ethAddr_succeeds hp hf hparse,
    p2pkhText_btc_length_le _ true, p2pkhText_btc_length_le _ false, p2wpkhText_length .btc _,
    p2pkhText_ltc_length _ true, p2pkhText_ltc_length _ false, p2wpkhText_length .ltc _, ethText_length _⟩

end Sys2Proof.Machine

/-!
SUPPORT. The interrupt level over a step, and the outputs that are too short to overflow OBUF.
-/

namespace Sys2Proof.Machine

/-! ### The interrupt level (R45, R322) -/

section Interrupt

variable {s u : State}

theorem State.irq_eq_true : s.irq = true ↔ s.done = true ∧ s.ie = true := Bool.and_eq_true_iff

/-- STATUS.IRQ is bit 11, above the 11 bits of HAZ, STAGE, ERR and the flags (R39, R45). -/
theorem State.statusWord_irq (s : State) : s.statusWord.getLsbD 11 = s.irq := by
  simp only [State.statusWord, BitVec.getLsbD_append]
  simp

/-- The level rises at a completion with IE set, or at a CTRL write that stores IE = 1 under a set DONE, only (R322). -/
theorem Effect.irq_rises (he : Effect s u) (hs : s.irq = false) (hu : u.irq = true) :
    (s.busy = true ∧ u.busy = false ∧ s.ie = true ∧ engineNext s) ∨
    (s.done = true ∧ ∃ v : Word, ctrlWriteNext s v ∧ v.getLsbD 1 = true) := by
  obtain ⟨hdone, hie⟩ := State.irq_eq_true.1 hu
  cases he with
  | fail e st hb hn => exact .inl ⟨hb, rfl, hie, hn⟩
  | succeed o hb hn => exact .inl ⟨hb, rfl, hie, hn⟩
  | storeIe v hc => exact .inr ⟨hdone, v, hc, hie⟩
  | ctrlBusy v _ hc => exact .inr ⟨hdone, v, hc, hie⟩
  | nothing | draw | dropped | store => exact absurd (hs.symm.trans hu) (by decide)
  | clear | start | softReset | powerOn => exact absurd hdone (by simp)

end Interrupt

/-! ### Outputs of short slots (R115, R116) -/

/-- If the rule gives an output, none of its slots is longer than the 128 bytes between two slots (R115). -/
def SlotsShort (r : Except ErrCode Output) : Prop := ∀ o, r = .ok o → ∀ x ∈ o.slots, x.2.length ≤ 128

theorem SlotsShort.error (e : ErrCode) : SlotsShort (.error e) := nofun

theorem SlotsShort.none : SlotsShort (.ok Output.none) := by
  rintro _ ⟨⟩
  exact List.forall_mem_nil _

theorem SlotsShort.emit0 {b : Bytes} (h : b.length ≤ 128) : SlotsShort (emit0 b) := by
  rintro _ ⟨⟩
  exact List.forall_mem_singleton.2 h

/-- Short slots end within the smallest OBUF of R12. -/
theorem slotsFit_of_short {n : Nat} (hn : 1024 ≤ n) {l : List (Fin 8 × Bytes)} (h : ∀ x ∈ l, x.2.length ≤ 128) :
    slotsFit n l = true := by
  refine List.all_eq_true.2 fun x hx => decide_eq_true ?_
  have hlen := h x hx
  have hslot := x.1.isLt
  unfold slotBase
  omega

theorem SlotsShort.bech32Encode (c : Chain) (prog : Bytes) : SlotsShort (bech32EncodeRule c prog) := by
  unfold bech32EncodeRule
  split
  · exact .error _
  · next h =>
    have hhrp : (hrpOf c).length ≤ 3 := by cases c <;> decide
    exact .emit0 (by rw [bech32EncodeText_length (not_not.1 h)]; omega)

theorem SlotsShort.bech32Decode (c : Chain) (t : Bytes) : SlotsShort (bech32DecodeRule c t) := by
  unfold bech32DecodeRule
  cases h : bech32DecodeText (hrpOf c) t with
  | error e => exact .error e
  | ok prog => exact .emit0 (by rw [bech32DecodeText_length h]; decide)

/-- VERIFY_MESSAGE emits a public key of at most 65 bytes and an address of at most 75. -/
theorem SlotsShort.verify (c : Chain) (n : Bool) (a sig m : Bytes) : SlotsShort (verifyRule c n a sig m) := by
  unfold verifyRule
  cases recoverSig (msgDigest m c n) sig with
  | error e => exact .error e
  | ok q =>
    simp only
    split
    · exact .error _
    · rintro _ ⟨⟩
      exact List.forall_mem_cons.2 ⟨(ser_length_le _ _).trans (by decide),
        List.forall_mem_singleton.2 ((p2pkhText_length_le _ _ _).trans (by decide))⟩

/-- A command whose codes leave out InvalidLength has an output of short slots, whatever its operands. -/
theorem exec_slotsShort {i : Instr} (hw : i.wf = true) (hi : .invalidLength ∉ ownErrors i) (s : State) :
    ∃ r, exec i s = ran s (stageOf i) (operandCount i) r ∧ RuleOf i r ∧ SlotsShort r := by
  have emits {b : Bytes} (hv : ∀ ch n, i ≠ .verifyMessage ch n) (hb : b.length ≤ 32)
      (h : exec i s = ran s (stageOf i) (operandCount i) (Machine.emit0 b)) :
      ∃ r, exec i s = ran s (stageOf i) (operandCount i) r ∧ RuleOf i r ∧ SlotsShort r :=
    ⟨_, h, RuleOf.emit0 b hv, .emit0 (hb.trans (by decide))⟩
  cases i with
  | nop => exact ⟨_, rfl, ResultOf.zero (by simp), .none⟩
  | b58Checksum => exact emits (by simp) (by rw [checksum4_length]; decide) rfl
  | sha256 => exact emits (by simp) (sha256_length _).le rfl
  | sha256d => exact emits (by simp) (sha256_length _).le rfl
  | ripemd160 => exact emits (by simp) (by rw [ripemd160_length]; decide) rfl
  | hash160 => exact emits (by simp) (by rw [hash160_length]; decide) rfl
  | keccak256 => exact emits (by simp) (keccak256_length _).le rfl
  | msgDigest ch n =>
    cases ch with
    | btc | ltc => exact emits (by simp) (msgDigest_length _ _ _).le rfl
    | reserved | auto => exact absurd hw (by cases n <;> decide)
  | bech32Encode ch =>
    cases ch with
    | btc | ltc => exact ⟨_, rfl, .bech32Encode _ _ _, .bech32Encode _ _⟩
    | reserved | auto => exact absurd hw (by decide)
  | bech32Decode ch =>
    cases ch with
    | btc | ltc => exact ⟨_, rfl, .bech32Decode _ _ _, .bech32Decode _ _⟩
    | reserved | auto => exact absurd hw (by decide)
  | verifyMessage ch n =>
    cases ch with
    | btc | ltc | auto => exact ⟨_, rfl, .verify _ _ _ _ _ _, .verify _ _ _ _ _⟩
    | reserved => exact absurd hw (by cases n <;> decide)
  | scalarMult c sub => cases sub <;> exact absurd (by simp [ownErrors, pointErrors]) hi
  | _ => exact absurd (by simp [ownErrors, pointErrors]) hi

/-- A completion reports a code of the command's own, if its output fits OBUF or InvalidLength is one of them (R116). -/
theorem RuleOf.complete_err {i : Instr} {s : State} {r : Except ErrCode Output} (hr : RuleOf i r)
    (hfit : .invalidLength ∈ ownErrors i ∨ ∀ o, r = .ok o → slotsFit s.params.obufSize o.slots = true) (st : Stage) :
    (s.complete st r).err = .ok ∨ (s.complete st r).err ∈ ownErrors i := by
  rcases s.complete_cases st r with ⟨e, rfl, hc⟩ | ⟨o, rfl, -, hc⟩ | ⟨o, rfl, hover, hc⟩
  · rw [hc]
    exact .inr hr
  · rw [hc]
    exact .inl rfl
  · rw [hc]
    exact .inr (hfit.resolve_right fun h => absurd (hover.symm.trans (h o rfl)) (by decide))

end Sys2Proof.Machine

/-!
OBLIGATIONS. The statements about the interrupt and the error codes.
-/

namespace Sys2Proof.Machine

/-- Settles O12: STATUS shows the level at its bit 11, and of the effects of a step only a completion and a stored IE
raise it. -/
theorem interruptLevel : Obligations.InterruptLevel := fun s => by
  refine ⟨rfl, s.statusWord_irq, fun t hstep => ?_⟩
  obtain ⟨u, rest, rs, he, rfl⟩ := step_moves hstep
  exact he.irq_rises

/-- Settles O28: a command that may overflow OBUF has InvalidLength among its codes, and every other command's output
fits; and no completion at all has code 9. -/
theorem errorCodesByCommand : Obligations.ErrorCodesByCommand := by
  refine ⟨fun i s t hp hw hf ht => ?_, fun i s t ht => ?_⟩
  · have hframed := (State.framed_iff_fits (operandCount_le_three i)).2 hf
    have reports {r : Except ErrCode Output} (hr : exec i s = ran s (stageOf i) (operandCount i) r) :
        t = s.complete (stageOf i) r := by
      rw [hr, ran, State.runCommand_of_framed hframed] at ht
      exact (Host.Outcome.next.inj ht).symm
    by_cases hi : .invalidLength ∈ ownErrors i
    · obtain ⟨r, hr, hrule⟩ := exec_of_wf hw s
      rw [reports hr]
      exact hrule.complete_err (.inl hi) _
    · obtain ⟨r, hr, hrule, hshort⟩ := exec_slotsShort hw hi s
      obtain ⟨-, -, hmin, -⟩ := hp
      rw [reports hr]
      exact hrule.complete_err (.inr fun o ho => slotsFit_of_short hmin (hshort o ho)) _
  · rcases exec_ends i s with ⟨e, st, -, h9, hfail⟩ | ⟨o, -, -, hsucceed⟩
    · rw [← Host.Outcome.next.inj (hfail.symm.trans ht)]
      exact h9
    · rw [← Host.Outcome.next.inj (hsucceed.symm.trans ht)]
      exact nofun

end Sys2Proof.Machine

/-!
SUPPORT. What the two resets leave in the registers, and the host's accesses during a run: the write that is dropped,
the read that draws a free value, and the single bytes of a read.
-/

namespace Sys2Proof.Machine

/-! ### Widths and alignment (R73, R74) -/

section Alignment

variable {off width : Nat}

theorem aligned_le_four (h : aligned off width) : width ≤ 4 := by
  unfold aligned at h
  split_ifs at h <;> omega

theorem aligned_register (ha : aligned off width) (h : off < 0x1000) : width = 4 ∧ off % 4 = 0 := by
  rwa [aligned, if_pos h] at ha

/-- An aligned access that reaches the buffer half begins there: below, a word ends at 0x1000 at the latest (R73). -/
theorem aligned_buffer_le (ha : aligned off width) {a : Nat} (h : 0x1000 ≤ a) (hlt : a < off + width) :
    0x1000 ≤ off := by
  by_contra hoff
  obtain ⟨rfl, hmod⟩ := aligned_register ha (not_le.1 hoff)
  omega

end Alignment

/-! ### Resets (R331, R332) -/

section Reset

variable (s : State)

/-- Answering the host changes no register. -/
@[simp] theorem respond_readReg (x : State × BusResponse) (r : Reg) : (respond x).readReg r = x.1.readReg r := by
  cases r <;> rfl

/-- The platform's reset is not a bus access: the host gets no answer. -/
theorem hostResets_eq : hostResets s = .next s.powerOnReset := rfl

theorem hostWrites_srst {v : Word} (h3 : v.getLsbD 3 = true) :
    hostWrites s 4 4 v = .next (respond (s.softReset, .written)) := by
  rw [hostWrites_ctrl, State.writeCtrl_srst h3]

/-- Power-on reset differs from the soft reset in IBUF, which no register shows (R332). -/
@[simp] theorem State.powerOnReset_readReg (r : Reg) : s.powerOnReset.readReg r = s.softReset.readReg r := by
  cases r <;> rfl

@[simp] theorem State.softReset_readReg_id : s.softReset.readReg .id = 0x4F440007 := rfl

@[simp] theorem State.softReset_readReg_caps : s.softReset.readReg .caps = s.readReg .caps := rfl

@[simp] theorem State.softReset_readReg_result : s.softReset.readReg .result = 0 := ResultReg.zero_word

@[simp] theorem State.softReset_readReg_olen (j : Fin 8) : s.softReset.readReg (.olen j) = 0 := by
  change lenWord olenZero[j] = 0
  rw [olenZero_get]
  rfl

end Reset

/-! ### Writes to the inputs during a run (R80, R335) -/

section DroppedWrites

variable {s : State} {off width : Nat}

theorem touches_of_ibuf {p : Config.Params} {a : Nat} (hlo : off ≤ a) (hhi : a < off + width) (h : 0x1000 ≤ a)
    (hlt : a < 0x1000 + p.ibufSize) : touches p off width BufferByte.isIbuf = true :=
  List.any_eq_true.2 ⟨a - off, List.mem_range.2 (by omega), by
    rw [Nat.add_sub_cancel' hlo, bufferByteAt_of_ibuf h hlt]
    rfl⟩

/-- One IBUF byte is enough: the write is dropped whole (R80). -/
theorem hostWrites_ibuf_busy (hoff : off < 0x3000) (ha : aligned off width) (h : 0x1000 ≤ off) (hb : s.busy = true)
    (ht : touches s.params off width BufferByte.isIbuf = true) (v : Word) :
    hostWrites s off width v = .next { s with haz := true, responses := .written :: s.responses } := by
  rw [hostWrites_eq s hoff, State.busWrite_buffer ha h, if_pos ht, State.unlessBusy_of_busy hb]
  rfl

end DroppedWrites

/-! ### Reads of the outputs during a run (R81, R336) -/

section FreeReads

variable {s : State} {off width : Nat}

/-- RESULT and OLEN0 to OLEN7 stand side by side in the register map. -/
theorem registerAt_output (hmod : off % 4 = 0) (hlo : 0x1C ≤ off) (hhi : off ≤ 0x3C) :
    ∃ r, RegisterAt off r ∧ r.isOutput = true := by
  have h : ∀ k < 9, ∃ r ∈ regAt (0x1C + 4 * k), RegisterAt (0x1C + 4 * k) r ∧ r.isOutput = true := by decide
  have hk := h ((off - 0x1C) / 4) (by omega)
  rw [show 0x1C + 4 * ((off - 0x1C) / 4) = off by omega] at hk
  exact hk.imp fun _ => And.right

/-- An output register answers the next free value. -/
theorem RegisterAt.hostReads_output {r : Reg} (h : RegisterAt off r) (ho : r.isOutput = true) (hb : s.busy = true) :
    Machine.hostReads s off 4 = .next { s with
      draws := s.draws + 1
      responses := .data (Config.busyRead s.draws) :: s.responses } := by
  have ⟨hlt, _, hr⟩ := h
  rw [hostReads_eq s h.lt_window, State.busRead_register (busLegal_iff_aligned.1 h.busLegal) hlt, hr, Option.elim,
    if_pos (Bool.and_eq_true_iff.2 ⟨hb, ho⟩)]
  rfl

/-- A read that touches OBUF draws one free value, whatever its width. -/
theorem hostReads_obuf_busy (hoff : off < 0x3000) (ha : aligned off width) (h : 0x1000 ≤ off) (hb : s.busy = true)
    (ht : touches s.params off width BufferByte.isObuf = true) :
    hostReads s off width = .next { s with
      draws := s.draws + 1
      responses := .data (s.readBuffer off width) :: s.responses } := by
  rw [hostReads_eq s hoff, State.busRead_buffer ha h, if_pos (Bool.and_eq_true_iff.2 ⟨hb, ht⟩)]
  rfl

end FreeReads

/-! ### The bytes of a read (R76) -/

section ReadBytes

/-- The lowest byte first. -/
theorem littleEndian_succ_low (n : Nat) (f : Nat → Byte) :
    littleEndian (n + 1) f = (f 0).toNat + 256 * littleEndian n fun i => f (i + 1) := by
  induction n with
  | zero => simp [littleEndian]
  | succ n ih =>
    rw [littleEndian_succ, ih, littleEndian_succ, pow_succ]
    ring

/-- Digit `i` of a little-endian value is its byte `i`. -/
theorem littleEndian_div_mod {n i : Nat} (h : i < n) (f : Nat → Byte) :
    littleEndian n f / 256 ^ i % 256 = (f i).toNat := by
  induction n generalizing i f with
  | zero => exact absurd h (Nat.not_lt_zero i)
  | succ n ih =>
    have hlow := (f 0).isLt
    rw [littleEndian_succ_low]
    cases i with
    | zero => omega
    | succ i =>
      rw [pow_succ', ← Nat.div_div_eq_div_mul,
        show ∀ m, ((f 0).toNat + 256 * m) / 256 = m by omega]
      exact ih (Nat.lt_of_succ_lt_succ h) fun i => f (i + 1)

/-- Byte `i` of the bus word of a read; the word has room for four bytes. -/
theorem littleEndian_extract {n i : Nat} (hn : n ≤ 4) (h : i < n) (f : Nat → Byte) :
    (BitVec.ofNat 32 (littleEndian n f)).extractLsb' (8 * i) 8 = f i := by
  have hroom : (256 : Nat) ^ i * 256 ∣ 2 ^ 32 := by
    rw [← pow_succ, show (256 : Nat) = 2 ^ 8 by decide, ← pow_mul]
    exact pow_dvd_pow 2 (by omega)
  refine BitVec.eq_of_toNat_eq ?_
  rw [BitVec.extractLsb'_toNat, BitVec.toNat_ofNat, Nat.shiftRight_eq_div_pow, pow_mul, ← littleEndian_div_mod h f]
  change littleEndian n f % 2 ^ 32 / 256 ^ i % 256 = _
  rw [← Nat.mod_mul_right_div_self, Nat.mod_mod_of_dvd _ hroom, Nat.mod_mul_right_div_self]

end ReadBytes

end Sys2Proof.Machine

/-!
OBLIGATIONS. The statements about the resets and about the host's accesses during a run.
-/

namespace Sys2Proof.Machine

/-- Settles O8: the fields of the two resets, one by one, and the words of the registers they give. -/
theorem resets : Obligations.Resets := by
  refine ⟨fun s v h3 => ⟨_, hostWrites_srst s h3, ?_⟩, fun s => ⟨_, hostResets_eq s, ?_⟩⟩
  · simp [State.irq, State.phase]
  · simp [State.irq, State.phase]

/-- Settles O18: an input register is one of O17's; an access that touches IBUF lies in the buffer half, where one
IBUF byte drops it. -/
theorem inputWritesWhileBusyDropped : Obligations.InputWritesWhileBusyDropped := by
  intro s off width v hp hb ha htouched
  rcases htouched with hreg | ⟨a, hlo, hhi, h, hlt⟩
  · obtain ⟨rfl, -⟩ := aligned_register ha (by omega)
    obtain ⟨-, hinputs⟩ := inputRegisters
    obtain ⟨-, hdropped, -⟩ := hinputs s v
    exact hdropped hb off (by simpa using hreg)
  · obtain ⟨-, hsize, -, -⟩ := hp
    exact hostWrites_ibuf_busy (by omega) ha (aligned_buffer_le ha h hhi) hb (touches_of_ibuf hlo hhi h hlt) v

/-- Settles O21: an output draws a free value, any other register answers its word as while idle, and IBUF reads as
O19 says, here byte by byte. -/
theorem readsWhileBusy : Obligations.ReadsWhileBusy := by
  intro s hp hb
  refine ⟨fun off width ha hout => ?_, fun x hx => ?_, fun off width ha hin => ?_⟩
  · rcases hout with ⟨hlo, hhi⟩ | ⟨rfl, hlo, hhi⟩
    · have hpos := aligned_pos ha
      have ⟨_, _, _, hsize⟩ := hp
      exact ⟨_, hostReads_obuf_busy (by omega) ha (by omega) hb (touches_of_forall hpos fun i hi => by
        rw [bufferByteAt_of_obuf hp (by omega) (by omega)]
        rfl)⟩
    · obtain ⟨-, hmod⟩ := aligned_register ha (by omega)
      obtain ⟨r, hr, ho⟩ := registerAt_output hmod hlo hhi
      exact ⟨_, hr.hostReads_output ho hb⟩
  · have hr : RegisterAt x.1 x.2 ∧ x.2.isOutput = false := by
      revert x
      decide
    obtain ⟨hr, ho⟩ := hr
    exact hr.hostReads (by rw [ho, Bool.and_false])
  · obtain ⟨-, hread⟩ := ibufAccess s off width hp ha hin
    exact ⟨_, hread, fun i hi => littleEndian_extract (aligned_le_four ha) hi _⟩

/-- Settles O14: the busy case of a CTRL write. -/
theorem ctrlWriteWhileBusy : Obligations.CtrlWriteWhileBusy := by
  intro s v hb h3
  rw [hostWrites_ctrl, State.writeCtrl_of_busy hb h3]
  rfl

end Sys2Proof.Machine
